-- ==== Sys2Proof/Word.lean ====
section
/-! DEFINITION. The word types of the framing block: bytes, and the unsigned fields of the wire formats and counters
(00_scope section 5: every quantity is unsigned, bit 0 is the least significant). -/
namespace Sys2Proof

/-- A byte (00_scope section 5). -/
abbrev Byte := BitVec 8

/-- A 16-bit field: a Simple16 length or CRC (10_state R36). -/
abbrev U16 := BitVec 16

/-- A 24-bit field: a Packet or SeqPacket length (10_state R37). -/
abbrev U24 := BitVec 24

/-- A 32-bit field: a command operand (30_encoding R110) or an error counter (10_state R33). -/
abbrev U32 := BitVec 32

end Sys2Proof
end

