-- ==== Sys2Proof/Config.lean ====
section
/-! DEFINITION. What an implementation fixes: the strap parameters of 00_scope R9, the constants the spec fixes, the
parameter functions nothing is known of, and the free values. -/
namespace Sys2Proof

/-- The framing protocol of a decoder or encoder instance (00_scope R9 `PROTO`). -/
inductive Proto where
  | simple8 | simple16 | packet | seqpacket
deriving DecidableEq, Repr

/-- The Slot Buffer variant (00_scope R9 `SLOT_KIND`, 10_state R28). -/
inductive SlotKind where
  | fixed | dynamic
deriving DecidableEq, Repr

/-- Which function the parameter `CRC8_STEP` or `CRC16_STEP` is (00_scope R9, R11): the instance the spec recommends
(93_implementation_defined G1, G2), or any other total function, of which nothing is known. DESIGN CHOICE, log 8. -/
inductive CrcSelect where
  | recommended | other
deriving DecidableEq, Repr

/-- The configuration straps of one instance, sampled when its reset is released (00_scope R6, R9). -/
structure Straps where
  /-- `N`, the slot count -/
  n : Nat
  /-- `ELEM_W`, the width in bits of a general ring's element -/
  elemW : Nat
  /-- `MAX_PAYLOAD`, the per-slot maximum payload size in bytes -/
  maxPayload : Nat
  slotKind : SlotKind
  proto : Proto
  s8Stx : Byte
  s8Etx : Byte
  s8Ntx : Byte
  s8CrcEn : Bool
  s16Sync0 : Byte
  s16Sync1 : Byte
  s16CrcEn : Bool
  s16CrcSync : Bool
  s16CrcInit : U16
  pktMagic0 : Byte
  pktMagic1 : Byte
  crc8 : CrcSelect
  crc16 : CrcSelect
  hasNotifier : Bool
  errFatal : Bool
  /-- `GATHER_K`, the most descriptors one gather returns -/
  gatherK : Nat
deriving DecidableEq, Repr

namespace Config

/-- `PKT_CRC_SEED` (00_scope R9: 19, decimal). -/
def pktCrcSeed : Byte := 19#8

/-- `PKT_CRC_WINDOW` (00_scope R9: 16). -/
def pktCrcWindow : Nat := 16

/-- The strap values of every instance in `State.reset`. The spec leaves each of them OPEN (00_scope R9); these are the
defaults it names where it names one and the example values of 95_test_vectors elsewhere. DESIGN CHOICE, unsafe for a
statement about `State.reset` alone, log 3. -/
def straps : Straps where
  n := 4
  elemW := 8
  maxPayload := 16
  slotKind := .fixed
  proto := .simple8
  s8Stx := 0x45#8
  s8Etx := 0x4A#8
  s8Ntx := 0x10#8
  s8CrcEn := false
  s16Sync0 := 0xA5#8
  s16Sync1 := 0x5A#8
  s16CrcEn := false
  s16CrcSync := false
  s16CrcInit := 0xFFFF#16
  pktMagic0 := 0x4D#8
  pktMagic1 := 0x50#8
  crc8 := .recommended
  crc16 := .recommended
  hasNotifier := true
  errFatal := false
  gatherK := 4

/-- `CRC8_STEP` where it is not the recommended instance: any total function (00_scope R11). Log 8, safe. -/
opaque otherCrc8Step : Byte → Byte → Byte

/-- `CRC16_STEP` where it is not the recommended instance: any total function (00_scope R11). Log 8, safe. -/
opaque otherCrc16Step : U16 → Byte → U16

/-- FREE VALUE: the byte at an offset of slot storage which holds no specified value (40_slot_buffer R137, 93 U1 to
U3), by the allocation it belongs to and its offset. Log 7, safe. -/
opaque freeByte : Nat → Nat → Byte

/-- FREE VALUE: what a dead general-ring slot reads as (93 U3), by its index. No run reads one (10_state R25). Log 18, safe. -/
opaque freeElem : Nat → Nat

/-- FREE VALUE: the count byte of an `ENC_GATHER` response with more descriptors than a `u8` can count (43_encoder_base
R250 states none), by the number of descriptors. DESIGN CHOICE, log 10, safe. -/
opaque gatherCount : Nat → Byte

end Config
end Sys2Proof
end

