-- ==== Sys2Proof/Machine/Crc.lean ====
section
/-! DEFINITION. The checksum folds (00_scope R11) and the recommended byte steps (93_implementation_defined G1, G2). -/
namespace Sys2Proof.Machine

/-- One bit of a reflected CRC register: shift right, and subtract the polynomial when a one falls out (93 G1, G2). -/
def crcShift {w : Nat} (poly c : BitVec w) : BitVec w :=
  if c.getLsbD 0 then (c >>> 1) ^^^ poly else c >>> 1

/-- `crcShift` repeated. -/
def crcShifts {w : Nat} (poly : BitVec w) : Nat → BitVec w → BitVec w
  | 0, c => c
  | k + 1, c => crcShifts poly k (crcShift poly c)

/-- The recommended `CRC8_STEP`, CRC-8/MAXIM (93 G1). -/
def crc8Maxim (c b : Byte) : Byte := crcShifts 0x8C#8 8 (c ^^^ b)

/-- The recommended `CRC16_STEP`, Modbus (93 G2). -/
def crc16Modbus (c : U16) (b : Byte) : U16 := crcShifts 0xA001#16 8 (c ^^^ b.setWidth 16)

/-- `CRC8_STEP` of an instance (00_scope R9, R11; log 8). -/
def crc8Step (st : Straps) : Byte → Byte → Byte :=
  match st.crc8 with
  | .recommended => crc8Maxim
  | .other => Config.otherCrc8Step

/-- `CRC16_STEP` of an instance (00_scope R9, R11; log 8). -/
def crc16Step (st : Straps) : U16 → Byte → U16 :=
  match st.crc16 with
  | .recommended => crc16Modbus
  | .other => Config.otherCrc16Step

/-- `CRC8(seed, bytes)`, the left fold of the step (00_scope R11). -/
def crc8 (st : Straps) (seed : Byte) (bs : List Byte) : Byte := bs.foldl (crc8Step st) seed

/-- `CRC16(seed, bytes)`, the left fold of the step (00_scope R11). -/
def crc16 (st : Straps) (seed : U16) (bs : List Byte) : U16 := bs.foldl (crc16Step st) seed

/-- The Simple16 CRC start value `c0`: `S16_CRC_INIT`, run over the two sync bytes first when `S16_CRC_SYNC`
(30_encoding R99). -/
def s16CrcStart (st : Straps) : U16 :=
  if st.s16CrcSync then crc16 st st.s16CrcInit [st.s16Sync0, st.s16Sync1] else st.s16CrcInit

end Sys2Proof.Machine
end

