-- ==== Sys2Proof/Machine/Types.lean ====
section
/-! DEFINITION. The parts of the state, as plain data: ports, rings, Slot Buffers, the parse registers of the decode
machines, the four kinds of instance, and what the drivers do. -/
namespace Sys2Proof.Machine

/-- The kinds of instance (00_scope R12; 30_encoding R109: general ring, standalone pool, decoder, encoder). -/
inductive Kind where
  | rg | pool | dec | enc
deriving DecidableEq, Repr

/-- The two command ports (00_scope R7): producer and consumer. -/
inductive PortId where
  | p | c
deriving DecidableEq, Repr

/-- The framing cause codes (60_exceptions R372). -/
inductive Cause where
  | stxInFrame | etxAfterNtx | ntxAfterNtx | badCrc | oversize | badSync | lenMismatch | shortHeader | emptyFrame
  | ringFull
deriving DecidableEq, Repr

/-- The event of one fed byte, or of one datagram (42_decoder_base R194). -/
inductive FrameEvent where
  | none
  | committed
  | discarded (cause : Cause)
  | ringFull
deriving DecidableEq, Repr

/-- The status codes (30_encoding R118). -/
inductive Status where
  | ok | none | ringFull | tooLarge | bufTooSmall | badLen | framingFatal | emptyMessage | notConfigured | illegal
deriving DecidableEq, Repr

/-- A response: a status and the bytes of its fields (30_encoding R116). -/
structure Response where
  status : Status
  fields : List Byte
deriving DecidableEq, Repr

/-- A record of the error-report channel (60_exceptions R384). -/
structure Report where
  cause : Cause
  info : U32
deriving DecidableEq, Repr

/-- A command port: the bytes received and not yet taken as a command (30_encoding R108), and the response bytes sent
so far (R116; the record of an output, log 14). -/
structure Port where
  rx : List Byte
  tx : List Byte
deriving DecidableEq, Repr

/-- The cursors of a ring and its notifier (10_state R21, R34). `pulses` counts the wake pulses emitted so far, the
record of an output (60_exceptions R380, log 14). -/
structure Ring where
  readPos : Nat
  writePos : Nat
  notifyCount : Nat
  pulses : Nat
deriving DecidableEq, Repr

/-- What every instance has: its straps (00_scope R6), `configured` (10_state R40), its cursors, its two ports. -/
structure Base where
  straps : Straps
  configured : Bool
  ring : Ring
  p : Port
  c : Port
deriving DecidableEq, Repr

/-- Byte storage of one slot: (offset, byte) pairs, offsets strictly rising. An offset that is not listed holds no
specified byte (10_state R28), so no listed byte equals what an unlisted offset reads as. -/
abbrev Memory := List Host.Cell

/-- A Slot Buffer (10_state R28). `fill` is the model's own: which free bytes its unlisted offsets read as (log 7). -/
structure Slot where
  max : Nat
  cap : Nat
  size : Nat
  data : Memory
  fill : Nat
deriving DecidableEq, Repr

/-- The Simple8 parse state (10_state R35). -/
structure S8 where
  inFrame : Bool
  esc : Bool
  holdValid : Bool
  hold : Byte
  crc : Byte
deriving DecidableEq, Repr

/-- `s16_state` (10_state R36). -/
inductive S16State where
  | sync0 | sync1 | lenLo | lenHi | payload
deriving DecidableEq, Repr

/-- The Simple16 parse state (10_state R36). -/
structure S16 where
  st : S16State
  len : U16
  remaining : Nat
  crc : U16
  crcRx : U16
  ignored : U32
deriving DecidableEq, Repr

/-- `pkt_state` (10_state R37). -/
inductive PktState where
  | magic0 | magic1 | crc | len2 | len1 | len0 | payload
deriving DecidableEq, Repr

/-- The Packet parse state (10_state R37). -/
structure Pkt where
  st : PktState
  crcRx : Byte
  len : U24
  remaining : U24
  crc : Byte
  cnt : Nat
deriving DecidableEq, Repr

/-- A `DEC_PUSH` in progress: the bytes not yet fed and how many were (42_decoder_base R192, 20_memory R75). -/
structure PushOp where
  rest : List Byte
  consumed : Nat
deriving DecidableEq, Repr

/-- An `ENC_CLEAR` in progress with its snapshot of `write_pos`, or a stream `ENC_MOVE` in progress with the bytes it
has still to acknowledge (43_encoder_base R244, R248, 20_memory R75). -/
inductive PullOp where
  | clear (snapshot : Nat)
  | move (rem : Nat)
deriving DecidableEq, Repr

/-- A general ring instance: a slot is live with an element, or dead (10_state R25). -/
structure RgInst where
  base : Base
  slots : List (Option Nat)
deriving DecidableEq, Repr

/-- A standalone pool instance (10_state R26). -/
structure PoolInst where
  base : Base
  slots : List Slot
deriving DecidableEq, Repr

/-- A decoder instance (10_state R31). `reports` is the record of the error-report channel (60_exceptions R384);
`pushing` and `clearing` are the operations in progress on its two ports, `clearing` with its snapshot of `write_pos`
(20_memory R75). -/
structure DecInst where
  base : Base
  slots : List Slot
  errCount : U32
  s8 : S8
  s16 : S16
  pkt : Pkt
  reports : List Report
  pushing : Option PushOp
  clearing : Option Nat
deriving DecidableEq, Repr

/-- An encoder instance (10_state R39); `pulling` is the operation in progress on port `C` (20_memory R75). -/
structure EncInst where
  base : Base
  slots : List Slot
  frontOff : Nat
  pulling : Option PullOp
deriving DecidableEq, Repr

/-- Which instance and port the machine serves, and for how many atomic steps of a multi-point operation (`none`: to
its end). The model's own, log 2, log 4. -/
structure Sel where
  kind : Kind
  port : PortId
  quantum : Option Nat
deriving DecidableEq, Repr

/-- What the drivers and the environment do, in order; the interleaving of the ports (00_scope R7) is the order of the
list. The model's own, log 2. -/
inductive Input where
  /-- The driver of a port presents bytes on it. -/
  | deliver (kind : Kind) (port : PortId) (bytes : List Byte)
  /-- A port gets a turn: it goes on with its operation, or takes its next command. -/
  | serve (kind : Kind) (port : PortId) (quantum : Option Nat)
  /-- The reset input of an instance is asserted and released with these straps (70_reset R410, R411). -/
  | reset (kind : Kind) (straps : Straps)
deriving DecidableEq, Repr

end Sys2Proof.Machine
end

