-- ==== Sys2Proof/Machine/Construct.lean ====
section
/-! DEFINITION. Construction: the checks of 00_scope R10, the slot sizes of 10_state R29, and every state element of an
instance at its reset value (10_state R44, 70_reset R410). -/
namespace Sys2Proof.Machine

/-- The largest `MAX_PAYLOAD` a protocol allows (00_scope R9). -/
def payloadBound : Proto → Nat
  | .simple8 => 2 ^ 31 - 3
  | .simple16 => 65535
  | .packet => 2 ^ 24 - 1
  | .seqpacket => 2 ^ 24 - 1

/-- Two bytes are equal in their low 7 bits (00_scope R10 (b)). -/
def sameLow7 (a b : Byte) : Bool := (a &&& 0x7F#8) == (b &&& 0x7F#8)

/-- The Simple8 control bytes are pairwise different in their low 7 bits (00_scope R10 (b)). -/
def controlBytesDistinct (st : Straps) : Bool :=
  !sameLow7 st.s8Stx st.s8Etx && !sameLow7 st.s8Stx st.s8Ntx && !sameLow7 st.s8Etx st.s8Ntx

/-- The construction checks (00_scope R10): (a) and (c) every parameter in the range of R9, (b) the Simple8 control
bytes distinct. Every instance checks all its straps, whatever its kind: DEDUCED, log 11. -/
def strapsLegal (st : Straps) : Bool :=
  decide (2 ≤ st.n) && decide (st.n ≤ 2 ^ 16) && decide (1 ≤ st.elemW) && decide (1 ≤ st.gatherK) &&
  decide (1 ≤ st.maxPayload) && decide (st.maxPayload ≤ payloadBound st.proto) &&
  (decide (st.proto ≠ .simple8) || controlBytesDistinct st)

/-- `ENC_SLOT_MAX`, the worst-case encoded size of a `MAX_PAYLOAD`-byte message (10_state R29). -/
def encSlotMax (st : Straps) : Nat :=
  match st.proto with
  | .simple8 => 2 * st.maxPayload + 2 + (if st.s8CrcEn then 2 else 0)
  | .simple16 => st.maxPayload + 4 + (if st.s16CrcEn then 2 else 0)
  | .packet => st.maxPayload + 6
  | .seqpacket => st.maxPayload + 3

/-- A Slot Buffer right after reset (10_state R28); `fill` tells which free bytes its storage holds (log 7). -/
def freshSlot (kind : SlotKind) (max fill : Nat) : Slot where
  max := max
  cap := match kind with
    | .fixed => max
    | .dynamic => 0
  size := 0
  data := []
  fill := fill

/-- A port right after reset: nothing received. `sent` is what it answered before (log 13, log 14). -/
def freshPort (sent : List Byte) : Port where
  rx := []
  tx := sent

/-- What every instance has, right after reset (70_reset R410); `old` gives the outputs sent before (log 13). -/
def freshBase (st : Straps) (sentP sentC : List Byte) (pulses : Nat) : Base where
  straps := st
  configured := strapsLegal st
  ring := { readPos := 0, writePos := 0, notifyCount := 0, pulses := pulses }
  p := freshPort sentP
  c := freshPort sentC

/-- The parse registers of Simple8 right after reset; the two unspecified ones are zero, log 6 (10_state R35). -/
def freshS8 : S8 := { inFrame := false, esc := false, holdValid := false, hold := 0#8, crc := 0#8 }

/-- The parse registers of Simple16 right after reset; the four unspecified ones are zero, log 6 (10_state R36). -/
def freshS16 : S16 := { st := .sync0, len := 0#16, remaining := 0, crc := 0#16, crcRx := 0#16, ignored := 0#32 }

/-- The parse registers of Packet right after reset; the five unspecified ones are zero, log 6 (10_state R37). -/
def freshPkt : Pkt := { st := .magic0, crcRx := 0#8, len := 0#24, remaining := 0#24, crc := 0#8, cnt := 0 }

/-- A general ring right after reset: every slot dead (10_state R25). -/
def freshRg (st : Straps) (sentP sentC : List Byte) (pulses : Nat) : RgInst where
  base := freshBase st sentP sentC pulses
  slots := List.replicate st.n none

/-- A standalone pool right after reset; `max` is `MAX_PAYLOAD`, DEDUCED, log 12. -/
def freshPool (st : Straps) (fill : Nat) (sentP sentC : List Byte) (pulses : Nat) : PoolInst where
  base := freshBase st sentP sentC pulses
  slots := List.replicate st.n (freshSlot st.slotKind st.maxPayload fill)

/-- A decoder right after reset (10_state R31 to R37). -/
def freshDec (st : Straps) (fill : Nat) (sentP sentC : List Byte) (pulses : Nat) (reports : List Report) : DecInst where
  base := freshBase st sentP sentC pulses
  slots := List.replicate st.n (freshSlot st.slotKind st.maxPayload fill)
  errCount := 0#32
  s8 := freshS8
  s16 := freshS16
  pkt := freshPkt
  reports := reports
  pushing := none
  clearing := none

/-- An encoder right after reset (10_state R39). -/
def freshEnc (st : Straps) (fill : Nat) (sentP sentC : List Byte) (pulses : Nat) : EncInst where
  base := freshBase st sentP sentC pulses
  slots := List.replicate st.n (freshSlot st.slotKind (encSlotMax st) fill)
  frontOff := 0
  pulling := none

end Sys2Proof.Machine
end

