-- ==== Sys2Proof/Machine/State.lean ====
section
/-! DEFINITION. The state of the machine, its faults and refusals, and the state after reset. -/
namespace Sys2Proof.Machine

/-- The machine: one instance of each kind (00_scope R12; instances share no state; log 1), and the model's own fields:
which port is served, what the drivers do next (log 2), and the counter of free values (log 7). -/
structure State where
  rg : RgInst
  pool : PoolInst
  dec : DecInst
  enc : EncInst
  sel : Sel
  inputs : List Input
  freeIdx : Nat
deriving DecidableEq, Repr

/-- Why the machine stops. -/
inductive Fault where
  /-- An operation addressed a ring slot that does not exist (20_memory R60: `0 <= s < N`). Raised by every operation
  that reaches slot storage; no run from reset raises it (20_memory R68). Safe, log 15. -/
  | noSlot
deriving DecidableEq, Repr

/-- Why an instruction has no meaning. -/
inductive Refusal where
  /-- Raised by `exec` for an instruction the model gives no meaning: none is left. Safe. -/
  | notModelled (mnemonic : String)
deriving DecidableEq, Repr

/-- The machine right after reset: every instance constructed with the straps of `Config.straps` (log 3), every element
at the value of 10_state R44, no driver acting. -/
def State.reset : State where
  rg := freshRg Config.straps [] [] 0
  pool := freshPool Config.straps 0 [] [] 0
  dec := freshDec Config.straps 0 [] [] 0 []
  enc := freshEnc Config.straps 0 [] [] 0
  sel := { kind := .rg, port := .p, quantum := none }
  inputs := []
  freeIdx := 1

end Sys2Proof.Machine
end

