-- ==== Sys2Proof/Machine/Flags.lean ====
section
/-! DEFINITION. The computed conditions: the block has no flag register (10_state R41); `empty`, `full`, `size` and the
wake level are functions of the cursors and the notifier, and counters saturate. -/
namespace Sys2Proof.Machine

/-- `next(c) = (c + 1) mod N` (41_ring R153). -/
def ringNext (n c : Nat) : Nat := (c + 1) % n

/-- `size(r, w) = (w - r) mod N` (10_state R22, 41_ring R153). -/
def ringSize (n r w : Nat) : Nat := if r ≤ w then w - r else w + n - r

/-- `empty(r, w)` (10_state R22). -/
def ringEmpty (r w : Nat) : Bool := r == w

/-- `full(r, w)` (10_state R22). -/
def ringFull (n r w : Nat) : Bool := ringNext n w == r

/-- `sat_add(x, k, 32)` (00_scope section 5). -/
def satAdd (x : U32) (k : Nat) : U32 := BitVec.ofNat 32 (min (x.toNat + k) (2 ^ 32 - 1))

/-- The ring of an instance is empty: a load of either cursor returns its current value (20_memory R66, R74). -/
def isEmpty (b : Base) : Bool := ringEmpty b.ring.readPos b.ring.writePos

/-- The ring of an instance is full. -/
def isFull (b : Base) : Bool := ringFull b.straps.n b.ring.readPos b.ring.writePos

/-- The number of committed, unconsumed slots of an instance. -/
def queueSize (b : Base) : Nat := ringSize b.straps.n b.ring.readPos b.ring.writePos

/-- The wake output, a level (60_exceptions R380); low without a notifier (R381). -/
def wake (b : Base) : Bool := b.straps.hasNotifier && b.ring.notifyCount != 0

end Sys2Proof.Machine
end

