-- ==== Sys2Proof/Machine/Operands.lean ====
section
/-! DEFINITION. Operand assembly: little-endian numbers of the command ports (30_encoding R108, R110, R116), the
multi-byte fields of the wire formats (30_encoding R92) and the effective range of `push_buffer` (R111). All of it is
pure (R94). -/
namespace Sys2Proof

/-- The `k` low bytes of `v`, least significant first (30_encoding R110, R116). -/
def leBytes : Nat → Nat → List Byte
  | 0, _ => []
  | k + 1, v => BitVec.ofNat 8 v :: leBytes k (v / 256)

/-- The unsigned number whose bytes, least significant first, are given (30_encoding R110). -/
def leNat : List Byte → Nat
  | [] => 0
  | b :: bs => b.toNat + 256 * leNat bs

/-- The number of bytes of a `V` operand or `value` field: `ceil(ELEM_W / 8)` (30_encoding R108, R116). -/
def valueBytes (elemW : Nat) : Nat := (elemW + 7) / 8

/-- `LE16(v)` (30_encoding R92). -/
def le16 (v : U16) : List Byte := [v.extractLsb' 0 8, v.extractLsb' 8 8]

/-- `BE24(v)` (30_encoding R92). -/
def be24 (v : U24) : List Byte := [v.extractLsb' 16 8, v.extractLsb' 8 8, v.extractLsb' 0 8]

/-- `unLE16([a, b])` (30_encoding R92). -/
def unLe16 (a b : Byte) : U16 := a.setWidth 16 ||| (b.setWidth 16 <<< 8)

/-- `unBE24([a, b, c])` (30_encoding R92). -/
def unBe24 (a b c : Byte) : U24 := (a.setWidth 24 <<< 16) ||| (b.setWidth 24 <<< 8) ||| c.setWidth 24

/-- Response field `u8` (30_encoding R116). -/
def fieldU8 (b : Byte) : List Byte := [b]

/-- Response field `u32` (30_encoding R116). -/
def fieldU32 (v : Nat) : List Byte := leBytes 4 v

/-- Response field `bool` (30_encoding R116). -/
def fieldBool (b : Bool) : List Byte := [if b then 1#8 else 0#8]

/-- Response field `bytes`: a `u32` count and the bytes (30_encoding R116). -/
def fieldBytes (bs : List Byte) : List Byte := fieldU32 bs.length ++ bs

/-- Response field `value` (30_encoding R116). -/
def fieldValue (elemW v : Nat) : List Byte := leBytes (valueBytes elemW) v

/-- Response field `desc`: a `u16` slot index, a `u32` offset, a `u32` length (30_encoding R116). -/
def fieldDesc (slot off len : Nat) : List Byte := leBytes 2 slot ++ leBytes 4 off ++ leBytes 4 len

/-- The effective sequence of `push_buffer(bytes, offset, len)`; `none` is the contract error of a range that leaves
the buffer (30_encoding R111, 93 X10). The command port carries the effective sequence only. -/
def effectiveRange (bytes : List Byte) (offset len : Nat) : Option (List Byte) :=
  if offset + len ≤ bytes.length then some ((bytes.drop offset).take len) else none

end Sys2Proof
end

