-- ==== Sys2Proof/Machine/Ops.lean ====
section
/-! DEFINITION. The named operations over storage, rings, ports and errors that the meanings share. -/
namespace Sys2Proof.Machine

/-! ### Slot storage (20_memory R60, R65) -/

/-- The byte a storage lists at an offset. -/
def Memory.find : Memory → Nat → Option Byte
  | [], _ => none
  | (k, v) :: t, a => if k = a then some v else Memory.find t a

/-- Write one byte, keeping the offsets strictly rising. -/
def Memory.write : Memory → Nat → Byte → Memory
  | [], a, b => [(a, b)]
  | (k, v) :: t, a, b =>
    if a < k then (a, b) :: (k, v) :: t
    else if a = k then (a, b) :: t
    else (k, v) :: Memory.write t a b

/-- Write a run of bytes in increasing offset order (20_memory R65). -/
def Memory.writeRun : Memory → Nat → List Byte → Memory
  | m, _, [] => m
  | m, a, b :: bs => Memory.writeRun (Memory.write m a b) (a + 1) bs

/-- The canonical form: offsets strictly rising. -/
abbrev Memory.wf (m : Memory) : Prop := m.Pairwise (fun x y => x.1 < y.1)

/-- The byte a slot's storage reads as at an offset: the byte written there, or a free value (40_slot_buffer R137,
93 U1; log 7). -/
def byteAt (sl : Slot) (off : Nat) : Byte := (Memory.find sl.data off).getD (Config.freeByte sl.fill off)

/-- `MemRead((s, off), n)` on the slot at `s` (40_slot_buffer R138). -/
def readRun (sl : Slot) (off n : Nat) : List Byte := (List.range n).map fun i => byteAt sl (off + i)

/-- The content `data[0 : size)` of a slot (10_state R28). -/
def content (sl : Slot) : List Byte := readRun sl 0 sl.size

/-- `MemWrite((s, off), |v|, v)` on the slot at `s` (40_slot_buffer R138): `size` and `cap` are unchanged. -/
def writeRun (sl : Slot) (off : Nat) (v : List Byte) : Slot := { sl with data := Memory.writeRun sl.data off v }

/-! ### Slot Buffer operations (40_slot_buffer) -/

/-- `SB_ZERO` (40_slot_buffer R134): `size` becomes zero, `cap` and the storage stay. -/
def slotZero (sl : Slot) : Slot := { sl with size := 0 }

/-- `SB_APPEND` (40_slot_buffer R135); `none` is its failure, which changes nothing. -/
def slotAppend (kind : SlotKind) (sl : Slot) (b : Byte) : Option Slot :=
  if sl.size = sl.max then none
  else some
    { sl with
      cap := if kind = .dynamic ∧ sl.size = sl.cap then sl.size + 1 else sl.cap
      data := Memory.write sl.data sl.size b
      size := sl.size + 1 }

/-- `SB_ALLOC` (40_slot_buffer R136); `none` is its failure, which changes nothing. The storage holds no specified
byte afterwards (R137); `fill` is the free value its bytes read as (log 7). -/
def slotAlloc (kind : SlotKind) (fill : Nat) (sl : Slot) (n : Nat) : Option Slot :=
  if sl.max < n then none
  else some
    { sl with
      cap := match kind with
        | .fixed => sl.cap
        | .dynamic => n
      size := n
      data := []
      fill := fill }

/-- `SB_ALLOC` and one `MemWrite` of all of it, as the framers and the SeqPacket decoder use a slot (40_slot_buffer
R140). Every byte allocated is written, so no free value is seen; the allocation cannot fail where it is used
(44_framing_decode R314, 45_framing_encode R341; log 18). -/
def slotFill (kind : SlotKind) (sl : Slot) (bs : List Byte) : Slot :=
  writeRun ((slotAlloc kind sl.fill sl bs.length).getD sl) 0 bs

/-- The slot at a ring index; an index that does not exist is a fault (20_memory R60; log 15). -/
def slotAt {α : Type} (slots : List α) (i : Nat) : Except Fault α :=
  match slots[i]? with
  | some x => .ok x
  | none => .error .noSlot

/-- The slots at several ring indices, each with its index. -/
def slotsAt {α : Type} (slots : List α) : List Nat → Except Fault (List (Nat × α))
  | [] => .ok []
  | i :: is =>
    match slotAt slots i with
    | .error f => .error f
    | .ok x =>
      match slotsAt slots is with
      | .error f => .error f
      | .ok xs => .ok ((i, x) :: xs)

/-! ### Cursors (41_ring R152) and the notifier (60_exceptions R380) -/

/-- `store_release(write_pos, next(write_pos))` with, in the same micro-step, the notifier's increment and the wake
pulse (41_ring R152, 10_state R34). -/
def published (b : Base) : Base :=
  { b with ring :=
    { readPos := b.ring.readPos
      writePos := ringNext b.straps.n b.ring.writePos
      notifyCount := if b.straps.hasNotifier then b.ring.notifyCount + 1 else b.ring.notifyCount
      pulses := if b.straps.hasNotifier then b.ring.pulses + 1 else b.ring.pulses } }

/-- `store_release(read_pos, next(read_pos))` with, in the same micro-step, the notifier's decrement (41_ring R152,
10_state R34). -/
def released (b : Base) : Base :=
  { b with ring :=
    { readPos := ringNext b.straps.n b.ring.readPos
      writePos := b.ring.writePos
      notifyCount := if b.straps.hasNotifier then b.ring.notifyCount - 1 else b.ring.notifyCount
      pulses := b.ring.pulses } }

/-- The consumer-owned indices up to a loaded `write_pos`, oldest first (10_state R24). -/
def queuedIdx (b : Base) (w : Nat) : List Nat :=
  (List.range (ringSize b.straps.n b.ring.readPos w)).map fun k => (b.ring.readPos + k) % b.straps.n

/-! ### Instances and ports -/

/-- What an instance of a kind has in common with the others. -/
def State.base (s : State) : Kind → Base
  | .rg => s.rg.base
  | .pool => s.pool.base
  | .dec => s.dec.base
  | .enc => s.enc.base

/-- Replace that part of an instance. -/
def State.setBase (s : State) (k : Kind) (b : Base) : State :=
  match k with
  | .rg => { s with rg := { s.rg with base := b } }
  | .pool => { s with pool := { s.pool with base := b } }
  | .dec => { s with dec := { s.dec with base := b } }
  | .enc => { s with enc := { s.enc with base := b } }

/-- A port of an instance. -/
def basePort (b : Base) : PortId → Port
  | .p => b.p
  | .c => b.c

/-- Replace a port of an instance. -/
def setBasePort (b : Base) (q : PortId) (x : Port) : Base :=
  match q with
  | .p => { b with p := x }
  | .c => { b with c := x }

/-- The port an instance and a port name. -/
def State.port (s : State) (k : Kind) (q : PortId) : Port := basePort (s.base k) q

/-- Replace that port. -/
def State.setPort (s : State) (k : Kind) (q : PortId) (x : Port) : State :=
  s.setBase k (setBasePort (s.base k) q x)

/-! ### Responses (30_encoding R116, R118) -/

/-- The status codes (30_encoding R118). -/
def statusCode : Status → Byte
  | .ok => 0x00#8
  | .none => 0x01#8
  | .ringFull => 0x02#8
  | .tooLarge => 0x03#8
  | .bufTooSmall => 0x04#8
  | .badLen => 0x05#8
  | .framingFatal => 0x06#8
  | .emptyMessage => 0x07#8
  | .notConfigured => 0x08#8
  | .illegal => 0xFF#8

/-- The framing cause codes (60_exceptions R372). -/
def causeCode : Cause → Byte
  | .stxInFrame => 1#8
  | .etxAfterNtx => 2#8
  | .ntxAfterNtx => 3#8
  | .badCrc => 4#8
  | .oversize => 5#8
  | .badSync => 6#8
  | .lenMismatch => 7#8
  | .shortHeader => 8#8
  | .emptyFrame => 9#8
  | .ringFull => 10#8

/-- The byte spelling of a response (30_encoding R116). -/
def responseBytes (r : Response) : List Byte := statusCode r.status :: r.fields

/-- `-> ST_OK(fields)` (00_scope section 5). -/
def okay (fields : List Byte) : Response := { status := .ok, fields := fields }

/-- `-> ST_x`, or `raise Capacity(ST_x)`, `raise Contract(ST_x)`: a response without fields (00_scope section 5). -/
def bare (st : Status) : Response := { status := st, fields := [] }

/-- The served port answers: the response goes out on it and nothing else changes (00_scope R7, 60_exceptions R371). -/
def State.answer (s : State) (r : Response) : State :=
  s.setPort s.sel.kind s.sel.port
    { s.port s.sel.kind s.sel.port with tx := (s.port s.sel.kind s.sel.port).tx ++ responseBytes r }

/-- What a command meets before its own rule (60_exceptions R378): an unconfigured instance answers
`ST_NOT_CONFIGURED` (30_encoding R113), and a command of another kind of instance, or on a port that does not accept
it, is answered `ST_ILLEGAL` (R112); neither changes anything else. `kind` and `ports` are those the opcode map lists
(R109). -/
def accept (kind : Kind) (ports : List PortId) (s : State) (run : Host.Outcome State Fault Refusal) :
    Host.Outcome State Fault Refusal :=
  if (s.base s.sel.kind).configured = false then .next (s.answer (bare .notConfigured))
  else if s.sel.kind ≠ kind ∨ s.sel.port ∉ ports then .next (s.answer (bare .illegal))
  else run

/-- An operation of the general ring ends with its response. -/
def finishRg (s : State) : Except Fault (RgInst × Response) → Host.Outcome State Fault Refusal
  | .error f => .fault f
  | .ok (i, r) => .next (State.answer { s with rg := i } r)

/-- An operation of the standalone pool ends with its response. -/
def finishPool (s : State) : Except Fault (PoolInst × Response) → Host.Outcome State Fault Refusal
  | .error f => .fault f
  | .ok (i, r) => .next (State.answer { s with pool := i } r)

/-- An operation of the decoder ends with its response. -/
def finishDec (s : State) : Except Fault (DecInst × Response) → Host.Outcome State Fault Refusal
  | .error f => .fault f
  | .ok (i, r) => .next (State.answer { s with dec := i } r)

/-- An operation of the encoder ends with its response. -/
def finishEnc (s : State) : Except Fault (EncInst × Response) → Host.Outcome State Fault Refusal
  | .error f => .fault f
  | .ok (i, r) => .next (State.answer { s with enc := i } r)

/-! ### Operations with several linearisation points (20_memory R75; log 4) -/

/-- After one atomic step an operation has more to do, or is done with a response. -/
inductive Progress (ω : Type) where
  | more (op : ω)
  | done (r : Response)

/-- Take at most so many atomic steps of an operation. -/
def drive {ω α : Type} (atom : ω → α → Except Fault (α × Progress ω)) :
    Nat → ω → α → Except Fault (α × Progress ω)
  | 0, op, a => .ok (a, .more op)
  | k + 1, op, a =>
    match atom op a with
    | .error f => .error f
    | .ok (a', .done r) => .ok (a', .done r)
    | .ok (a', .more op') => drive atom k op' a'

/-- The atomic steps a turn allows: its quantum, or what the operation needs to end (`bound`). -/
def turnSteps (s : State) (bound : Nat) : Nat := s.sel.quantum.getD bound

/-! ### Errors of a decoder: the entry sequence (60_exceptions R376) -/

/-- `count_error(cause)` (42_decoder_base R197): the counter saturates, one record goes out on the report channel, with
`info` as 60_exceptions R384 says; the parse state is unchanged. -/
def countError (d : DecInst) (cause : Cause) (info : U32) : DecInst :=
  { d with errCount := satAdd d.errCount 1, reports := d.reports ++ [{ cause := cause, info := info }] }

/-- `reseek()` (42_decoder_base R196): the parse state goes back to seeking sync; nothing else changes. -/
def reseek (d : DecInst) : DecInst :=
  match d.base.straps.proto with
  | .simple8 => { d with s8 := { d.s8 with inFrame := false, esc := false, holdValid := false } }
  | .simple16 => { d with s16 := { d.s16 with st := .sync0 } }
  | .packet => { d with pkt := { d.pkt with st := .magic0 } }
  | .seqpacket => d

/-- `framing_error(cause)` (42_decoder_base R198): count, report, seek sync. -/
def framingError (d : DecInst) (cause : Cause) : DecInst × FrameEvent :=
  (reseek (countError d cause 0#32), .discarded cause)

/-- `commit()` (42_decoder_base R200): seek sync, then publish the current slot, or drop the frame, counted and
reported, where the ring is full. -/
def commit (d : DecInst) : DecInst × FrameEvent :=
  if isFull d.base then (countError (reseek d) .ringFull 0#32, .ringFull)
  else ({ reseek d with base := published d.base }, .committed)

/-- Replace the current slot, `slot[write_pos]` (10_state R32). -/
def setCur (d : DecInst) (sl : Slot) : DecInst := { d with slots := d.slots.set d.base.ring.writePos sl }

end Sys2Proof.Machine
end

