-- ==== Sys2Proof/Machine/DecodeMachines.lean ====
section
/-! DEFINITION. The four decode machines (44_framing_decode). Each takes the decoder, its current slot `cur`
(`slot[write_pos]`, 10_state R32) and one byte, or one datagram, and gives the decoder after it and the event
(42_decoder_base R194). -/
namespace Sys2Proof.Machine

/-! ### Simple8 (44_framing_decode section 2) -/

/-- Frame start (44_framing_decode R273). -/
def s8Start (d : DecInst) (cur : Slot) : DecInst :=
  setCur { d with s8 := { d.s8 with inFrame := true, esc := false, holdValid := false, crc := d.base.straps.s8Stx } }
    (slotZero cur)

/-- A data byte in a frame (44_framing_decode R280). With the CRC enabled the newest byte is held back. -/
def s8Data (d : DecInst) (cur : Slot) (b : Byte) : DecInst × FrameEvent :=
  let x := if d.s8.esc then b ^^^ 0x80#8 else b
  let d1 := { d with s8 := { d.s8 with esc := false } }
  if d.base.straps.s8CrcEn then
    if d.s8.holdValid then
      match slotAppend d.base.straps.slotKind cur d.s8.hold with
      | none => framingError d1 .oversize
      | some cur' =>
        (setCur { d1 with s8 := { d1.s8 with
            crc := crc8Step d.base.straps d.s8.crc d.s8.hold, hold := x, holdValid := true } } cur', .none)
    else ({ d1 with s8 := { d1.s8 with hold := x, holdValid := true } }, .none)
  else
    match slotAppend d.base.straps.slotKind cur x with
    | none => framingError d1 .oversize
    | some cur' => (setCur d1 cur', .none)

/-- `ETX` in a frame, not after `NTX` (44_framing_decode R282). -/
def s8End (d : DecInst) (cur : Slot) : DecInst × FrameEvent :=
  if d.base.straps.s8CrcEn then
    if d.s8.holdValid = false ∨ cur.size = 0 then framingError d .emptyFrame
    else if d.s8.hold ≠ d.s8.crc then framingError d .badCrc
    else commit d
  else if cur.size = 0 then framingError d .emptyFrame
  else commit d

/-- `feed_S8(b)`: the rows of 44_framing_decode R271, in order. -/
def feedS8 (d : DecInst) (cur : Slot) (b : Byte) : DecInst × FrameEvent :=
  if b = d.base.straps.s8Stx then
    if d.s8.inFrame then (s8Start (framingError d .stxInFrame).1 cur, .discarded .stxInFrame)
    else (s8Start d cur, .none)
  else if d.s8.inFrame = false then (d, .none)
  else if b = d.base.straps.s8Etx then
    if d.s8.esc then framingError d .etxAfterNtx else s8End d cur
  else if b = d.base.straps.s8Ntx then
    if d.s8.esc then framingError d .ntxAfterNtx
    else ({ d with s8 := { d.s8 with esc := true } }, .none)
  else s8Data d cur b

/-! ### Simple16 (44_framing_decode section 3) -/

/-- State `SYNC0` (44_framing_decode R288). -/
def s16Sync0 (d : DecInst) (b : Byte) : DecInst × FrameEvent :=
  if b = d.base.straps.s16Sync0 then ({ d with s16 := { d.s16 with st := .sync1 } }, .none)
  else ({ d with s16 := { d.s16 with ignored := satAdd d.s16.ignored 1 } }, .none)

/-- State `SYNC1` (44_framing_decode R289): `E_BAD_SYNC` is counted without seeking sync again. -/
def s16Sync1 (d : DecInst) (b : Byte) : DecInst × FrameEvent :=
  if b = d.base.straps.s16Sync1 then
    if d.s16.ignored ≠ 0#32 then
      ({ countError d .badSync d.s16.ignored with s16 := { d.s16 with st := .lenLo, ignored := 0#32 } },
        .discarded .badSync)
    else ({ d with s16 := { d.s16 with st := .lenLo } }, .none)
  else if b = d.base.straps.s16Sync0 then
    ({ d with s16 := { d.s16 with ignored := satAdd d.s16.ignored 1 } }, .none)
  else ({ d with s16 := { d.s16 with st := .sync0, ignored := satAdd d.s16.ignored 2 } }, .none)

/-- State `LEN_LO` (44_framing_decode R290). -/
def s16LenLo (d : DecInst) (b : Byte) : DecInst × FrameEvent :=
  ({ d with s16 := { d.s16 with len := b.setWidth 16, st := .lenHi } }, .none)

/-- The CRC bytes a Simple16 frame carries after its payload (44_framing_decode R291). -/
def s16CrcBytes (st : Straps) : Nat := if st.s16CrcEn then 2 else 0

/-- State `LEN_HI` (44_framing_decode R291): the length is checked, and the frame starts. -/
def s16LenHi (d : DecInst) (cur : Slot) (b : Byte) : DecInst × FrameEvent :=
  let len := d.s16.len ||| (b.setWidth 16 <<< 8)
  let d1 := { d with s16 := { d.s16 with len := len } }
  if len = 0#16 then framingError d1 .emptyFrame
  else if d.base.straps.maxPayload < len.toNat then framingError d1 .oversize
  else
    (setCur { d1 with s16 := { d1.s16 with
        remaining := len.toNat + s16CrcBytes d.base.straps
        crc := crc16 d.base.straps (s16CrcStart d.base.straps) (le16 len)
        crcRx := 0#16
        st := .payload } } (slotZero cur), .none)

/-- End of a Simple16 frame (44_framing_decode R293). -/
def s16End (d : DecInst) : DecInst × FrameEvent :=
  if d.base.straps.s16CrcEn ∧ d.s16.crcRx ≠ d.s16.crc then framingError d .badCrc else commit d

/-- State `PAYLOAD`, what the byte is taken as: a CRC byte or a payload byte (44_framing_decode R292). The append cannot
fail in a run (log 18). -/
def s16Take (d : DecInst) (cur : Slot) (b : Byte) : DecInst :=
  if d.base.straps.s16CrcEn ∧ d.s16.remaining ≤ 2 then
    if d.s16.remaining = 2 then { d with s16 := { d.s16 with crcRx := b.setWidth 16 } }
    else { d with s16 := { d.s16 with crcRx := d.s16.crcRx ||| (b.setWidth 16 <<< 8) } }
  else
    setCur { d with s16 := { d.s16 with crc := crc16Step d.base.straps d.s16.crc b } }
      ((slotAppend d.base.straps.slotKind cur b).getD cur)

/-- State `PAYLOAD` (44_framing_decode R292). -/
def s16Payload (d : DecInst) (cur : Slot) (b : Byte) : DecInst × FrameEvent :=
  let d1 := s16Take d cur b
  let d2 := { d1 with s16 := { d1.s16 with remaining := d.s16.remaining - 1 } }
  if d.s16.remaining - 1 = 0 then s16End d2 else (d2, .none)

/-- `feed_S16(b)` (44_framing_decode R287). -/
def feedS16 (d : DecInst) (cur : Slot) (b : Byte) : DecInst × FrameEvent :=
  match d.s16.st with
  | .sync0 => s16Sync0 d b
  | .sync1 => s16Sync1 d b
  | .lenLo => s16LenLo d b
  | .lenHi => s16LenHi d cur b
  | .payload => s16Payload d cur b

/-! ### Packet (44_framing_decode section 4) -/

/-- State `MAGIC1` (44_framing_decode R301); noise is silent. -/
def pktMagic1 (d : DecInst) (b : Byte) : DecInst × FrameEvent :=
  if b = d.base.straps.pktMagic1 then ({ d with pkt := { d.pkt with st := .crc } }, .none)
  else if b = d.base.straps.pktMagic0 then (d, .none)
  else ({ d with pkt := { d.pkt with st := .magic0 } }, .none)

/-- State `LEN0` (44_framing_decode R306): the length is checked, and the frame starts. -/
def pktLen0 (d : DecInst) (cur : Slot) (b : Byte) : DecInst × FrameEvent :=
  let len := d.pkt.len ||| b.setWidth 24
  let d1 := { d with pkt := { d.pkt with len := len } }
  if len = 0#24 then framingError d1 .emptyFrame
  else if d.base.straps.maxPayload < len.toNat then framingError d1 .oversize
  else
    (setCur { d1 with pkt := { d1.pkt with
        remaining := len, crc := Config.pktCrcSeed, cnt := 0, st := .payload } } (slotZero cur), .none)

/-- State `PAYLOAD` (44_framing_decode R307, R308): the CRC is checked on the byte that closes its window. The append
cannot fail in a run (log 18). -/
def pktPayload (d : DecInst) (cur : Slot) (b : Byte) : DecInst × FrameEvent :=
  let d1 := setCur { d with pkt := { d.pkt with remaining := d.pkt.remaining - 1#24 } }
    ((slotAppend d.base.straps.slotKind cur b).getD cur)
  let window := min Config.pktCrcWindow d.pkt.len.toNat
  if d.pkt.cnt < window then
    let crc := crc8Step d.base.straps d.pkt.crc b
    let d2 := { d1 with pkt := { d1.pkt with crc := crc, cnt := d.pkt.cnt + 1 } }
    if d.pkt.cnt + 1 = window ∧ crc ≠ d.pkt.crcRx then framingError d2 .badCrc
    else if d.pkt.remaining - 1#24 = 0#24 then commit d2
    else (d2, .none)
  else if d.pkt.remaining - 1#24 = 0#24 then commit d1
  else (d1, .none)

/-- `feed_PKT(b)` (44_framing_decode R299); states `MAGIC0`, `CRC`, `LEN2`, `LEN1` are R300, R302, R303, R304. -/
def feedPkt (d : DecInst) (cur : Slot) (b : Byte) : DecInst × FrameEvent :=
  match d.pkt.st with
  | .magic0 =>
    if b = d.base.straps.pktMagic0 then ({ d with pkt := { d.pkt with st := .magic1 } }, .none) else (d, .none)
  | .magic1 => pktMagic1 d b
  | .crc => ({ d with pkt := { d.pkt with crcRx := b, st := .len2 } }, .none)
  | .len2 => ({ d with pkt := { d.pkt with len := b.setWidth 24 <<< 16, st := .len1 } }, .none)
  | .len1 => ({ d with pkt := { d.pkt with len := d.pkt.len ||| (b.setWidth 24 <<< 8), st := .len0 } }, .none)
  | .len0 => pktLen0 d cur b
  | .payload => pktPayload d cur b

/-! ### SeqPacket (44_framing_decode section 5) -/

/-- `decode_SEQ(buf)` (44_framing_decode R314): one datagram, checked whole. -/
def decodeSeq (d : DecInst) (cur : Slot) (buf : List Byte) : DecInst × FrameEvent :=
  match buf with
  | h2 :: h1 :: h0 :: body =>
    if (unBe24 h2 h1 h0).toNat ≠ body.length then framingError d .lenMismatch
    else if (unBe24 h2 h1 h0).toNat = 0 then framingError d .emptyFrame
    else if d.base.straps.maxPayload < (unBe24 h2 h1 h0).toNat then framingError d .oversize
    else commit (setCur d (slotFill d.base.straps.slotKind cur body))
  | _ => framingError d .shortHeader

/-- The hook `PROTO` selects for one byte of a stream protocol (42_decoder_base R194); SeqPacket feeds no bytes. -/
def feedByte (d : DecInst) (cur : Slot) (b : Byte) : DecInst × FrameEvent :=
  match d.base.straps.proto with
  | .simple8 => feedS8 d cur b
  | .simple16 => feedS16 d cur b
  | .packet => feedPkt d cur b
  | .seqpacket => (d, .none)

end Sys2Proof.Machine
end

