-- ==== Sys2Proof/Machine/Decoder.lean ====
section
/-! DEFINITION. The commands of a decoder instance (42_decoder_base). -/
namespace Sys2Proof.Machine

/-- The fields of a `DEC_PUSH` response: `consumed` and the cause code, `0` for none (42_decoder_base R192). -/
def pushFields (consumed : Nat) (cause : Byte) : List Byte := fieldU32 consumed ++ fieldU8 cause

/-- What the event of a byte makes of a `DEC_PUSH` that has absorbed `consumed` bytes (42_decoder_base R192, R213): the
response that ends it, or nothing. -/
def eventEnds (errFatal : Bool) (consumed : Nat) : FrameEvent → Option Response
  | .ringFull => some { status := .ringFull, fields := pushFields consumed (causeCode .ringFull) }
  | .discarded c =>
    if errFatal then some { status := .framingFatal, fields := pushFields consumed (causeCode c) } else none
  | .committed => none
  | .none => none

/-- One atomic step of `DEC_PUSH` (42_decoder_base R192): a datagram, one byte of a stream, or the response. -/
def pushAtom (op : PushOp) (d : DecInst) : Except Fault (DecInst × Progress PushOp) :=
  if d.base.straps.proto = .seqpacket then
    match slotAt d.slots d.base.ring.writePos with
    | .error f => .error f
    | .ok cur =>
      let (d', ev) := decodeSeq d cur op.rest
      .ok (d', .done ((eventEnds d.base.straps.errFatal (op.consumed + op.rest.length) ev).getD
        (okay (pushFields (op.consumed + op.rest.length) 0#8))))
  else
    match op.rest with
    | [] => .ok (d, .done (okay (pushFields op.consumed 0#8)))
    | b :: bs =>
      match slotAt d.slots d.base.ring.writePos with
      | .error f => .error f
      | .ok cur =>
        let (d', ev) := feedByte d cur b
        match eventEnds d.base.straps.errFatal (op.consumed + 1) ev with
        | some r => .ok (d', .done r)
        | none => .ok (d', .more { rest := bs, consumed := op.consumed + 1 })

/-- One atomic step of `DEC_CLEAR` with its snapshot (42_decoder_base R207): one slot released, or the response. -/
def decClearAtom (snapshot : Nat) (d : DecInst) : Except Fault (DecInst × Progress Nat) :=
  if d.base.ring.readPos = snapshot then .ok (d, .done (okay []))
  else .ok ({ d with base := released d.base }, .more snapshot)

/-- A `DEC_PUSH` stops at the end of its turn, or ends with its response. -/
def finishPush (s : State) : Except Fault (DecInst × Progress PushOp) → Host.Outcome State Fault Refusal
  | .error f => .fault f
  | .ok (d, .more op) => .next { s with dec := { d with pushing := some op } }
  | .ok (d, .done r) => .next (State.answer { s with dec := { d with pushing := none } } r)

/-- A `DEC_CLEAR` stops at the end of its turn, or ends with its response. -/
def finishDecClear (s : State) : Except Fault (DecInst × Progress Nat) → Host.Outcome State Fault Refusal
  | .error f => .fault f
  | .ok (d, .more w) => .next { s with dec := { d with clearing := some w } }
  | .ok (d, .done r) => .next (State.answer { s with dec := { d with clearing := none } } r)

/-- Run a `DEC_PUSH` for the turn: to its end takes one atomic step a byte and one for the response. -/
def runPush (s : State) (op : PushOp) : Host.Outcome State Fault Refusal :=
  finishPush s (drive pushAtom (turnSteps s (op.rest.length + 1)) op s.dec)

/-- Run a `DEC_CLEAR` for the turn: to its end takes at most `N` atomic steps. -/
def runDecClear (s : State) (snapshot : Nat) : Host.Outcome State Fault Refusal :=
  finishDecClear s (drive decClearAtom (turnSteps s (s.dec.base.straps.n + 1)) snapshot s.dec)

/-- The content of the front slot of a decoder (42_decoder_base R204, R205). -/
def decFront (d : DecInst) : Except Fault (List Byte) :=
  match slotAt d.slots d.base.ring.readPos with
  | .error f => .error f
  | .ok sl => .ok (content sl)

/-- `DEC_POP` on a decoder (42_decoder_base R204). -/
def decPop (d : DecInst) : Except Fault (DecInst × Response) :=
  if isEmpty d.base then .ok (d, bare .none)
  else
    match decFront d with
    | .error f => .error f
    | .ok bs => .ok ({ d with base := released d.base }, okay (fieldBytes bs))

/-- `DEC_PEEK` on a decoder (42_decoder_base R205). -/
def decPeek (d : DecInst) : Except Fault (DecInst × Response) :=
  if isEmpty d.base then .ok (d, bare .none)
  else
    match decFront d with
    | .error f => .error f
    | .ok bs => .ok (d, okay (fieldBytes bs))

/-- `DEC_PUSH buf` (42_decoder_base R192), port `P`. -/
def execDecPush (buf : List Byte) (s : State) : Host.Outcome State Fault Refusal :=
  accept .dec [.p] s (runPush s { rest := buf, consumed := 0 })

/-- `DEC_POP` (42_decoder_base R204), port `C`. -/
def execDecPop (s : State) : Host.Outcome State Fault Refusal :=
  accept .dec [.c] s (finishDec s (decPop s.dec))

/-- `DEC_PEEK` (42_decoder_base R205), port `C`. -/
def execDecPeek (s : State) : Host.Outcome State Fault Refusal :=
  accept .dec [.c] s (finishDec s (decPeek s.dec))

/-- `DEC_EMPTY` (42_decoder_base R206), either port. -/
def execDecEmpty (s : State) : Host.Outcome State Fault Refusal :=
  accept .dec [.p, .c] s (.next (s.answer (okay (fieldBool (isEmpty s.dec.base)))))

/-- `DEC_CLEAR` (42_decoder_base R207), port `C`: a run of releases against one snapshot of `write_pos`. -/
def execDecClear (s : State) : Host.Outcome State Fault Refusal :=
  accept .dec [.c] s (runDecClear s s.dec.base.ring.writePos)

/-- `DEC_ERRCNT` (42_decoder_base R208), either port. -/
def execDecErrcnt (s : State) : Host.Outcome State Fault Refusal :=
  accept .dec [.p, .c] s (.next (s.answer (okay (fieldU32 s.dec.errCount.toNat))))

/-- `DEC_ERRCNT_RST` (42_decoder_base R209), either port: read and clear in one atomic step. -/
def execDecErrcntRst (s : State) : Host.Outcome State Fault Refusal :=
  accept .dec [.p, .c] s
    (finishDec s (.ok ({ s.dec with errCount := 0#32 }, okay (fieldU32 s.dec.errCount.toNat))))

end Sys2Proof.Machine
end

