-- ==== Sys2Proof/Machine/Framers.lean ====
section
/-! DEFINITION. The four framers (45_framing_encode): pure functions of the message and the straps (R340). -/
namespace Sys2Proof.Machine

/-- A byte equals one of the three Simple8 control bytes, on all 8 bits (30_encoding R96). -/
def isControl (st : Straps) (b : Byte) : Bool := b == st.s8Stx || b == st.s8Etx || b == st.s8Ntx

/-- `esc(b)` (30_encoding R95). -/
def escByte (st : Straps) (b : Byte) : List Byte :=
  if isControl st b then [st.s8Ntx, b ^^^ 0x80#8] else [b]

/-- `frame_S8(p)` (45_framing_encode R342). -/
def frameS8 (st : Straps) (p : List Byte) : List Byte :=
  [st.s8Stx] ++ p.flatMap (escByte st) ++
    (if st.s8CrcEn then escByte st (crc8 st st.s8Stx p) else []) ++ [st.s8Etx]

/-- `frame_S16(p)` (45_framing_encode R345). -/
def frameS16 (st : Straps) (p : List Byte) : List Byte :=
  [st.s16Sync0, st.s16Sync1] ++ le16 (BitVec.ofNat 16 p.length) ++ p ++
    (if st.s16CrcEn then le16 (crc16 st (s16CrcStart st) (le16 (BitVec.ofNat 16 p.length) ++ p)) else [])

/-- `frame_PKT(p)` (45_framing_encode R348): the CRC covers the first `min(16, L)` payload bytes. -/
def framePkt (st : Straps) (p : List Byte) : List Byte :=
  [st.pktMagic0, st.pktMagic1, crc8 st Config.pktCrcSeed (p.take Config.pktCrcWindow)] ++
    be24 (BitVec.ofNat 24 p.length) ++ p

/-- `frame_SEQ(p)` (45_framing_encode R350). -/
def frameSeq (p : List Byte) : List Byte := be24 (BitVec.ofNat 24 p.length) ++ p

/-- The framer `PROTO` selects (43_encoder_base R236). -/
def frame (st : Straps) (p : List Byte) : List Byte :=
  match st.proto with
  | .simple8 => frameS8 st p
  | .simple16 => frameS16 st p
  | .packet => framePkt st p
  | .seqpacket => frameSeq p

end Sys2Proof.Machine
end

