-- ==== Sys2Proof/Machine/Encoder.lean ====
section
/-! DEFINITION. The commands of an encoder instance (43_encoder_base). -/
namespace Sys2Proof.Machine

/-- The instance uses the datagram pull variant: SeqPacket, and it alone (43_encoder_base R232). -/
def isDatagram (st : Straps) : Bool := st.proto == .seqpacket

/-- The committed slots of an encoder, oldest first, each with its index (10_state R24). -/
def encQueue (e : EncInst) : Except Fault (List (Nat × Slot)) :=
  slotsAt e.slots (queuedIdx e.base e.base.ring.writePos)

/-- `pending(w)`: the bytes queued and not yet acknowledged (43_encoder_base R233). -/
def pendingBytes (queue : List (Nat × Slot)) (frontOff : Nat) : Nat :=
  (queue.map fun x => x.2.size).sum - frontOff

/-- The copy loop of the stream `ENC_FILL` (43_encoder_base R240): `off` applies to the front slot. -/
def fillLoop : List (Nat × Slot) → Nat → Nat → List Byte
  | [], _, _ => []
  | (_, sl) :: rest, off, room =>
    if room = 0 then []
    else
      readRun sl off (min (sl.size - off) room) ++ fillLoop rest 0 (room - min (sl.size - off) room)

/-- The descriptor loop of `ENC_GATHER` (43_encoder_base R250): at most `k` descriptors (slot, offset, length). -/
def gatherLoop : List (Nat × Slot) → Nat → Nat → List (Nat × Nat × Nat)
  | [], _, _ => []
  | _, _, 0 => []
  | (s, sl) :: rest, off, k + 1 => (s, off, sl.size - off) :: gatherLoop rest 0 k

/-- The `count` field of `ENC_GATHER`, a `u8`; the spec states none above 255: a free value, DESIGN CHOICE, log 10. -/
def gatherCountByte (n : Nat) : Byte := if n < 256 then BitVec.ofNat 8 n else Config.gatherCount n

/-- The fields of an `ENC_GATHER` response (43_encoder_base R250). -/
def gatherFields (ds : List (Nat × Nat × Nat)) : List Byte :=
  fieldU8 (gatherCountByte ds.length) ++ ds.flatMap fun d => fieldDesc d.1 d.2.1 d.2.2

/-- `ENC_PUSH msg` on an encoder (43_encoder_base R236), the checks in its order (60_exceptions R378). -/
def encPush (e : EncInst) (msg : List Byte) : Except Fault (EncInst × Response) :=
  if msg.length = 0 then .ok (e, bare .emptyMessage)
  else if e.base.straps.maxPayload < msg.length then .ok (e, bare .tooLarge)
  else if isFull e.base then .ok (e, bare .ringFull)
  else
    match slotAt e.slots e.base.ring.writePos with
    | .error f => .error f
    | .ok sl =>
      .ok ({ e with
          base := published e.base
          slots := e.slots.set e.base.ring.writePos
            (slotFill e.base.straps.slotKind sl (frame e.base.straps msg)) }, okay [])

/-- `ENC_FILL max_len` on an encoder: stream (43_encoder_base R240) or datagram (R242) variant. -/
def encFill (e : EncInst) (maxLen : Nat) : Except Fault (EncInst × Response) :=
  if isDatagram e.base.straps then
    if isEmpty e.base then .ok (e, okay (fieldBytes []))
    else
      match slotAt e.slots e.base.ring.readPos with
      | .error f => .error f
      | .ok sl =>
        if maxLen < sl.size then .ok (e, bare .bufTooSmall)
        else .ok (e, okay (fieldBytes (content sl)))
  else
    match encQueue e with
    | .error f => .error f
    | .ok queue => .ok (e, okay (fieldBytes (fillLoop queue e.frontOff maxLen)))

/-- `ENC_MOVE len` of the datagram variant on an encoder (43_encoder_base R246). -/
def encMoveDatagram (e : EncInst) (len : Nat) : Except Fault (EncInst × Response) :=
  if isEmpty e.base then .ok (e, bare .badLen)
  else
    match slotAt e.slots e.base.ring.readPos with
    | .error f => .error f
    | .ok sl =>
      if len ≠ sl.size then .ok (e, bare .badLen)
      else .ok ({ e with base := released e.base }, okay [])

/-- One atomic step of an operation on port `C` of an encoder: a slot released, the offset moved, or the response
(43_encoder_base R244, R248; 20_memory R75). -/
def pullAtom (op : PullOp) (e : EncInst) : Except Fault (EncInst × Progress PullOp) :=
  match op with
  | .clear snapshot =>
    if e.base.ring.readPos = snapshot then .ok (e, .done (okay []))
    else .ok ({ e with base := released e.base }, .more (.clear snapshot))
  | .move rem =>
    if rem = 0 then .ok (e, .done (okay []))
    else
      match slotAt e.slots e.base.ring.readPos with
      | .error f => .error f
      | .ok sl =>
        if rem < sl.size - e.frontOff then
          .ok ({ e with frontOff := e.frontOff + rem }, .more (.move 0))
        else
          .ok ({ e with base := released e.base, frontOff := 0 }, .more (.move (rem - (sl.size - e.frontOff))))

/-- An operation on port `C` of an encoder stops at the end of its turn, or ends with its response. -/
def finishPull (s : State) : Except Fault (EncInst × Progress PullOp) → Host.Outcome State Fault Refusal
  | .error f => .fault f
  | .ok (e, .more op) => .next { s with enc := { e with pulling := some op } }
  | .ok (e, .done r) => .next (State.answer { s with enc := { e with pulling := none } } r)

/-- Run an operation on port `C` of an encoder for the turn: to its end takes at most one atomic step a slot, one for
the offset and one for the response. -/
def runPull (s : State) (op : PullOp) : Host.Outcome State Fault Refusal :=
  finishPull s (drive pullAtom (turnSteps s (s.enc.base.straps.n + 1)) op s.enc)

/-- `ENC_MOVE len` of the stream variant (43_encoder_base R244): the check against one snapshot, then the loop. -/
def encMoveStream (s : State) (len : Nat) : Host.Outcome State Fault Refusal :=
  match encQueue s.enc with
  | .error f => .fault f
  | .ok queue =>
    if pendingBytes queue s.enc.frontOff < len then .next (s.answer (bare .badLen))
    else runPull s (.move len)

/-- `ENC_GATHER` on an encoder (43_encoder_base R250). -/
def encGather (e : EncInst) : Except Fault (EncInst × Response) :=
  match encQueue e with
  | .error f => .error f
  | .ok queue => .ok (e, okay (gatherFields (gatherLoop queue e.frontOff e.base.straps.gatherK)))

/-- `ENC_PUSH msg` (43_encoder_base R236), port `P`. -/
def execEncPush (msg : List Byte) (s : State) : Host.Outcome State Fault Refusal :=
  accept .enc [.p] s (finishEnc s (encPush s.enc msg))

/-- `ENC_EMPTY` (43_encoder_base R238), either port. -/
def execEncEmpty (s : State) : Host.Outcome State Fault Refusal :=
  accept .enc [.p, .c] s (.next (s.answer (okay (fieldBool (isEmpty s.enc.base)))))

/-- `ENC_FILL max_len` (43_encoder_base R240, R242), port `C`. -/
def execEncFill (maxLen : U32) (s : State) : Host.Outcome State Fault Refusal :=
  accept .enc [.c] s (finishEnc s (encFill s.enc maxLen.toNat))

/-- `ENC_MOVE len` (43_encoder_base R244, R246), port `C`. -/
def execEncMove (len : U32) (s : State) : Host.Outcome State Fault Refusal :=
  accept .enc [.c] s
    (if isDatagram s.enc.base.straps then finishEnc s (encMoveDatagram s.enc len.toNat)
     else encMoveStream s len.toNat)

/-- `ENC_CLEAR` (43_encoder_base R248), port `C`: `front_off` is cleared, then a run of releases against one snapshot. -/
def execEncClear (s : State) : Host.Outcome State Fault Refusal :=
  accept .enc [.c] s
    (runPull { s with enc := { s.enc with frontOff := 0 } } (.clear s.enc.base.ring.writePos))

/-- `ENC_GATHER` (43_encoder_base R250), port `C`. -/
def execEncGather (s : State) : Host.Outcome State Fault Refusal :=
  accept .enc [.c] s (finishEnc s (encGather s.enc))

end Sys2Proof.Machine
end

