-- ==== Sys2Proof/Machine/GeneralRing.lean ====
section
/-! DEFINITION. The commands of a general ring (41_ring section 2). Each is one atomic step at its linearisation point
(41_ring R174; log 4). -/
namespace Sys2Proof.Machine

/-- `RG_PUSH value` (41_ring R156). A value with a bit above `ELEM_W` is an illegal command (30_encoding R112). -/
def rgPush (i : RgInst) (value : Nat) : Except Fault (RgInst × Response) :=
  if 2 ^ i.base.straps.elemW ≤ value then .ok (i, bare .illegal)
  else if isFull i.base then .ok (i, bare .ringFull)
  else
    match slotAt i.slots i.base.ring.writePos with
    | .error f => .error f
    | .ok _ =>
      .ok ({ base := published i.base, slots := i.slots.set i.base.ring.writePos (some value) }, okay [])

/-- `RG_POP` (41_ring R158): the popped slot is dead afterwards. A dead slot, which no run pops, reads as a free value
(93 U3; log 18). -/
def rgPop (i : RgInst) : Except Fault (RgInst × Response) :=
  if isEmpty i.base then .ok (i, bare .none)
  else
    match slotAt i.slots i.base.ring.readPos with
    | .error f => .error f
    | .ok e =>
      .ok ({ base := released i.base, slots := i.slots.set i.base.ring.readPos none },
        okay (fieldValue i.base.straps.elemW (e.getD (Config.freeElem i.base.ring.readPos))))

/-- `RG_FRONT` (41_ring R159). -/
def rgFront (i : RgInst) : Except Fault (RgInst × Response) :=
  if isEmpty i.base then .ok (i, bare .none)
  else
    match slotAt i.slots i.base.ring.readPos with
    | .error f => .error f
    | .ok e =>
      .ok (i, okay (fieldValue i.base.straps.elemW (e.getD (Config.freeElem i.base.ring.readPos))))

/-- `RG_PUSH value` (41_ring R156), port `P`. -/
def execRgPush (value : Nat) (s : State) : Host.Outcome State Fault Refusal :=
  accept .rg [.p] s (finishRg s (rgPush s.rg value))

/-- `RG_POP` (41_ring R158), port `C`. -/
def execRgPop (s : State) : Host.Outcome State Fault Refusal :=
  accept .rg [.c] s (finishRg s (rgPop s.rg))

/-- `RG_FRONT` (41_ring R159), port `C`. -/
def execRgFront (s : State) : Host.Outcome State Fault Refusal :=
  accept .rg [.c] s (finishRg s (rgFront s.rg))

/-- `RG_EMPTY` (41_ring R160), either port; the other side's cursor loads as its current value (20_memory R74). -/
def execRgEmpty (s : State) : Host.Outcome State Fault Refusal :=
  accept .rg [.p, .c] s (.next (s.answer (okay (fieldBool (isEmpty s.rg.base)))))

/-- `RG_FULL` (41_ring R161), either port. -/
def execRgFull (s : State) : Host.Outcome State Fault Refusal :=
  accept .rg [.p, .c] s (.next (s.answer (okay (fieldBool (isFull s.rg.base)))))

/-- `RG_SIZE` (41_ring R162), either port. -/
def execRgSize (s : State) : Host.Outcome State Fault Refusal :=
  accept .rg [.p, .c] s (.next (s.answer (okay (fieldU32 (queueSize s.rg.base)))))

end Sys2Proof.Machine
end

