-- ==== Sys2Proof/Machine/PoolRing.lean ====
section
/-! DEFINITION. The ring commands of a standalone pool (41_ring section 3): the slots are published and released in
place. -/
namespace Sys2Proof.Machine

/-- `RP_PUSH` on a pool (41_ring R164): the current slot is published as it is. -/
def poolPush (i : PoolInst) : Except Fault (PoolInst × Response) :=
  if isFull i.base then .ok (i, bare .ringFull)
  else .ok ({ i with base := published i.base }, okay [])

/-- `RP_POP` on a pool (41_ring R165): the front slot goes back to the producer; nothing is destructed. -/
def poolPop (i : PoolInst) : Except Fault (PoolInst × Response) :=
  if isEmpty i.base then .ok (i, bare .none)
  else .ok ({ i with base := released i.base }, okay [])

/-- `RP_FRONT` on a pool (41_ring R166): the content of the front slot. -/
def poolFront (i : PoolInst) : Except Fault (PoolInst × Response) :=
  if isEmpty i.base then .ok (i, bare .none)
  else
    match slotAt i.slots i.base.ring.readPos with
    | .error f => .error f
    | .ok sl => .ok (i, okay (fieldBytes (content sl)))

/-- `RP_PUSH` (41_ring R164), port `P`. -/
def execRpPush (s : State) : Host.Outcome State Fault Refusal :=
  accept .pool [.p] s (finishPool s (poolPush s.pool))

/-- `RP_POP` (41_ring R165), port `C`. -/
def execRpPop (s : State) : Host.Outcome State Fault Refusal :=
  accept .pool [.c] s (finishPool s (poolPop s.pool))

/-- `RP_FRONT` (41_ring R166), port `C`. -/
def execRpFront (s : State) : Host.Outcome State Fault Refusal :=
  accept .pool [.c] s (finishPool s (poolFront s.pool))

/-- `RP_EMPTY` (41_ring R167), either port. -/
def execRpEmpty (s : State) : Host.Outcome State Fault Refusal :=
  accept .pool [.p, .c] s (.next (s.answer (okay (fieldBool (isEmpty s.pool.base)))))

/-- `RP_FULL` (41_ring R168), either port. -/
def execRpFull (s : State) : Host.Outcome State Fault Refusal :=
  accept .pool [.p, .c] s (.next (s.answer (okay (fieldBool (isFull s.pool.base)))))

/-- `RP_SIZE` (41_ring R169), either port. -/
def execRpSize (s : State) : Host.Outcome State Fault Refusal :=
  accept .pool [.p, .c] s (.next (s.answer (okay (fieldU32 (queueSize s.pool.base)))))

end Sys2Proof.Machine
end

