-- ==== Sys2Proof/Machine/SlotBuffer.lean ====
section
/-! DEFINITION. The Slot Buffer commands of a standalone pool (40_slot_buffer): they act on the current slot
`slot[write_pos]` and are legal on port `P` only. -/
namespace Sys2Proof.Machine

/-- A pool with its current slot replaced. -/
def setPoolCur (i : PoolInst) (sl : Slot) : PoolInst := { i with slots := i.slots.set i.base.ring.writePos sl }

/-- `SB_SIZE` on a pool (40_slot_buffer R133). -/
def poolSize (i : PoolInst) : Except Fault (PoolInst × Response) :=
  match slotAt i.slots i.base.ring.writePos with
  | .error f => .error f
  | .ok sl => .ok (i, okay (fieldU32 sl.size))

/-- `SB_ZERO` on a pool (40_slot_buffer R134). -/
def poolZero (i : PoolInst) : Except Fault (PoolInst × Response) :=
  match slotAt i.slots i.base.ring.writePos with
  | .error f => .error f
  | .ok sl => .ok (setPoolCur i (slotZero sl), okay [])

/-- `SB_APPEND b` on a pool (40_slot_buffer R135). -/
def poolAppend (i : PoolInst) (b : Byte) : Except Fault (PoolInst × Response) :=
  match slotAt i.slots i.base.ring.writePos with
  | .error f => .error f
  | .ok sl =>
    match slotAppend i.base.straps.slotKind sl b with
    | none => .ok (i, bare .tooLarge)
    | some sl' => .ok (setPoolCur i sl', okay [])

/-- `SB_ALLOC n` on a pool (40_slot_buffer R136), the storage reading as the free value `fill` (R137). -/
def poolAlloc (fill : Nat) (i : PoolInst) (n : Nat) : Except Fault (PoolInst × Response) :=
  match slotAt i.slots i.base.ring.writePos with
  | .error f => .error f
  | .ok sl =>
    match slotAlloc i.base.straps.slotKind fill sl n with
    | none => .ok (i, bare .tooLarge)
    | some sl' => .ok (setPoolCur i sl', okay [])

/-- An allocation that was made uses up the counter of free values, so that each allocation exposes bytes of its own
(40_slot_buffer R137; log 7). -/
def countAlloc (s : State) : Except Fault (PoolInst × Response) → State
  | .ok (_, { status := .ok, fields := _ }) => { s with freeIdx := s.freeIdx + 1 }
  | _ => s

/-- `SB_SIZE` (40_slot_buffer R133): the number of valid bytes of the current slot. -/
def execSbSize (s : State) : Host.Outcome State Fault Refusal :=
  accept .pool [.p] s (finishPool s (poolSize s.pool))

/-- `SB_ZERO` (40_slot_buffer R134). -/
def execSbZero (s : State) : Host.Outcome State Fault Refusal :=
  accept .pool [.p] s (finishPool s (poolZero s.pool))

/-- `SB_APPEND b` (40_slot_buffer R135): `ST_TOO_LARGE` when the slot holds `max` bytes. -/
def execSbAppend (b : Byte) (s : State) : Host.Outcome State Fault Refusal :=
  accept .pool [.p] s (finishPool s (poolAppend s.pool b))

/-- `SB_ALLOC n` (40_slot_buffer R136): `ST_TOO_LARGE` when `n > max`; the bytes exposed are free values (R137). -/
def execSbAlloc (n : U32) (s : State) : Host.Outcome State Fault Refusal :=
  accept .pool [.p] s
    (finishPool (countAlloc s (poolAlloc s.freeIdx s.pool n.toNat)) (poolAlloc s.freeIdx s.pool n.toNat))

end Sys2Proof.Machine
end

