-- ==== Sys2Proof/Syntax.lean ====
section
/-! DEFINITION. The commands of the two ports: one constructor per row of opcode_table.json (30_encoding R109). -/
namespace Sys2Proof

/-- A command with its operands (30_encoding R108, R109). The port it comes in on and the instance it is sent to are
not part of its bytes. -/
inductive Instr where
  -- Slot Buffer (40_slot_buffer)
  | sbSize
  | sbZero
  | sbAppend (b : Byte)
  | sbAlloc (n : U32)
  -- general ring (41_ring)
  | rgPush (value : Nat)
  | rgPop
  | rgFront
  | rgEmpty
  | rgFull
  | rgSize
  -- pool ring (41_ring)
  | rpPush
  | rpPop
  | rpFront
  | rpEmpty
  | rpFull
  | rpSize
  -- decoder (42_decoder_base)
  | decPush (buf : List Byte)
  | decPop
  | decPeek
  | decEmpty
  | decClear
  | decErrcnt
  | decErrcntRst
  -- encoder (43_encoder_base)
  | encPush (msg : List Byte)
  | encEmpty
  | encFill (maxLen : U32)
  | encMove (len : U32)
  | encClear
  | encGather
deriving DecidableEq, Repr

end Sys2Proof
end

