-- ==== Sys2Proof/Machine/Dispatch.lean ====
section
/-! DEFINITION. The dispatch: one arm per command of the opcode map (30_encoding R109). -/
namespace Sys2Proof.Machine

def exec (i : Instr) (s : State) : Host.Outcome State Fault Refusal :=
  match i with
  | .sbSize => Sys2Proof.Machine.execSbSize s
  | .sbZero => Sys2Proof.Machine.execSbZero s
  | .sbAppend b => Sys2Proof.Machine.execSbAppend b s
  | .sbAlloc n => Sys2Proof.Machine.execSbAlloc n s
  | .rgPush value => Sys2Proof.Machine.execRgPush value s
  | .rgPop => Sys2Proof.Machine.execRgPop s
  | .rgFront => Sys2Proof.Machine.execRgFront s
  | .rgEmpty => Sys2Proof.Machine.execRgEmpty s
  | .rgFull => Sys2Proof.Machine.execRgFull s
  | .rgSize => Sys2Proof.Machine.execRgSize s
  | .rpPush => Sys2Proof.Machine.execRpPush s
  | .rpPop => Sys2Proof.Machine.execRpPop s
  | .rpFront => Sys2Proof.Machine.execRpFront s
  | .rpEmpty => Sys2Proof.Machine.execRpEmpty s
  | .rpFull => Sys2Proof.Machine.execRpFull s
  | .rpSize => Sys2Proof.Machine.execRpSize s
  | .decPush buf => Sys2Proof.Machine.execDecPush buf s
  | .decPop => Sys2Proof.Machine.execDecPop s
  | .decPeek => Sys2Proof.Machine.execDecPeek s
  | .decEmpty => Sys2Proof.Machine.execDecEmpty s
  | .decClear => Sys2Proof.Machine.execDecClear s
  | .decErrcnt => Sys2Proof.Machine.execDecErrcnt s
  | .decErrcntRst => Sys2Proof.Machine.execDecErrcntRst s
  | .encPush msg => Sys2Proof.Machine.execEncPush msg s
  | .encEmpty => Sys2Proof.Machine.execEncEmpty s
  | .encFill maxLen => Sys2Proof.Machine.execEncFill maxLen s
  | .encMove len => Sys2Proof.Machine.execEncMove len s
  | .encClear => Sys2Proof.Machine.execEncClear s
  | .encGather => Sys2Proof.Machine.execEncGather s

end Sys2Proof.Machine
end

