-- ==== Sys2Proof/WellFormed.lean ====
section
/-! DEFINITION. Which commands the encoding can spell: the bounds of their operands. -/
namespace Sys2Proof

/-- The operands fit their encoded fields, on an instance whose `ELEM_W` is `elemW`: a `V` value has no bit above
`ELEM_W`, and the length of a format-`B` byte sequence fits its 32-bit count (30_encoding R108, R110). -/
def Instr.wf (elemW : Nat) : Instr → Bool
  | .rgPush value => decide (value < 2 ^ elemW)
  | .decPush buf => decide (buf.length < 2 ^ 32)
  | .encPush msg => decide (msg.length < 2 ^ 32)
  | .sbSize | .sbZero | .sbAppend _ | .sbAlloc _ => true
  | .rgPop | .rgFront | .rgEmpty | .rgFull | .rgSize => true
  | .rpPush | .rpPop | .rpFront | .rpEmpty | .rpFull | .rpSize => true
  | .decPop | .decPeek | .decEmpty | .decClear | .decErrcnt | .decErrcntRst => true
  | .encEmpty | .encFill _ | .encMove _ | .encClear | .encGather => true

end Sys2Proof
end

