-- ==== Sys2Proof/Decode.lean ====
section
/-! DEFINITION. The command decoder, total on any bytes and rejecting by name, and the encoder (30_encoding Part B). -/
namespace Sys2Proof

/-- Why the bytes of a port are no command. -/
inductive DecodeError where
  /-- The command's bytes have not all arrived: the port waits for the rest (93 X8). -/
  | incomplete
  /-- The first byte is a reserved opcode; the port consumes that byte only (30_encoding R112). -/
  | reserved (opcode : Byte) (rest : List Byte)
  /-- A `V` value with a bit above `ELEM_W` (30_encoding R112); the bytes after the command are given. -/
  | overwide (rest : List Byte)
deriving DecidableEq, Repr

/-- Format `Y`: one data byte (30_encoding R108). -/
def operandY (mk : Byte → Instr) : List Byte → Except DecodeError (Instr × List Byte)
  | b :: rest => .ok (mk b, rest)
  | [] => .error .incomplete

/-- Format `A`: a 32-bit argument, least significant byte first (30_encoding R108). -/
def operandA (mk : U32 → Instr) : List Byte → Except DecodeError (Instr × List Byte)
  | a :: b :: c :: d :: rest => .ok (mk (BitVec.ofNat 32 (leNat [a, b, c, d])), rest)
  | _ => .error .incomplete

/-- Format `B`: a 32-bit count, least significant byte first, and that many data bytes (30_encoding R108). -/
def operandB (mk : List Byte → Instr) : List Byte → Except DecodeError (Instr × List Byte)
  | a :: b :: c :: d :: rest =>
    if leNat [a, b, c, d] ≤ rest.length then
      .ok (mk (rest.take (leNat [a, b, c, d])), rest.drop (leNat [a, b, c, d]))
    else .error .incomplete
  | _ => .error .incomplete

/-- Format `V`: `ceil(ELEM_W / 8)` bytes, least significant first; the bits above `ELEM_W` must be zero
(30_encoding R108, R112). -/
def operandV (elemW : Nat) (mk : Nat → Instr) (bs : List Byte) : Except DecodeError (Instr × List Byte) :=
  if bs.length < valueBytes elemW then .error .incomplete
  else if leNat (bs.take (valueBytes elemW)) < 2 ^ elemW then
    .ok (mk (leNat (bs.take (valueBytes elemW))), bs.drop (valueBytes elemW))
  else .error (.overwide (bs.drop (valueBytes elemW)))

/-- The command at the head of a port's bytes, on an instance whose `ELEM_W` is `elemW`, and the bytes after it: the
opcode map of 30_encoding R109, matched on all 8 bits of the first byte. -/
def decode (elemW : Nat) : List Byte → Except DecodeError (Instr × List Byte)
  | [] => .error .incomplete
  | op :: rest =>
    match op.toNat with
    | 0x10 => .ok (.sbSize, rest)
    | 0x11 => .ok (.sbZero, rest)
    | 0x12 => operandY .sbAppend rest
    | 0x13 => operandA .sbAlloc rest
    | 0x20 => operandV elemW .rgPush rest
    | 0x21 => .ok (.rgPop, rest)
    | 0x22 => .ok (.rgFront, rest)
    | 0x23 => .ok (.rgEmpty, rest)
    | 0x24 => .ok (.rgFull, rest)
    | 0x25 => .ok (.rgSize, rest)
    | 0x28 => .ok (.rpPush, rest)
    | 0x29 => .ok (.rpPop, rest)
    | 0x2A => .ok (.rpFront, rest)
    | 0x2B => .ok (.rpEmpty, rest)
    | 0x2C => .ok (.rpFull, rest)
    | 0x2D => .ok (.rpSize, rest)
    | 0x30 => operandB .decPush rest
    | 0x31 => .ok (.decPop, rest)
    | 0x32 => .ok (.decPeek, rest)
    | 0x33 => .ok (.decEmpty, rest)
    | 0x34 => .ok (.decClear, rest)
    | 0x35 => .ok (.decErrcnt, rest)
    | 0x36 => .ok (.decErrcntRst, rest)
    | 0x40 => operandB .encPush rest
    | 0x41 => .ok (.encEmpty, rest)
    | 0x42 => operandA .encFill rest
    | 0x43 => operandA .encMove rest
    | 0x44 => .ok (.encClear, rest)
    | 0x45 => .ok (.encGather, rest)
    | _ => .error (.reserved op rest)

/-- The opcode byte of a command (30_encoding R109). -/
def Instr.opcode : Instr → Byte
  | .sbSize => 0x10#8
  | .sbZero => 0x11#8
  | .sbAppend _ => 0x12#8
  | .sbAlloc _ => 0x13#8
  | .rgPush _ => 0x20#8
  | .rgPop => 0x21#8
  | .rgFront => 0x22#8
  | .rgEmpty => 0x23#8
  | .rgFull => 0x24#8
  | .rgSize => 0x25#8
  | .rpPush => 0x28#8
  | .rpPop => 0x29#8
  | .rpFront => 0x2A#8
  | .rpEmpty => 0x2B#8
  | .rpFull => 0x2C#8
  | .rpSize => 0x2D#8
  | .decPush _ => 0x30#8
  | .decPop => 0x31#8
  | .decPeek => 0x32#8
  | .decEmpty => 0x33#8
  | .decClear => 0x34#8
  | .decErrcnt => 0x35#8
  | .decErrcntRst => 0x36#8
  | .encPush _ => 0x40#8
  | .encEmpty => 0x41#8
  | .encFill _ => 0x42#8
  | .encMove _ => 0x43#8
  | .encClear => 0x44#8
  | .encGather => 0x45#8

/-- The operand bytes of a command (30_encoding R108). -/
def Instr.operandBytes (elemW : Nat) : Instr → List Byte
  | .sbAppend b => [b]
  | .sbAlloc n => leBytes 4 n.toNat
  | .rgPush value => leBytes (valueBytes elemW) value
  | .decPush buf => leBytes 4 buf.length ++ buf
  | .encPush msg => leBytes 4 msg.length ++ msg
  | .encFill maxLen => leBytes 4 maxLen.toNat
  | .encMove len => leBytes 4 len.toNat
  | .sbSize | .sbZero => []
  | .rgPop | .rgFront | .rgEmpty | .rgFull | .rgSize => []
  | .rpPush | .rpPop | .rpFront | .rpEmpty | .rpFull | .rpSize => []
  | .decPop | .decPeek | .decEmpty | .decClear | .decErrcnt | .decErrcntRst => []
  | .encEmpty | .encClear | .encGather => []

/-- The byte spelling of a command (30_encoding R108). -/
def encode (elemW : Nat) (i : Instr) : List Byte := i.opcode :: i.operandBytes elemW

/-- The bytes of a command given as `nbits` bits of `w`, first byte in the low bits, filled with zero bytes to the
length its opcode and count give it on an instance whose `ELEM_W` is `elemW` (30_encoding R108). -/
def commandBytes (elemW nbits w : Nat) : List Byte :=
  leBytes (nbits / 8) w ++ List.replicate (5 + valueBytes elemW + leNat (((leBytes (nbits / 8) w).drop 1).take 4)) 0#8

/-- The bytes of `commandBytes` up to the end of the command they spell; all of them where they spell none. -/
def oneCommand (elemW : Nat) (bs : List Byte) : List Byte :=
  match decode elemW bs with
  | .ok (_, rest) => bs.take (bs.length - rest.length)
  | .error (.reserved _ rest) => bs.take (bs.length - rest.length)
  | .error (.overwide rest) => bs.take (bs.length - rest.length)
  | .error .incomplete => bs

/-- The command the decoder reads from the `nbits` bits of `w`, the bytes above them being zero, on an instance with
the straps of `Config.straps`; `none` where it refuses. -/
def decodeTableWord (nbits w : Nat) : Option Instr :=
  match decode Config.straps.elemW (commandBytes Config.straps.elemW nbits w) with
  | .ok (i, _) => some i
  | .error _ => none

end Sys2Proof
end

