-- ==== Sys2Proof/Machine/Inputs.lean ====
section
/-! DEFINITION. What the drivers and the environment do to the machine (log 2): bytes presented on a port, a turn for a
port, a reset; and the fetch of the served port's next command. -/
namespace Sys2Proof.Machine

/-- A driver presents bytes on a port: they join what the port has received and not taken yet. -/
def deliver (s : State) (k : Kind) (q : PortId) (bs : List Byte) : State :=
  s.setPort k q { s.port k q with rx := (s.port k q).rx ++ bs }

/-- Reset of one instance (70_reset R410, R411): it samples its straps and every element takes its reset value; what it
sent before stays sent, what its ports held is lost (log 13). The other instances are untouched (00_scope R12). The
counter of free values advances (log 7). -/
def resetInstance (s : State) (k : Kind) (st : Straps) : State :=
  match k with
  | .rg => { s with rg := freshRg st s.rg.base.p.tx s.rg.base.c.tx s.rg.base.ring.pulses }
  | .pool =>
    { s with
      pool := freshPool st s.freeIdx s.pool.base.p.tx s.pool.base.c.tx s.pool.base.ring.pulses
      freeIdx := s.freeIdx + 1 }
  | .dec =>
    { s with
      dec := freshDec st s.freeIdx s.dec.base.p.tx s.dec.base.c.tx s.dec.base.ring.pulses s.dec.reports
      freeIdx := s.freeIdx + 1 }
  | .enc =>
    { s with
      enc := freshEnc st s.freeIdx s.enc.base.p.tx s.enc.base.c.tx s.enc.base.ring.pulses
      freeIdx := s.freeIdx + 1 }

/-- A turn begins: the first input is taken, and the port it names is served. -/
def beginTurn (s : State) (k : Kind) (q : PortId) (quantum : Option Nat) (rest : List Input) : State :=
  { s with sel := { kind := k, port := q, quantum := quantum }, inputs := rest }

/-- The bytes the served port has received and not taken yet. -/
def servedRx (s : State) : List Byte := (s.port s.sel.kind s.sel.port).rx

/-- The served port has taken a command: these bytes are left. -/
def setServedRx (s : State) (bs : List Byte) : State :=
  s.setPort s.sel.kind s.sel.port { s.port s.sel.kind s.sel.port with rx := bs }

/-- The served port goes on with its operation in progress, if it has one: a port accepts its next command only after
it has answered the previous one (00_scope R7). -/
def resume (s : State) : Option (Host.Outcome State Fault Refusal) :=
  match s.sel.kind, s.sel.port with
  | .dec, .p => s.dec.pushing.map (runPush s)
  | .dec, .c => s.dec.clearing.map (runDecClear s)
  | .enc, .c => s.enc.pulling.map (runPull s)
  | _, _ => none

/-- The answer to bytes that are no command (30_encoding R112, R113). -/
def rejectCommand (s : State) : State :=
  s.answer (bare (if (s.base s.sel.kind).configured = false then .notConfigured else .illegal))

/-- What the served port finds at the head of its bytes. -/
inductive Fetched where
  /-- a command, and the state with its bytes taken -/
  | command (i : Instr) (s : State)
  /-- nothing to run: the state goes on as given -/
  | idle (s : State)

/-- Take the next command of the served port. Bytes that are no command are answered and taken: a reserved opcode alone,
an over-wide `V` command whole (30_encoding R112; log 9); a command cut short waits (93 X8; log 17). -/
def fetch (s : State) : Fetched :=
  match decode (s.base s.sel.kind).straps.elemW (servedRx s) with
  | .ok (i, rest) => .command i (setServedRx s rest)
  | .error .incomplete => .idle s
  | .error (.reserved _ rest) => .idle (rejectCommand (setServedRx s rest))
  | .error (.overwide rest) => .idle (rejectCommand (setServedRx s rest))

/-- The kind of instance a command is for and a port that accepts it (30_encoding R109). -/
def commandHome : Instr → Kind × PortId
  | .sbSize | .sbZero | .sbAppend _ | .sbAlloc _ => (.pool, .p)
  | .rgPush _ => (.rg, .p)
  | .rgPop | .rgFront | .rgEmpty | .rgFull | .rgSize => (.rg, .c)
  | .rpPush => (.pool, .p)
  | .rpPop | .rpFront | .rpEmpty | .rpFull | .rpSize => (.pool, .c)
  | .decPush _ => (.dec, .p)
  | .decPop | .decPeek | .decEmpty | .decClear | .decErrcnt | .decErrcntRst => (.dec, .c)
  | .encPush _ => (.enc, .p)
  | .encEmpty | .encFill _ | .encMove _ | .encClear | .encGather => (.enc, .c)

/-- No operation is in progress on a port. -/
def withoutOperation (s : State) (k : Kind) (q : PortId) : State :=
  match k, q with
  | .dec, .p => { s with dec := { s.dec with pushing := none } }
  | .dec, .c => { s with dec := { s.dec with clearing := none } }
  | .enc, .c => { s with enc := { s.enc with pulling := none } }
  | _, _ => s

/-- Present one command, the `nbits` bits of `w` and zero bytes after them, on a port that accepts it, and give that
port the next turn, to the end of the command (log 2). -/
def presentWord (s : State) (nbits w : Nat) : State :=
  let home := match decode (s.rg.base.straps.elemW) (commandBytes s.rg.base.straps.elemW nbits w) with
    | .ok (i, _) => commandHome i
    | .error _ => (.rg, .p)
  let elemW := (s.base home.1).straps.elemW
  let s1 := withoutOperation s home.1 home.2
  let s2 := s1.setPort home.1 home.2
    { s1.port home.1 home.2 with rx := oneCommand elemW (commandBytes elemW nbits w) }
  { s2 with inputs := .serve home.1 home.2 none :: s2.inputs }

end Sys2Proof.Machine
end

