-- ==== Sys2Proof/Machine/Step.lean ====
section
/-! DEFINITION. One step of the machine: the next thing a driver does (00_scope R7; log 2). -/
namespace Sys2Proof.Machine

/-- The served port goes on with its operation, or takes and runs its next command. -/
def turn (s : State) : Host.Outcome State Fault Refusal :=
  match resume s with
  | some o => o
  | none =>
    match fetch s with
    | .command i s' => exec i s'
    | .idle s' => .next s'

/-- One step. With no input left the machine idles: nothing acts but the drivers. -/
def step (s : State) : Host.Outcome State Fault Refusal :=
  match s.inputs with
  | [] => .next s
  | .deliver k q bs :: rest => .next (deliver { s with inputs := rest } k q bs)
  | .serve k q quantum :: rest => turn (beginTurn s k q quantum rest)
  | .reset k st :: rest => .next (resetInstance { s with inputs := rest } k st)

/-- `s` with one command presented where the next step takes it (log 2). -/
def State.withFetchWord (s : State) (nbits w : Nat) : State := presentWord s nbits w

end Sys2Proof.Machine
end

