-- ==== Sys2Proof/Safety.lean ====
section
/-! DEFINITION. The terms claims use: when a port is served, and the invariant of the machine (10_state R21 to R39,
40_slot_buffer R130, 43_encoder_base R231, R233). -/
namespace Sys2Proof.Machine

/-- A configured instance of this kind is served on this port. -/
abbrev Serves (s : State) (k : Kind) (q : PortId) : Prop :=
  (s.base k).configured = true ∧ s.sel.kind = k ∧ s.sel.port = q

/-- The turn lasts to the end of the operation: its quantum, which is the model's (log 4), is unlimited. -/
abbrev WholeTurn (s : State) : Prop := s.sel.quantum = none

/-- The opcode map's columns: the kind of instance a command is for, and the ports that accept it (30_encoding R109). -/
def acceptedOn (i : Instr) (k : Kind) (q : PortId) : Bool :=
  match i with
  | .sbSize | .sbZero | .sbAppend _ | .sbAlloc _ => k == .pool && q == .p
  | .rgPush _ => k == .rg && q == .p
  | .rgPop | .rgFront => k == .rg && q == .c
  | .rgEmpty | .rgFull | .rgSize => k == .rg
  | .rpPush => k == .pool && q == .p
  | .rpPop | .rpFront => k == .pool && q == .c
  | .rpEmpty | .rpFull | .rpSize => k == .pool
  | .decPush _ => k == .dec && q == .p
  | .decPop | .decPeek | .decClear => k == .dec && q == .c
  | .decEmpty | .decErrcnt | .decErrcntRst => k == .dec
  | .encPush _ => k == .enc && q == .p
  | .encFill _ | .encMove _ | .encClear | .encGather => k == .enc && q == .c
  | .encEmpty => k == .enc

/-- No operation is in progress on the port, so that it takes a command at its next turn (00_scope R7). -/
def PortIdle (s : State) : Kind → PortId → Prop
  | .dec, .p => s.dec.pushing = none
  | .dec, .c => s.dec.clearing = none
  | .enc, .c => s.enc.pulling = none
  | _, _ => True

/-- The state a command runs in: the turn has begun, and the port has taken the command and holds `bytes` after it. -/
def taken (s : State) (k : Kind) (q : PortId) (quantum : Option Nat) (rest : List Input) (bytes : List Byte) : State :=
  ({ s with sel := { kind := k, port := q, quantum := quantum }, inputs := rest }).setPort k q
    { s.port k q with rx := bytes }

/-- Commands one after the other on the served port. -/
def runAll : List Instr → State → Host.Outcome State Fault Refusal
  | [], s => .next s
  | i :: is, s =>
    match exec i s with
    | .next t => runAll is t
    | .fault f => .fault f
    | .refused r => .refused r

/-- The state without what no port shows of the pool's Slot Buffers: their variant and their `cap` (10_state R30). -/
def forgetCap (s : State) : State :=
  { s with
    pool :=
      { base := { s.pool.base with straps := { s.pool.base.straps with slotKind := .fixed } }
        slots := s.pool.slots.map fun sl => { sl with cap := 0 } } }

/-- The elements queued in a general ring, oldest first; `none` for an index that is dead or does not exist. -/
def rgQueue (i : RgInst) : List (Option Nat) :=
  (queuedIdx i.base i.base.ring.writePos).map fun k => (i.slots[k]?).join

/-- The contents of the committed slots of a ring of Slot Buffers, oldest first. -/
def slotQueue (b : Base) (slots : List Slot) : List (List Byte) :=
  (queuedIdx b b.ring.writePos).map fun k => ((slots[k]?).map content).getD []

/-- The bytes an encoder has queued and not yet acknowledged, in the order they are sent (43_encoder_base R233). -/
def pendingStream (e : EncInst) : List Byte := (slotQueue e.base e.slots).flatten.drop e.frontOff

/-- The loop of `DEC_PUSH` on a stream protocol (42_decoder_base R192), on a decoder whose current slot exists. -/
def pushLoop (d : DecInst) (consumed : Nat) : List Byte → DecInst × Response
  | [] => (d, { status := .ok, fields := leBytes 4 consumed ++ [0#8] })
  | b :: bs =>
    match d.slots[d.base.ring.writePos]? with
    | none => (d, { status := .ok, fields := leBytes 4 consumed ++ [0#8] })
    | some cur =>
      match feedByte d cur b with
      | (d', .ringFull) => (d', { status := .ringFull, fields := leBytes 4 (consumed + 1) ++ [10#8] })
      | (d', .discarded c) =>
        if d.base.straps.errFatal then
          (d', { status := .framingFatal, fields := leBytes 4 (consumed + 1) ++ [causeCode c] })
        else pushLoop d' (consumed + 1) bs
      | (d', _) => pushLoop d' (consumed + 1) bs

/-- The decode machine is seeking sync (44_framing_decode R270). -/
def SeekingSync (d : DecInst) : Prop :=
  match d.base.straps.proto with
  | .simple8 => d.s8.inFrame = false
  | .simple16 => d.s16.st = .sync0
  | .packet => d.pkt.st = .magic0
  | .seqpacket => True

/-- The parse state of the machine `PROTO` selects is its reset parse state, in every element the spec gives a reset value
(10_state R35 to R37, R44). -/
def ResetParse (d : DecInst) : Prop :=
  match d.base.straps.proto with
  | .simple8 => d.s8.inFrame = false ∧ d.s8.esc = false ∧ d.s8.holdValid = false
  | .simple16 => d.s16.st = .sync0 ∧ d.s16.ignored = 0#32
  | .packet => d.pkt.st = .magic0
  | .seqpacket => True

/-- The two states agree on the instance of this kind. -/
def SameInstance (k : Kind) (s t : State) : Prop :=
  match k with
  | .rg => s.rg = t.rg
  | .pool => s.pool = t.pool
  | .dec => s.dec = t.dec
  | .enc => s.enc = t.enc

/-- Cursors in `0 .. N-1`, and the notifier counts the queued slots (10_state R21, R34; 60_exceptions R380, R381). -/
def RingOk (b : Base) : Prop :=
  b.ring.readPos < b.straps.n ∧ b.ring.writePos < b.straps.n ∧
  b.ring.notifyCount = if b.straps.hasNotifier then queueSize b else 0

/-- A ring index is consumer-owned (10_state R24). -/
def Committed (b : Base) (i : Nat) : Prop := i ∈ queuedIdx b b.ring.writePos

/-- A Slot Buffer keeps `size <= cap <= max`, `cap = max` where it is `FIXED` (40_slot_buffer R130), its storage in
canonical form and inside `0 .. cap-1` (20_memory R60). -/
def SlotOk (kind : SlotKind) (max : Nat) (sl : Slot) : Prop :=
  sl.max = max ∧ sl.size ≤ sl.cap ∧ sl.cap ≤ sl.max ∧ (kind = .fixed → sl.cap = sl.max) ∧
  Memory.wf sl.data ∧ ∀ x ∈ sl.data, x.1 < sl.cap

/-- What holds of every instance: `configured` is the result of the construction checks (10_state R40), a configured
instance keeps its ring and `rest`, an unconfigured one stays in its reset state (70_reset R414). -/
def InstOk (b : Base) (rest idle : Prop) : Prop :=
  b.configured = strapsLegal b.straps ∧
  (b.configured = true → RingOk b ∧ rest) ∧
  (b.configured = false → b.ring.readPos = 0 ∧ b.ring.writePos = 0 ∧ b.ring.notifyCount = 0 ∧ idle)

/-- A general ring: a slot is live exactly when it is consumer-owned, with an `ELEM_W`-bit element (10_state R25). -/
def RgOk (i : RgInst) : Prop :=
  InstOk i.base
    (i.slots.length = i.base.straps.n ∧
      (∀ k e, i.slots[k]? = some e → (e ≠ none ↔ Committed i.base k)) ∧
      ∀ k v : Nat, i.slots[k]? = some (some v) → v < 2 ^ i.base.straps.elemW)
    True

/-- A standalone pool; that its slots hold `MAX_PAYLOAD` bytes is the model's reading (log 12). -/
def PoolOk (i : PoolInst) : Prop :=
  InstOk i.base
    (i.slots.length = i.base.straps.n ∧ ∀ sl ∈ i.slots, SlotOk i.base.straps.slotKind i.base.straps.maxPayload sl)
    True

/-- The Simple8 machine: outside a frame no flag is set, and in a frame with the CRC enabled the running checksum is
`CRC8(STX, content)` (10_state R35, 44_framing_decode R280). -/
def S8Ok (st : Straps) (s8 : S8) (cur : Slot) : Prop :=
  (s8.inFrame = false → s8.esc = false ∧ s8.holdValid = false) ∧
  (s8.inFrame = true → st.s8CrcEn = true → s8.crc = crc8 st st.s8Stx (content cur))

/-- The Simple16 machine: past the sync sequence no noise is left uncounted (44_framing_decode R289), and in its payload
what is still to come and what the slot holds make the declared length, and the running checksum is that of the length
and the content (10_state R36, 44_framing_decode R291, R292). -/
def S16Ok (st : Straps) (s16 : S16) (cur : Slot) : Prop :=
  (s16.st = .lenLo ∨ s16.st = .lenHi ∨ s16.st = .payload → s16.ignored = 0#32) ∧
  (s16.st = .payload →
    1 ≤ s16.len.toNat ∧ s16.len.toNat ≤ st.maxPayload ∧
    1 ≤ s16.remaining ∧ s16.remaining ≤ s16.len.toNat + s16CrcBytes st ∧
    cur.size + (s16.remaining - s16CrcBytes st) = s16.len.toNat ∧
    s16.crc = crc16 st (s16CrcStart st) (le16 s16.len ++ content cur))

/-- The Packet machine in its payload (10_state R37, 44_framing_decode R306, R307). -/
def PktOk (st : Straps) (pkt : Pkt) (cur : Slot) : Prop :=
  pkt.st = .payload →
    1 ≤ pkt.remaining.toNat ∧ cur.size + pkt.remaining.toNat = pkt.len.toNat ∧ pkt.len.toNat ≤ st.maxPayload ∧
    pkt.cnt = min Config.pktCrcWindow cur.size ∧
    pkt.crc = crc8 st Config.pktCrcSeed ((content cur).take Config.pktCrcWindow)

/-- The parse state of the machine `PROTO` selects fits the current slot. -/
def ParseOk (d : DecInst) (cur : Slot) : Prop :=
  match d.base.straps.proto with
  | .simple8 => S8Ok d.base.straps d.s8 cur
  | .simple16 => S16Ok d.base.straps d.s16 cur
  | .packet => PktOk d.base.straps d.pkt cur
  | .seqpacket => True

/-- A snapshot of `write_pos` is not ahead of it. -/
def SnapshotOk (b : Base) (w : Nat) : Prop :=
  w < b.straps.n ∧ ringSize b.straps.n b.ring.readPos w ≤ queueSize b

/-- A decoder: no committed slot is empty (42_decoder_base R191). -/
def DecOk (d : DecInst) : Prop :=
  InstOk d.base
    (d.slots.length = d.base.straps.n ∧
      (∀ sl ∈ d.slots, SlotOk d.base.straps.slotKind d.base.straps.maxPayload sl) ∧
      (∀ k sl, Committed d.base k → d.slots[k]? = some sl → 1 ≤ sl.size) ∧
      (∀ cur, d.slots[d.base.ring.writePos]? = some cur → ParseOk d cur) ∧
      ∀ w, d.clearing = some w → SnapshotOk d.base w)
    (d.pushing = none ∧ d.clearing = none)

/-- An operation in progress on port `C` of an encoder can be finished. -/
def PullOk (e : EncInst) : PullOp → Prop
  | .clear w => SnapshotOk e.base w ∧ e.frontOff = 0
  | .move rem =>
    isDatagram e.base.straps = false ∧ ∃ queue, encQueue e = .ok queue ∧ rem ≤ pendingBytes queue e.frontOff

/-- An encoder: a committed slot holds at least three bytes (43_encoder_base R231), and `front_off` lies inside the
front slot (10_state R39). -/
def EncOk (e : EncInst) : Prop :=
  InstOk e.base
    (e.slots.length = e.base.straps.n ∧
      (∀ sl ∈ e.slots, SlotOk e.base.straps.slotKind (encSlotMax e.base.straps) sl) ∧
      (∀ k sl, Committed e.base k → e.slots[k]? = some sl → 3 ≤ sl.size) ∧
      (isEmpty e.base = true → e.frontOff = 0) ∧
      (isEmpty e.base = false → ∀ sl, e.slots[e.base.ring.readPos]? = some sl → e.frontOff < sl.size) ∧
      (isDatagram e.base.straps = true → e.frontOff = 0) ∧
      ∀ op, e.pulling = some op → PullOk e op)
    (e.pulling = none)

/-- `n` of the bytes an encoder had pending are acknowledged: `read_pos`, the notifier, `front_off` and the operation in
progress may have changed, nothing else, and the encoder is one of the invariant (43_encoder_base R244). -/
def Acknowledged (n : Nat) (e e' : EncInst) : Prop :=
  EncOk e' ∧ pendingStream e' = (pendingStream e).drop n ∧
  e' = { e with
    base := { e.base with ring := { e.base.ring with
      readPos := e'.base.ring.readPos
      notifyCount := if e.base.straps.hasNotifier then queueSize e'.base else 0 } }
    frontOff := e'.frontOff
    pulling := e'.pulling }

/-- The invariant of the machine. -/
def StateOk (s : State) : Prop := RgOk s.rg ∧ PoolOk s.pool ∧ DecOk s.dec ∧ EncOk s.enc

end Sys2Proof.Machine
end

