-- ==== Sys2Proof/Certificates/Slice0/Obligations.lean ====
section
/-! DEFINITION. The statements for the provers. Conclusions are mostly equations for the whole next state: what the
right-hand side does not replace is unchanged (the frame). `State.answer` is pinned by `AnswerTouchesOnlyServedPort`,
`published` and `released` by `CursorStores`, the ring predicates by `RingArithmetic`, the feed hook by the `S8…`,
`S16…` and `Pkt…` statements. -/
open Sys2Proof Sys2Proof.Machine

/-! ### Encodings -/

/-- 30_encoding R108, R109, R110: every command is read back from its bytes, whatever follows it. -/
def Obligations.DecodeEncode : Prop :=
  ∀ (W : Nat) (i : Instr) (rest : List Byte), i.wf W = true → decode W (encode W i ++ rest) = .ok (i, rest)

/-- 30_encoding R108, R110: the bytes a command is read from are its spelling, so no other bytes stand for it and none
is left over or lost. -/
def Obligations.DecodedBytesSpellCommand : Prop :=
  ∀ (W : Nat) (bs rest : List Byte) (i : Instr), decode W bs = .ok (i, rest) →
    i.wf W = true ∧ bs = encode W i ++ rest

/-- 30_encoding R92: the four field assemblies as unsigned numbers, and that they are inverse. -/
def Obligations.FieldAssembly : Prop :=
  (∀ v : U16, (le16 v).map BitVec.toNat = [v.toNat % 256, v.toNat / 256]) ∧
  (∀ v : U24, (be24 v).map BitVec.toNat = [v.toNat / 65536, v.toNat / 256 % 256, v.toNat % 256]) ∧
  (∀ a b : Byte, (unLe16 a b).toNat = a.toNat + 256 * b.toNat) ∧
  (∀ a b c : Byte, (unBe24 a b c).toNat = 65536 * a.toNat + 256 * b.toNat + c.toNat) ∧
  (∀ (v : U16) (a b : Byte), le16 v = [a, b] → unLe16 a b = v) ∧
  ∀ (v : U24) (a b c : Byte), be24 v = [a, b, c] → unBe24 a b c = v

/-- 30_encoding R109, R120: command bytes written out from the opcode map, one or two for each kind of instance. -/
def Obligations.SpelledCommandsDecode : Prop :=
  decode 8 [0x30#8, 5#8, 0#8, 0#8, 0#8, 0x45#8, 1#8, 2#8, 3#8, 0x4A#8] =
    .ok (.decPush [0x45#8, 1#8, 2#8, 3#8, 0x4A#8], []) ∧
  decode 8 [0x12#8, 0x41#8, 0x28#8] = .ok (.sbAppend 0x41#8, [0x28#8]) ∧
  decode 8 [0x13#8, 9#8, 1#8, 0#8, 0#8] = .ok (.sbAlloc 265#32, []) ∧
  decode 12 [0x20#8, 0x2A#8, 0x0F#8] = .ok (.rgPush 0xF2A, []) ∧
  decode 8 [0x29#8] = .ok (.rpPop, []) ∧
  decode 8 [0x43#8, 0#8, 0#8, 1#8, 0x80#8] = .ok (.encMove 0x80010000#32, [])

/-! ### Ports, turns and answers -/

/-- 30_encoding R108, 00_scope R7, 20_memory R75: a turn of a port with no operation in progress, whose bytes begin with a
command, runs that command; the turn takes the first input and the command's bytes, and nothing else. A turn of a port
with an operation in progress takes no bytes, and ends with the operation still in progress and nothing answered, or
with one response. A turn of another port leaves the operation as it is. The list of inputs is the model's (log 2), and
so is the form of the turns (log 4). -/
def Obligations.StepRunsDecodedCommand : Prop :=
  (∀ (s : State) (k : Kind) (q : PortId) (quantum : Option Nat) (rest : List Input) (i : Instr) (bytes : List Byte),
    s.inputs = .serve k q quantum :: rest → PortIdle s k q →
    decode (s.base k).straps.elemW (s.port k q).rx = .ok (i, bytes) →
    step s = exec i (taken s k q quantum rest bytes)) ∧
  ∀ (s t : State) (k : Kind) (q : PortId) (quantum : Option Nat) (rest : List Input),
    s.inputs = .serve k q quantum :: rest → step s = .next t →
    (¬PortIdle s k q →
      (¬PortIdle t k q ∧ t.port k q = s.port k q) ∨
      (PortIdle t k q ∧ ∃ r : Response, t.port k q =
        { rx := (s.port k q).rx, tx := (s.port k q).tx ++ statusCode r.status :: r.fields })) ∧
    (¬(k = .dec ∧ q = .p) → t.dec.pushing = s.dec.pushing) ∧
    (¬(k = .dec ∧ q = .c) → t.dec.clearing = s.dec.clearing) ∧
    (¬(k = .enc ∧ q = .c) → t.enc.pulling = s.enc.pulling)

/-- 30_encoding R113: an unconfigured instance answers every command, legal or not, with `ST_NOT_CONFIGURED`, takes its
bytes, and changes nothing else. -/
def Obligations.UnconfiguredRefuses : Prop :=
  (∀ (i : Instr) (s : State), (s.base s.sel.kind).configured = false →
    exec i s = .next (s.answer { status := .notConfigured, fields := [] })) ∧
  ∀ (s : State) (k : Kind) (q : PortId) (quantum : Option Nat) (rest : List Input) (bytes : List Byte),
    s.inputs = .serve k q quantum :: rest → PortIdle s k q → (s.base k).configured = false →
    ((∃ i, decode (s.base k).straps.elemW (s.port k q).rx = .ok (i, bytes)) ∨
      (∃ op, decode (s.base k).straps.elemW (s.port k q).rx = .error (.reserved op bytes)) ∨
      decode (s.base k).straps.elemW (s.port k q).rx = .error (.overwide bytes)) →
    step s = .next ((taken s k q quantum rest bytes).answer { status := .notConfigured, fields := [] })

/-- 30_encoding R112: reserved opcodes (the opcode byte alone is taken), commands of another kind of instance, commands
on a port that does not accept them, and over-wide `V` values are answered `ST_ILLEGAL` and change nothing else. That a
turn takes the whole of such a command but a reserved one, by its format and the `ELEM_W` of the instance that receives
it, is the model's reading (DEDUCED, log 9). -/
def Obligations.IllegalCommandsRefused : Prop :=
  (∀ (W : Nat) (op : Byte) (rest : List Byte), (∀ i : Instr, i.opcode ≠ op) →
    decode W (op :: rest) = .error (.reserved op rest)) ∧
  (∀ (W : Nat) (v rest : List Byte), v.length = valueBytes W → 2 ^ W ≤ leNat v →
    decode W (0x20#8 :: v ++ rest) = .error (.overwide rest)) ∧
  (∀ (i : Instr) (s : State), (s.base s.sel.kind).configured = true → acceptedOn i s.sel.kind s.sel.port = false →
    exec i s = .next (s.answer { status := .illegal, fields := [] })) ∧
  ∀ (s : State) (k : Kind) (q : PortId) (quantum : Option Nat) (rest : List Input) (bytes : List Byte),
    s.inputs = .serve k q quantum :: rest → PortIdle s k q → (s.base k).configured = true →
    ((∃ i, decode (s.base k).straps.elemW (s.port k q).rx = .ok (i, bytes) ∧ acceptedOn i k q = false) ∨
      (∃ op, decode (s.base k).straps.elemW (s.port k q).rx = .error (.reserved op bytes)) ∨
      decode (s.base k).straps.elemW (s.port k q).rx = .error (.overwide bytes)) →
    step s = .next ((taken s k q quantum rest bytes).answer { status := .illegal, fields := [] })

/-- 30_encoding R116, R118, 60_exceptions R372: an answer sends a status byte of the table and the fields on the served
port; every other port and all other state stays; the numeric codes are those of the two tables. -/
def Obligations.AnswerTouchesOnlyServedPort : Prop :=
  (∀ (s : State) (r : Response),
    (s.answer r).port s.sel.kind s.sel.port =
        { rx := (s.port s.sel.kind s.sel.port).rx
          tx := (s.port s.sel.kind s.sel.port).tx ++ statusCode r.status :: r.fields } ∧
      (∀ k q, (k ≠ s.sel.kind ∨ q ≠ s.sel.port) → (s.answer r).port k q = s.port k q) ∧
      (∀ k, ((s.answer r).base k).straps = (s.base k).straps ∧ ((s.answer r).base k).ring = (s.base k).ring ∧
        ((s.answer r).base k).configured = (s.base k).configured) ∧
      (s.answer r).rg = { s.rg with base := (s.answer r).rg.base } ∧
      (s.answer r).pool = { s.pool with base := (s.answer r).pool.base } ∧
      (s.answer r).dec = { s.dec with base := (s.answer r).dec.base } ∧
      (s.answer r).enc = { s.enc with base := (s.answer r).enc.base } ∧
      (s.answer r).sel = s.sel ∧ (s.answer r).inputs = s.inputs ∧ (s.answer r).freeIdx = s.freeIdx) ∧
  ([Status.ok, .none, .ringFull, .tooLarge, .bufTooSmall, .badLen, .framingFatal, .emptyMessage, .notConfigured,
      .illegal].map statusCode = [0#8, 1#8, 2#8, 3#8, 4#8, 5#8, 6#8, 7#8, 8#8, 0xFF#8]) ∧
  [Cause.stxInFrame, .etxAfterNtx, .ntxAfterNtx, .badCrc, .oversize, .badSync, .lenMismatch, .shortHeader, .emptyFrame,
      .ringFull].map causeCode = [1#8, 2#8, 3#8, 4#8, 5#8, 6#8, 7#8, 8#8, 9#8, 10#8]

/-! ### Rings -/

/-- 41_ring R153, 10_state R22: the arithmetic of the cursors. -/
def Obligations.RingArithmetic : Prop :=
  ∀ n r w : Nat, 2 ≤ n → r < n → w < n →
    ringNext n w = (if w < n - 1 then w + 1 else 0) ∧ ringNext n w = (w + 1) % n ∧
    ringSize n r w = (if r ≤ w then w - r else w + n - r) ∧ ringSize n r w = (w + (n - r)) % n ∧
    ringSize n r w ≤ n - 1 ∧
    (ringEmpty r w = true ↔ r = w) ∧ (ringEmpty r w = true ↔ ringSize n r w = 0) ∧
    (ringFull n r w = true ↔ ringNext n w = r) ∧ (ringFull n r w = true ↔ ringSize n r w = n - 1) ∧
    ¬(ringEmpty r w = true ∧ ringFull n r w = true)

/-- 41_ring R152, 10_state R34, 60_exceptions R380: what a publish and a release store; the pulse count is the model's
record of the pulse output (log 14). -/
def Obligations.CursorStores : Prop :=
  ∀ b : Base,
    published b = { b with ring :=
      { readPos := b.ring.readPos
        writePos := (b.ring.writePos + 1) % b.straps.n
        notifyCount := if b.straps.hasNotifier then b.ring.notifyCount + 1 else b.ring.notifyCount
        pulses := if b.straps.hasNotifier then b.ring.pulses + 1 else b.ring.pulses } } ∧
    released b = { b with ring :=
      { readPos := (b.ring.readPos + 1) % b.straps.n
        writePos := b.ring.writePos
        notifyCount := if b.straps.hasNotifier then b.ring.notifyCount - 1 else b.ring.notifyCount
        pulses := b.ring.pulses } }

/-- 41_ring R160 to R162, R167 to R169, 42_decoder_base R206, 43_encoder_base R238: the queries, on either port. -/
def Obligations.RingQueries : Prop :=
  (∀ (s : State) (q : PortId), Serves s .rg q →
    exec .rgEmpty s = .next (s.answer
      { status := .ok, fields := [if s.rg.base.ring.readPos = s.rg.base.ring.writePos then 1#8 else 0#8] }) ∧
    exec .rgFull s = .next (s.answer
      { status := .ok
        fields := [if ringNext s.rg.base.straps.n s.rg.base.ring.writePos = s.rg.base.ring.readPos then 1#8 else 0#8] }) ∧
    exec .rgSize s = .next (s.answer
      { status := .ok
        fields := leBytes 4 (ringSize s.rg.base.straps.n s.rg.base.ring.readPos s.rg.base.ring.writePos) })) ∧
  (∀ (s : State) (q : PortId), Serves s .pool q →
    exec .rpEmpty s = .next (s.answer
      { status := .ok, fields := [if s.pool.base.ring.readPos = s.pool.base.ring.writePos then 1#8 else 0#8] }) ∧
    exec .rpFull s = .next (s.answer
      { status := .ok
        fields :=
          [if ringNext s.pool.base.straps.n s.pool.base.ring.writePos = s.pool.base.ring.readPos then 1#8 else 0#8] }) ∧
    exec .rpSize s = .next (s.answer
      { status := .ok
        fields := leBytes 4 (ringSize s.pool.base.straps.n s.pool.base.ring.readPos s.pool.base.ring.writePos) })) ∧
  (∀ (s : State) (q : PortId), Serves s .dec q →
    exec .decEmpty s = .next (s.answer
      { status := .ok, fields := [if s.dec.base.ring.readPos = s.dec.base.ring.writePos then 1#8 else 0#8] })) ∧
  ∀ (s : State) (q : PortId), Serves s .enc q →
    exec .encEmpty s = .next (s.answer
      { status := .ok, fields := [if s.enc.base.ring.readPos = s.enc.base.ring.writePos then 1#8 else 0#8] })

/-- 41_ring R156, and 30_encoding R112 for an over-wide value. -/
def Obligations.RgPush : Prop :=
  ∀ (s : State) (v : Nat), Serves s .rg .p → s.rg.base.ring.writePos < s.rg.slots.length →
    (2 ^ s.rg.base.straps.elemW ≤ v → exec (.rgPush v) s = .next (s.answer { status := .illegal, fields := [] })) ∧
    (v < 2 ^ s.rg.base.straps.elemW →
      ringNext s.rg.base.straps.n s.rg.base.ring.writePos = s.rg.base.ring.readPos →
      exec (.rgPush v) s = .next (s.answer { status := .ringFull, fields := [] })) ∧
    (v < 2 ^ s.rg.base.straps.elemW →
      ringNext s.rg.base.straps.n s.rg.base.ring.writePos ≠ s.rg.base.ring.readPos →
      exec (.rgPush v) s = .next (State.answer
        { s with rg :=
          { base := published s.rg.base
            slots := s.rg.slots.set s.rg.base.ring.writePos (some v) } } { status := .ok, fields := [] }))

/-- 41_ring R158, R159. -/
def Obligations.RgPopFront : Prop :=
  ∀ s : State, Serves s .rg .c →
    (s.rg.base.ring.readPos = s.rg.base.ring.writePos →
      exec .rgPop s = .next (s.answer { status := .none, fields := [] }) ∧
      exec .rgFront s = .next (s.answer { status := .none, fields := [] })) ∧
    ∀ v : Nat, s.rg.base.ring.readPos ≠ s.rg.base.ring.writePos →
      s.rg.slots[s.rg.base.ring.readPos]? = some (some v) →
      exec .rgPop s = .next (State.answer
        { s with rg :=
          { base := released s.rg.base
            slots := s.rg.slots.set s.rg.base.ring.readPos none } }
        { status := .ok, fields := leBytes ((s.rg.base.straps.elemW + 7) / 8) v }) ∧
      exec .rgFront s = .next (s.answer
        { status := .ok, fields := leBytes ((s.rg.base.straps.elemW + 7) / 8) v })

/-- 41_ring R171, R173: a push adds its element at the end of the queue, a pop takes the element at its front. -/
def Obligations.RgFifo : Prop :=
  ∀ s : State, RgOk s.rg →
    (∀ v : Nat, Serves s .rg .p → v < 2 ^ s.rg.base.straps.elemW → isFull s.rg.base = false →
      ∃ t, exec (.rgPush v) s = .next t ∧ rgQueue t.rg = rgQueue s.rg ++ [some v]) ∧
    (Serves s .rg .c → isEmpty s.rg.base = false →
      ∃ v t, exec .rgPop s = .next t ∧ rgQueue s.rg = some v :: rgQueue t.rg ∧
        (t.port .rg .c).tx = (s.port .rg .c).tx ++ 0#8 :: leBytes (valueBytes s.rg.base.straps.elemW) v)

/-- 41_ring R172: an empty ring takes `N - 1` pushes, and the `N`-th changes nothing, in the general and in the pool
form. -/
def Obligations.FullEmptyBoundary : Prop :=
  (∀ (s : State) (vs : List Nat) (v : Nat), RgOk s.rg → Serves s .rg .p → isEmpty s.rg.base = true →
    vs.length + 1 = s.rg.base.straps.n → (∀ x ∈ vs, x < 2 ^ s.rg.base.straps.elemW) →
    v < 2 ^ s.rg.base.straps.elemW →
    ∃ t, runAll (vs.map .rgPush) s = .next t ∧
      (t.port .rg .p).tx = (s.port .rg .p).tx ++ List.replicate vs.length 0#8 ∧
      rgQueue t.rg = vs.map some ∧
      exec (.rgPush v) t = .next (t.answer { status := .ringFull, fields := [] })) ∧
  ∀ s : State, PoolOk s.pool → Serves s .pool .p → isEmpty s.pool.base = true →
    ∃ t, runAll (List.replicate (s.pool.base.straps.n - 1) .rpPush) s = .next t ∧
      (t.port .pool .p).tx = (s.port .pool .p).tx ++ List.replicate (s.pool.base.straps.n - 1) 0#8 ∧
      t.pool.slots = s.pool.slots ∧ queueSize t.pool.base = s.pool.base.straps.n - 1 ∧
      exec .rpPush t = .next (t.answer { status := .ringFull, fields := [] })

/-- 41_ring R164. -/
def Obligations.RpPush : Prop :=
  ∀ s : State, Serves s .pool .p →
    (ringNext s.pool.base.straps.n s.pool.base.ring.writePos = s.pool.base.ring.readPos →
      exec .rpPush s = .next (s.answer { status := .ringFull, fields := [] })) ∧
    (ringNext s.pool.base.straps.n s.pool.base.ring.writePos ≠ s.pool.base.ring.readPos →
      exec .rpPush s = .next (State.answer
        { s with pool := { s.pool with base := published s.pool.base } } { status := .ok, fields := [] }))

/-- 41_ring R165, R166. -/
def Obligations.RpPopFront : Prop :=
  ∀ s : State, Serves s .pool .c →
    (s.pool.base.ring.readPos = s.pool.base.ring.writePos →
      exec .rpPop s = .next (s.answer { status := .none, fields := [] }) ∧
      exec .rpFront s = .next (s.answer { status := .none, fields := [] })) ∧
    (s.pool.base.ring.readPos ≠ s.pool.base.ring.writePos →
      exec .rpPop s = .next (State.answer
        { s with pool := { s.pool with base := released s.pool.base } } { status := .ok, fields := [] }) ∧
      ∀ sl, s.pool.slots[s.pool.base.ring.readPos]? = some sl →
        exec .rpFront s = .next (s.answer
          { status := .ok, fields := leBytes 4 sl.size ++ (List.range sl.size).map (byteAt sl) }))

/-! ### Slot Buffers -/

/-- 40_slot_buffer R133, R134. -/
def Obligations.SbSizeZero : Prop :=
  ∀ (s : State) (sl : Slot), Serves s .pool .p → s.pool.slots[s.pool.base.ring.writePos]? = some sl →
    exec .sbSize s = .next (s.answer { status := .ok, fields := leBytes 4 sl.size }) ∧
    exec .sbZero s = .next (State.answer
      { s with pool :=
        { s.pool with slots := s.pool.slots.set s.pool.base.ring.writePos { sl with size := 0 } } }
      { status := .ok, fields := [] })

/-- 40_slot_buffer R135: the byte goes to offset `size`, and every other byte of the slot reads as before. -/
def Obligations.SbAppend : Prop :=
  ∀ (s : State) (b : Byte) (sl : Slot), Serves s .pool .p → s.pool.slots[s.pool.base.ring.writePos]? = some sl →
    (sl.size = sl.max → exec (.sbAppend b) s = .next (s.answer { status := .tooLarge, fields := [] })) ∧
    (sl.size ≠ sl.max → ∃ sl' : Slot,
      exec (.sbAppend b) s = .next (State.answer
        { s with pool := { s.pool with slots := s.pool.slots.set s.pool.base.ring.writePos sl' } }
        { status := .ok, fields := [] }) ∧
      sl'.max = sl.max ∧ sl'.size = sl.size + 1 ∧
      sl'.cap = (if s.pool.base.straps.slotKind = .dynamic ∧ sl.size = sl.cap then sl.size + 1 else sl.cap) ∧
      byteAt sl' sl.size = b ∧ (∀ off, off ≠ sl.size → byteAt sl' off = byteAt sl off) ∧
      content sl' = content sl ++ [b])

/-- 40_slot_buffer R136, R137. What an exposed byte reads as is a free value, one for each allocation and offset: the
model's form of `unspecified` (log 7). -/
def Obligations.SbAlloc : Prop :=
  ∀ (s : State) (n : U32) (sl : Slot), Serves s .pool .p → s.pool.slots[s.pool.base.ring.writePos]? = some sl →
    (sl.max < n.toNat → exec (.sbAlloc n) s = .next (s.answer { status := .tooLarge, fields := [] })) ∧
    (n.toNat ≤ sl.max → ∃ sl' : Slot,
      exec (.sbAlloc n) s = .next (State.answer
        { s with
          pool := { s.pool with slots := s.pool.slots.set s.pool.base.ring.writePos sl' }
          freeIdx := s.freeIdx + 1 }
        { status := .ok, fields := [] }) ∧
      sl'.max = sl.max ∧ sl'.size = n.toNat ∧
      sl'.cap = (if s.pool.base.straps.slotKind = .dynamic then n.toNat else sl.cap) ∧
      ∀ off, byteAt sl' off = Config.freeByte s.freeIdx off)

/-- 40_slot_buffer R139: two machines whose pools differ only in the Slot Buffer variant and in `cap` answer every
sequence of pool commands alike, and still differ in nothing else. -/
def Obligations.SlotVariantsAgree : Prop :=
  ∀ (is : List Instr) (s t : State), (∀ i ∈ is, (commandHome i).1 = .pool) → forgetCap s = forgetCap t →
    (∃ s' t', runAll is s = .next s' ∧ runAll is t = .next t' ∧ forgetCap s' = forgetCap t') ∨
    ∃ f, runAll is s = .fault f ∧ runAll is t = .fault f

/-! ### The decoder's commands -/

/-- 42_decoder_base R192, 20_memory R75, the stream protocols: `DEC_PUSH` is the loop over the bytes of its buffer. A turn
that ends after `j` bytes has fed those bytes, answers nothing unless one of them ended the call, and keeps the others;
the next turn goes on with them, on the decoder as it then is. The quantum of a turn is the model's (log 4). -/
def Obligations.DecPushStream : Prop :=
  (∀ (s : State) (buf : List Byte), Serves s .dec .p → s.dec.base.straps.proto ≠ .seqpacket →
    s.dec.slots.length = s.dec.base.straps.n → s.dec.base.ring.writePos < s.dec.base.straps.n →
    (WholeTurn s → exec (.decPush buf) s = .next (State.answer
      { s with dec := { (pushLoop s.dec 0 buf).1 with pushing := none } } (pushLoop s.dec 0 buf).2)) ∧
    ∀ (j : Nat) (d : DecInst) (r : Response), s.sel.quantum = some j → j ≤ buf.length →
      pushLoop s.dec 0 (buf.take j) = (d, r) →
      exec (.decPush buf) s = .next (
        if r.status = .ok then { s with dec := { d with pushing := some { rest := buf.drop j, consumed := j } } }
        else State.answer { s with dec := { d with pushing := none } } r)) ∧
  ∀ (s : State) (rest : List Input) (op : PushOp), s.inputs = .serve .dec .p none :: rest →
    s.dec.pushing = some op → s.dec.base.straps.proto ≠ .seqpacket →
    s.dec.slots.length = s.dec.base.straps.n → s.dec.base.ring.writePos < s.dec.base.straps.n →
    step s = .next (State.answer
      { s with
        sel := { kind := .dec, port := .p, quantum := none }
        inputs := rest
        dec := { (pushLoop s.dec op.consumed op.rest).1 with pushing := none } }
      (pushLoop s.dec op.consumed op.rest).2)

/-- 44_framing_decode R314 and 42_decoder_base R192, `SEQPACKET`: one datagram, its checks in order. -/
def Obligations.DecPushDatagram : Prop :=
  ∀ (s : State) (buf : List Byte) (cur : Slot), Serves s .dec .p → WholeTurn s →
    s.dec.base.straps.proto = .seqpacket → s.dec.slots[s.dec.base.ring.writePos]? = some cur →
    s.dec.base.straps.maxPayload ≤ cur.max →
    (∀ c : Cause,
      ((buf.length < 3 ∧ c = .shortHeader) ∨
        ∃ (h2 h1 h0 : Byte) (body : List Byte), buf = h2 :: h1 :: h0 :: body ∧
          ((h2.toNat * 65536 + h1.toNat * 256 + h0.toNat ≠ body.length ∧ c = .lenMismatch) ∨
            (h2.toNat * 65536 + h1.toNat * 256 + h0.toNat = body.length ∧ body = [] ∧ c = .emptyFrame) ∨
            (h2.toNat * 65536 + h1.toNat * 256 + h0.toNat = body.length ∧
              s.dec.base.straps.maxPayload < body.length ∧ body ≠ [] ∧ c = .oversize))) →
      exec (.decPush buf) s = .next (State.answer
        { s with dec := { s.dec with
            errCount := satAdd s.dec.errCount 1
            reports := s.dec.reports ++ [{ cause := c, info := 0#32 }]
            pushing := none } }
        (if s.dec.base.straps.errFatal then
          { status := .framingFatal, fields := leBytes 4 buf.length ++ [causeCode c] }
        else { status := .ok, fields := leBytes 4 buf.length ++ [0#8] }))) ∧
    ∀ (h2 h1 h0 : Byte) (body : List Byte), buf = h2 :: h1 :: h0 :: body →
      h2.toNat * 65536 + h1.toNat * 256 + h0.toNat = body.length → body ≠ [] →
      body.length ≤ s.dec.base.straps.maxPayload →
      ∃ sl : Slot, content sl = body ∧ sl.max = cur.max ∧
        (isFull s.dec.base = true →
          exec (.decPush buf) s = .next (State.answer
            { s with dec := { s.dec with
                slots := s.dec.slots.set s.dec.base.ring.writePos sl
                errCount := satAdd s.dec.errCount 1
                reports := s.dec.reports ++ [{ cause := .ringFull, info := 0#32 }]
                pushing := none } }
            { status := .ringFull, fields := leBytes 4 buf.length ++ [10#8] })) ∧
        (isFull s.dec.base = false →
          exec (.decPush buf) s = .next (State.answer
            { s with dec := { s.dec with
                base := published s.dec.base
                slots := s.dec.slots.set s.dec.base.ring.writePos sl
                pushing := none } }
            { status := .ok, fields := leBytes 4 buf.length ++ [0#8] }))

/-- 42_decoder_base R193: where one call over `a ++ b` answers `ST_OK`, a call over `a` and then one over `b` answer
`ST_OK` and leave the decoder as the one call would. -/
def Obligations.BurstIndependence : Prop :=
  ∀ (s : State) (a b : List Byte) (d : DecInst), Serves s .dec .p → WholeTurn s →
    s.dec.base.straps.proto ≠ .seqpacket →
    s.dec.slots.length = s.dec.base.straps.n → s.dec.base.ring.writePos < s.dec.base.straps.n →
    exec (.decPush (a ++ b)) s = .next (State.answer { s with dec := d }
      { status := .ok, fields := leBytes 4 (a.length + b.length) ++ [0#8] }) →
    ∃ d1 : DecInst,
      exec (.decPush a) s = .next (State.answer { s with dec := d1 }
        { status := .ok, fields := leBytes 4 a.length ++ [0#8] }) ∧
      exec (.decPush b) (State.answer { s with dec := d1 }
          { status := .ok, fields := leBytes 4 a.length ++ [0#8] }) =
        .next (State.answer
          (State.answer { s with dec := d } { status := .ok, fields := leBytes 4 a.length ++ [0#8] })
          { status := .ok, fields := leBytes 4 b.length ++ [0#8] })

/-- 42_decoder_base R204, R205; in a decoder of the invariant what is returned is never empty (R191). -/
def Obligations.DecPopPeek : Prop :=
  ∀ s : State, Serves s .dec .c →
    (s.dec.base.ring.readPos = s.dec.base.ring.writePos →
      exec .decPop s = .next (s.answer { status := .none, fields := [] }) ∧
      exec .decPeek s = .next (s.answer { status := .none, fields := [] })) ∧
    ∀ sl : Slot, s.dec.base.ring.readPos ≠ s.dec.base.ring.writePos →
      s.dec.slots[s.dec.base.ring.readPos]? = some sl →
      exec .decPop s = .next (State.answer { s with dec := { s.dec with base := released s.dec.base } }
        { status := .ok, fields := leBytes 4 sl.size ++ (List.range sl.size).map (byteAt sl) }) ∧
      exec .decPeek s = .next (s.answer
        { status := .ok, fields := leBytes 4 sl.size ++ (List.range sl.size).map (byteAt sl) }) ∧
      (DecOk s.dec → sl.size ≠ 0)

/-- 42_decoder_base R208, R209, on either port. -/
def Obligations.ErrorCounter : Prop :=
  ∀ (s : State) (q : PortId), Serves s .dec q →
    exec .decErrcnt s = .next (s.answer { status := .ok, fields := leBytes 4 s.dec.errCount.toNat }) ∧
    exec .decErrcntRst s = .next (State.answer { s with dec := { s.dec with errCount := 0#32 } }
      { status := .ok, fields := leBytes 4 s.dec.errCount.toNat })

/-- 42_decoder_base R207: every frame up to the snapshot is released, and nothing else of the decoder changes. -/
def Obligations.DecClear : Prop :=
  ∀ s : State, Serves s .dec .c → WholeTurn s → s.dec.base.ring.readPos < s.dec.base.straps.n →
    s.dec.base.ring.writePos < s.dec.base.straps.n →
    exec .decClear s = .next (State.answer
      { s with dec := { s.dec with
          base := { s.dec.base with ring := { s.dec.base.ring with
            readPos := s.dec.base.ring.writePos
            notifyCount :=
              if s.dec.base.straps.hasNotifier then s.dec.base.ring.notifyCount - queueSize s.dec.base
              else s.dec.base.ring.notifyCount } }
          clearing := none } }
      { status := .ok, fields := [] })

/-- 20_memory R75, 42_decoder_base R207, 70_reset R425: a `DEC_CLEAR` whose turn ends after `j` slots has released `j`
slots, answers nothing yet and keeps its snapshot `v`; its next turn releases the slots up to `v` and answers, whatever was
committed in between. The quantum of a turn is the model's (log 4). -/
def Obligations.DecClearInTurns : Prop :=
  (∀ (s : State) (j : Nat), Serves s .dec .c → s.sel.quantum = some j → s.dec.base.ring.readPos < s.dec.base.straps.n →
    s.dec.base.ring.writePos < s.dec.base.straps.n → j ≤ queueSize s.dec.base →
    exec .decClear s = .next
      { s with dec := { s.dec with
          base := { s.dec.base with ring := { s.dec.base.ring with
            readPos := (s.dec.base.ring.readPos + j) % s.dec.base.straps.n
            notifyCount :=
              if s.dec.base.straps.hasNotifier then s.dec.base.ring.notifyCount - j
              else s.dec.base.ring.notifyCount } }
          clearing := some s.dec.base.ring.writePos } }) ∧
  ∀ (s : State) (rest : List Input) (v : Nat), s.inputs = .serve .dec .c none :: rest → s.dec.clearing = some v →
    s.dec.base.ring.readPos < s.dec.base.straps.n → v < s.dec.base.straps.n →
    step s = .next (State.answer
      { s with
        sel := { kind := .dec, port := .c, quantum := none }
        inputs := rest
        dec := { s.dec with
          base := { s.dec.base with ring := { s.dec.base.ring with
            readPos := v
            notifyCount :=
              if s.dec.base.straps.hasNotifier then
                s.dec.base.ring.notifyCount - ringSize s.dec.base.straps.n s.dec.base.ring.readPos v
              else s.dec.base.ring.notifyCount } }
          clearing := none } }
      { status := .ok, fields := [] })

/-! ### Decode machines and their errors -/

/-- 44_framing_decode R272, R273, R274. -/
def Obligations.S8NoiseAndStart : Prop :=
  ∀ (d : DecInst) (cur : Slot) (b : Byte), d.base.straps.proto = .simple8 →
    (b ≠ d.base.straps.s8Stx → d.s8.inFrame = false → feedByte d cur b = (d, .none)) ∧
    (b = d.base.straps.s8Stx → d.s8.inFrame = false →
      feedByte d cur b =
        ({ d with
            s8 := { inFrame := true, esc := false, holdValid := false, hold := d.s8.hold, crc := b }
            slots := d.slots.set d.base.ring.writePos { cur with size := 0 } }, .none)) ∧
    (b = d.base.straps.s8Stx → d.s8.inFrame = true →
      feedByte d cur b =
        ({ d with
            s8 := { inFrame := true, esc := false, holdValid := false, hold := d.s8.hold, crc := b }
            slots := d.slots.set d.base.ring.writePos { cur with size := 0 }
            errCount := satAdd d.errCount 1
            reports := d.reports ++ [{ cause := .stxInFrame, info := 0#32 }] }, .discarded .stxInFrame))

/-- 44_framing_decode R276, R278, R279: `ETX` and `NTX` after `NTX`, and the escape prefix. -/
def Obligations.S8Escapes : Prop :=
  ∀ (d : DecInst) (cur : Slot), d.base.straps.proto = .simple8 → controlBytesDistinct d.base.straps = true →
    d.s8.inFrame = true →
    (d.s8.esc = true → feedByte d cur d.base.straps.s8Etx =
      ({ d with
          s8 := { d.s8 with inFrame := false, esc := false, holdValid := false }
          errCount := satAdd d.errCount 1
          reports := d.reports ++ [{ cause := .etxAfterNtx, info := 0#32 }] }, .discarded .etxAfterNtx)) ∧
    (d.s8.esc = true → feedByte d cur d.base.straps.s8Ntx =
      ({ d with
          s8 := { d.s8 with inFrame := false, esc := false, holdValid := false }
          errCount := satAdd d.errCount 1
          reports := d.reports ++ [{ cause := .ntxAfterNtx, info := 0#32 }] }, .discarded .ntxAfterNtx)) ∧
    (d.s8.esc = false → feedByte d cur d.base.straps.s8Ntx =
      ({ d with s8 := { d.s8 with esc := true } }, .none))

/-- 44_framing_decode R280: a data byte in a frame, with and without the CRC; `x` is the byte unescaped. -/
def Obligations.S8Data : Prop :=
  ∀ (d : DecInst) (cur : Slot) (b x : Byte), d.base.straps.proto = .simple8 → d.s8.inFrame = true →
    b ≠ d.base.straps.s8Stx → b ≠ d.base.straps.s8Etx → b ≠ d.base.straps.s8Ntx →
    x = (if d.s8.esc then b ^^^ 0x80#8 else b) →
    (d.base.straps.s8CrcEn = false → cur.size ≠ cur.max →
      ∃ cur', slotAppend d.base.straps.slotKind cur x = some cur' ∧
        feedByte d cur b =
          ({ d with
              s8 := { d.s8 with esc := false }
              slots := d.slots.set d.base.ring.writePos cur' }, .none)) ∧
    (d.base.straps.s8CrcEn = true → d.s8.holdValid = false →
      feedByte d cur b = ({ d with s8 := { d.s8 with esc := false, hold := x, holdValid := true } }, .none)) ∧
    (d.base.straps.s8CrcEn = true → d.s8.holdValid = true → cur.size ≠ cur.max →
      ∃ cur', slotAppend d.base.straps.slotKind cur d.s8.hold = some cur' ∧
        feedByte d cur b =
          ({ d with
              s8 := { d.s8 with
                esc := false, hold := x, holdValid := true, crc := crc8Step d.base.straps d.s8.crc d.s8.hold }
              slots := d.slots.set d.base.ring.writePos cur' }, .none)) ∧
    ((d.base.straps.s8CrcEn = true → d.s8.holdValid = true) → cur.size = cur.max →
      feedByte d cur b =
        ({ d with
            s8 := { d.s8 with inFrame := false, esc := false, holdValid := false }
            errCount := satAdd d.errCount 1
            reports := d.reports ++ [{ cause := .oversize, info := 0#32 }] }, .discarded .oversize))

/-- 44_framing_decode R282: `ETX` ends the frame: empty before CRC before `commit()`. -/
def Obligations.S8End : Prop :=
  ∀ (d : DecInst) (cur : Slot), d.base.straps.proto = .simple8 → controlBytesDistinct d.base.straps = true →
    d.s8.inFrame = true → d.s8.esc = false →
    ((cur.size = 0 ∨ (d.base.straps.s8CrcEn = true ∧ d.s8.holdValid = false)) →
      feedByte d cur d.base.straps.s8Etx = framingError d .emptyFrame) ∧
    (cur.size ≠ 0 → d.base.straps.s8CrcEn = true → d.s8.holdValid = true → d.s8.hold ≠ d.s8.crc →
      feedByte d cur d.base.straps.s8Etx = framingError d .badCrc) ∧
    (cur.size ≠ 0 → (d.base.straps.s8CrcEn = true → d.s8.holdValid = true ∧ d.s8.hold = d.s8.crc) →
      feedByte d cur d.base.straps.s8Etx = commit d)

/-- 44_framing_decode R284: the source's malformed sequence counts exactly three errors and ends idle, in either CRC mode. -/
def Obligations.S8WorkedCheck : Prop :=
  ∀ s : State, Serves s .dec .p → WholeTurn s → s.dec.base.straps.proto = .simple8 →
    controlBytesDistinct s.dec.base.straps = true → s.dec.base.straps.errFatal = false → s.dec.s8.inFrame = false →
    s.dec.base.ring.writePos < s.dec.slots.length →
    ∃ d : DecInst,
      exec (.decPush [s.dec.base.straps.s8Stx, s.dec.base.straps.s8Stx, s.dec.base.straps.s8Ntx,
          s.dec.base.straps.s8Ntx, s.dec.base.straps.s8Stx, s.dec.base.straps.s8Ntx, s.dec.base.straps.s8Etx]) s =
        .next (State.answer { s with dec := d } { status := .ok, fields := leBytes 4 7 ++ [0#8] }) ∧
      d.errCount = satAdd s.dec.errCount 3 ∧
      d.reports = s.dec.reports ++
        [{ cause := .stxInFrame, info := 0#32 }, { cause := .ntxAfterNtx, info := 0#32 },
          { cause := .etxAfterNtx, info := 0#32 }] ∧
      d.s8.inFrame = false ∧ d.s8.esc = false ∧ d.s8.holdValid = false ∧ d.base = s.dec.base

/-- 44_framing_decode R288, R289: seeking the two sync bytes, the noise counter, and `E_BAD_SYNC` with its length. -/
def Obligations.S16Sync : Prop :=
  ∀ (d : DecInst) (cur : Slot) (b : Byte), d.base.straps.proto = .simple16 →
    (d.s16.st = .sync0 → b = d.base.straps.s16Sync0 →
      feedByte d cur b = ({ d with s16 := { d.s16 with st := .sync1 } }, .none)) ∧
    (d.s16.st = .sync0 → b ≠ d.base.straps.s16Sync0 →
      feedByte d cur b = ({ d with s16 := { d.s16 with ignored := satAdd d.s16.ignored 1 } }, .none)) ∧
    (d.s16.st = .sync1 → b = d.base.straps.s16Sync1 → d.s16.ignored = 0#32 →
      feedByte d cur b = ({ d with s16 := { d.s16 with st := .lenLo } }, .none)) ∧
    (d.s16.st = .sync1 → b = d.base.straps.s16Sync1 → d.s16.ignored ≠ 0#32 →
      feedByte d cur b =
        ({ d with
            s16 := { d.s16 with st := .lenLo, ignored := 0#32 }
            errCount := satAdd d.errCount 1
            reports := d.reports ++ [{ cause := .badSync, info := d.s16.ignored }] }, .discarded .badSync)) ∧
    (d.s16.st = .sync1 → b ≠ d.base.straps.s16Sync1 → b = d.base.straps.s16Sync0 →
      feedByte d cur b = ({ d with s16 := { d.s16 with ignored := satAdd d.s16.ignored 1 } }, .none)) ∧
    (d.s16.st = .sync1 → b ≠ d.base.straps.s16Sync1 → b ≠ d.base.straps.s16Sync0 →
      feedByte d cur b = ({ d with s16 := { d.s16 with st := .sync0, ignored := satAdd d.s16.ignored 2 } }, .none))

/-- 44_framing_decode R290, R291: the length bytes; the complete length is checked, and the frame starts. -/
def Obligations.S16Header : Prop :=
  ∀ (d : DecInst) (cur : Slot) (b : Byte), d.base.straps.proto = .simple16 →
    (d.s16.st = .lenLo →
      feedByte d cur b = ({ d with s16 := { d.s16 with len := b.setWidth 16, st := .lenHi } }, .none)) ∧
    ∀ len : U16, d.s16.st = .lenHi → len = d.s16.len ||| (b.setWidth 16 <<< 8) →
      (len = 0#16 → feedByte d cur b = framingError { d with s16 := { d.s16 with len := len } } .emptyFrame) ∧
      (d.base.straps.maxPayload < len.toNat →
        len ≠ 0#16 → feedByte d cur b = framingError { d with s16 := { d.s16 with len := len } } .oversize) ∧
      (len ≠ 0#16 → len.toNat ≤ d.base.straps.maxPayload →
        feedByte d cur b =
          ({ d with
              s16 := { d.s16 with
                len := len
                remaining := len.toNat + (if d.base.straps.s16CrcEn then 2 else 0)
                crc := crc16 d.base.straps
                  (if d.base.straps.s16CrcSync then
                    crc16 d.base.straps d.base.straps.s16CrcInit [d.base.straps.s16Sync0, d.base.straps.s16Sync1]
                  else d.base.straps.s16CrcInit) (le16 len)
                crcRx := 0#16
                st := .payload }
              slots := d.slots.set d.base.ring.writePos { cur with size := 0 } }, .none))

/-- 44_framing_decode R292, R293: payload bytes, CRC bytes, and the end of the frame. -/
def Obligations.S16Payload : Prop :=
  ∀ (d : DecInst) (cur : Slot) (b : Byte), d.base.straps.proto = .simple16 → d.s16.st = .payload →
    (∀ d' cur', cur.size ≠ cur.max → (d.base.straps.s16CrcEn = true → 2 < d.s16.remaining) →
      slotAppend d.base.straps.slotKind cur b = some cur' →
      d' = { d with
        s16 := { d.s16 with crc := crc16Step d.base.straps d.s16.crc b, remaining := d.s16.remaining - 1 }
        slots := d.slots.set d.base.ring.writePos cur' } →
      (1 < d.s16.remaining → feedByte d cur b = (d', .none)) ∧
      (d.s16.remaining = 1 → d.base.straps.s16CrcEn = false → feedByte d cur b = commit d')) ∧
    (d.base.straps.s16CrcEn = true → d.s16.remaining = 2 →
      feedByte d cur b = ({ d with s16 := { d.s16 with crcRx := b.setWidth 16, remaining := 1 } }, .none)) ∧
    (∀ crc : U16, d.base.straps.s16CrcEn = true → d.s16.remaining = 1 →
      crc = d.s16.crcRx ||| (b.setWidth 16 <<< 8) →
      (crc ≠ d.s16.crc →
        feedByte d cur b = framingError { d with s16 := { d.s16 with crcRx := crc, remaining := 0 } } .badCrc) ∧
      (crc = d.s16.crc →
        feedByte d cur b = commit { d with s16 := { d.s16 with crcRx := crc, remaining := 0 } }))

/-- 44_framing_decode R300 to R304, R306: the six header states of Packet. -/
def Obligations.PktHeader : Prop :=
  ∀ (d : DecInst) (cur : Slot) (b : Byte), d.base.straps.proto = .packet →
    (d.pkt.st = .magic0 → feedByte d cur b =
      ({ d with pkt := { d.pkt with st := if b = d.base.straps.pktMagic0 then .magic1 else .magic0 } }, .none)) ∧
    (d.pkt.st = .magic1 → feedByte d cur b =
      ({ d with pkt := { d.pkt with st :=
          if b = d.base.straps.pktMagic1 then .crc
          else if b = d.base.straps.pktMagic0 then .magic1 else .magic0 } }, .none)) ∧
    (d.pkt.st = .crc → feedByte d cur b = ({ d with pkt := { d.pkt with crcRx := b, st := .len2 } }, .none)) ∧
    (d.pkt.st = .len2 →
      feedByte d cur b = ({ d with pkt := { d.pkt with len := b.setWidth 24 <<< 16, st := .len1 } }, .none)) ∧
    (d.pkt.st = .len1 → feedByte d cur b =
      ({ d with pkt := { d.pkt with len := d.pkt.len ||| (b.setWidth 24 <<< 8), st := .len0 } }, .none)) ∧
    ∀ len : U24, d.pkt.st = .len0 → len = d.pkt.len ||| b.setWidth 24 →
      (len = 0#24 → feedByte d cur b = framingError { d with pkt := { d.pkt with len := len } } .emptyFrame) ∧
      (d.base.straps.maxPayload < len.toNat → len ≠ 0#24 →
        feedByte d cur b = framingError { d with pkt := { d.pkt with len := len } } .oversize) ∧
      (len ≠ 0#24 → len.toNat ≤ d.base.straps.maxPayload →
        feedByte d cur b =
          ({ d with
              pkt := { d.pkt with len := len, remaining := len, crc := 19#8, cnt := 0, st := .payload }
              slots := d.slots.set d.base.ring.writePos { cur with size := 0 } }, .none))

/-- 44_framing_decode R307, R308: a payload byte inside the CRC window, the byte that closes it, and a byte after it. -/
def Obligations.PktPayload : Prop :=
  ∀ (d d1 d2 : DecInst) (cur cur' : Slot) (b : Byte), d.base.straps.proto = .packet → d.pkt.st = .payload →
    slotAppend d.base.straps.slotKind cur b = some cur' →
    d1 = { d with
      pkt := { d.pkt with remaining := d.pkt.remaining - 1#24 }
      slots := d.slots.set d.base.ring.writePos cur' } →
    d2 = { d1 with pkt := { d1.pkt with crc := crc8Step d.base.straps d.pkt.crc b, cnt := d.pkt.cnt + 1 } } →
    (d.pkt.cnt < min 16 d.pkt.len.toNat → d.pkt.cnt + 1 = min 16 d.pkt.len.toNat → d2.pkt.crc ≠ d.pkt.crcRx →
      feedByte d cur b = framingError d2 .badCrc) ∧
    (d.pkt.cnt < min 16 d.pkt.len.toNat →
      (d.pkt.cnt + 1 = min 16 d.pkt.len.toNat → d2.pkt.crc = d.pkt.crcRx) →
      feedByte d cur b = if d.pkt.remaining = 1#24 then commit d2 else (d2, .none)) ∧
    (min 16 d.pkt.len.toNat ≤ d.pkt.cnt →
      feedByte d cur b = if d.pkt.remaining = 1#24 then commit d1 else (d1, .none))

/-- 42_decoder_base R196, R197, R198, R200: an error is counted and reported and the machine seeks sync; a complete
frame is published, or dropped, counted and reported where the ring is full. -/
def Obligations.CommitAndErrorEntry : Prop :=
  ∀ d e : DecInst,
    e = { d with
      s8 := if d.base.straps.proto = .simple8 then
          { d.s8 with inFrame := false, esc := false, holdValid := false } else d.s8
      s16 := if d.base.straps.proto = .simple16 then { d.s16 with st := .sync0 } else d.s16
      pkt := if d.base.straps.proto = .packet then { d.pkt with st := .magic0 } else d.pkt } →
    (∀ c : Cause, framingError d c =
      ({ e with
          errCount := satAdd d.errCount 1
          reports := d.reports ++ [{ cause := c, info := 0#32 }] }, .discarded c)) ∧
    (isFull d.base = true → commit d =
      ({ e with
          errCount := satAdd d.errCount 1
          reports := d.reports ++ [{ cause := .ringFull, info := 0#32 }] }, .ringFull)) ∧
    (isFull d.base = false → commit d = ({ e with base := published d.base }, .committed))

/-- 42_decoder_base R211: one count, and one report of the cause, for every `DISCARDED` and every `RING_FULL`; none
otherwise; the counter saturates. -/
def Obligations.ErrorsCounted : Prop :=
  (∀ (d : DecInst) (cur : Slot) (ev : FrameEvent) (d' : DecInst),
    ((∃ b, feedByte d cur b = (d', ev)) ∨ ∃ buf, decodeSeq d cur buf = (d', ev)) →
    ((ev = .none ∨ ev = .committed) → d'.errCount = d.errCount ∧ d'.reports = d.reports) ∧
    (∀ c, (ev = .discarded c ∨ (ev = .ringFull ∧ c = .ringFull)) →
      d'.errCount = satAdd d.errCount 1 ∧
      d'.reports = d.reports ++ [{ cause := c, info := if c = .badSync then d.s16.ignored else 0#32 }])) ∧
  ∀ x : U32, (satAdd x 1).toNat = min (x.toNat + 1) (2 ^ 32 - 1)

/-- 42_decoder_base R212: where each event leaves the parse state. After a commit, a drop and every error but two it is
the reset parse state; that no uncounted noise is left in a Simple16 decoder rests on the parse state it had
(`ParseOk`, part of the invariant). -/
def Obligations.ErrorsDoNotLeak : Prop :=
  ∀ (d d' : DecInst) (cur : Slot) (b : Byte) (ev : FrameEvent), feedByte d cur b = (d', ev) →
    ((ev = .committed ∨ ev = .ringFull ∨ ∃ c, ev = .discarded c ∧ c ≠ .badSync ∧ c ≠ .stxInFrame) →
      SeekingSync d' ∧ ((d.base.straps.proto = .simple16 → ParseOk d cur) → ResetParse d')) ∧
    (ev = .discarded .stxInFrame →
      d'.s8.inFrame = true ∧ d'.s8.esc = false ∧ d'.s8.holdValid = false ∧ d'.s8.crc = d.base.straps.s8Stx) ∧
    (ev = .discarded .badSync → d'.s16.st = .lenLo ∧ d'.s16.ignored = 0#32)

/-! ### The encoder -/

/-- 43_encoder_base R236: the four outcomes in their order; on success the slot holds the frame of the message. -/
def Obligations.EncPush : Prop :=
  ∀ (s : State) (msg : List Byte) (sl : Slot), Serves s .enc .p →
    s.enc.slots[s.enc.base.ring.writePos]? = some sl → sl.max = encSlotMax s.enc.base.straps →
    (msg = [] → exec (.encPush msg) s = .next (s.answer { status := .emptyMessage, fields := [] })) ∧
    (msg ≠ [] → s.enc.base.straps.maxPayload < msg.length →
      exec (.encPush msg) s = .next (s.answer { status := .tooLarge, fields := [] })) ∧
    (msg ≠ [] → msg.length ≤ s.enc.base.straps.maxPayload → isFull s.enc.base = true →
      exec (.encPush msg) s = .next (s.answer { status := .ringFull, fields := [] })) ∧
    (msg ≠ [] → msg.length ≤ s.enc.base.straps.maxPayload → isFull s.enc.base = false →
      ∃ sl' : Slot,
        exec (.encPush msg) s = .next (State.answer
          { s with enc := { s.enc with
              base := published s.enc.base
              slots := s.enc.slots.set s.enc.base.ring.writePos sl' } } { status := .ok, fields := [] }) ∧
        content sl' = frame s.enc.base.straps msg ∧ sl'.size = (frame s.enc.base.straps msg).length ∧
        sl'.max = sl.max ∧
        sl'.cap = if s.enc.base.straps.slotKind = .dynamic then (frame s.enc.base.straps msg).length else sl.cap)

/-- 45_framing_encode R342, R345, R348, R350: the bytes of the four frames; `esc` is the escape of 30_encoding R95. -/
def Obligations.FrameBytes : Prop :=
  ∀ (st : Straps) (p : List Byte) (esc : Byte → List Byte),
    (∀ b, esc b = if b = st.s8Stx ∨ b = st.s8Etx ∨ b = st.s8Ntx then [st.s8Ntx, b ^^^ 0x80#8] else [b]) →
    (st.proto = .simple8 →
      frame st p = st.s8Stx :: (p.map esc).flatten ++
        (if st.s8CrcEn then esc (p.foldl (crc8Step st) st.s8Stx) else []) ++ [st.s8Etx]) ∧
    (st.proto = .simple16 → ∀ c : U16,
      c = (le16 (BitVec.ofNat 16 p.length) ++ p).foldl (crc16Step st)
        (if st.s16CrcSync then [st.s16Sync0, st.s16Sync1].foldl (crc16Step st) st.s16CrcInit else st.s16CrcInit) →
      frame st p = [st.s16Sync0, st.s16Sync1] ++ le16 (BitVec.ofNat 16 p.length) ++ p ++
        (if st.s16CrcEn then le16 c else [])) ∧
    (st.proto = .packet →
      frame st p = [st.pktMagic0, st.pktMagic1, (p.take 16).foldl (crc8Step st) 19#8] ++
        be24 (BitVec.ofNat 24 p.length) ++ p) ∧
    (st.proto = .seqpacket → frame st p = be24 (BitVec.ofNat 24 p.length) ++ p)

/-- 45_framing_encode R341: an encoded frame fits its slot; and 43_encoder_base R231: it has at least three bytes. -/
def Obligations.FrameLengthBound : Prop :=
  ∀ (st : Straps) (p : List Byte), 1 ≤ p.length → p.length ≤ st.maxPayload →
    (frame st p).length ≤ encSlotMax st ∧ 3 ≤ (frame st p).length

/-- 30_encoding R97: in a Simple8 frame `STX` is only the first byte and `ETX` only the last. -/
def Obligations.S8FrameMarkers : Prop :=
  ∀ (st : Straps) (p : List Byte), controlBytesDistinct st = true →
    ∃ mid : List Byte, frameS8 st p = st.s8Stx :: mid ++ [st.s8Etx] ∧ st.s8Stx ∉ mid ∧ st.s8Etx ∉ mid

/-- 43_encoder_base R240: a fill returns the first bytes of what is pending and changes nothing. -/
def Obligations.EncFillStream : Prop :=
  ∀ (s : State) (maxLen : U32), EncOk s.enc → Serves s .enc .c → s.enc.base.straps.proto ≠ .seqpacket →
    exec (.encFill maxLen) s = .next (s.answer
      { status := .ok
        fields := leBytes 4 (min maxLen.toNat (pendingStream s.enc).length) ++
          (pendingStream s.enc).take maxLen.toNat })

/-- 43_encoder_base R244, 20_memory R75: more than is pending is refused; otherwise exactly `len` bytes of what is pending
are acknowledged, and only the read cursor, the notifier and `front_off` change. A turn that ends after `j` atomic steps
with `rem` bytes to go has acknowledged the others and released `j` slots, and answers nothing; the next turn
acknowledges the `rem` bytes and answers, whatever was committed in between. The quantum of a turn is the model's
(log 4). -/
def Obligations.EncMoveStream : Prop :=
  (∀ (s : State) (len : U32), EncOk s.enc → Serves s .enc .c → s.enc.base.straps.proto ≠ .seqpacket →
    ((pendingStream s.enc).length < len.toNat →
      exec (.encMove len) s = .next (s.answer { status := .badLen, fields := [] })) ∧
    (len.toNat ≤ (pendingStream s.enc).length → WholeTurn s → ∃ e : EncInst,
      Acknowledged len.toNat s.enc e ∧ e.pulling = none ∧
      exec (.encMove len) s = .next (State.answer { s with enc := e } { status := .ok, fields := [] })) ∧
    ∀ j : Nat, len.toNat ≤ (pendingStream s.enc).length → s.sel.quantum = some j →
      ∃ (e : EncInst) (rem : Nat), rem ≤ len.toNat ∧ Acknowledged (len.toNat - rem) s.enc e ∧
        (0 < rem → queueSize e.base + j = queueSize s.enc.base) ∧
        ((e.pulling = some (.move rem) ∧ exec (.encMove len) s = .next { s with enc := e }) ∨
          (rem = 0 ∧ e.pulling = none ∧
            exec (.encMove len) s = .next (State.answer { s with enc := e } { status := .ok, fields := [] })))) ∧
  ∀ (s : State) (rest : List Input) (rem : Nat), EncOk s.enc → s.enc.base.configured = true →
    s.inputs = .serve .enc .c none :: rest → s.enc.pulling = some (.move rem) →
    ∃ e : EncInst, Acknowledged rem s.enc e ∧ e.pulling = none ∧
      step s = .next (State.answer
        { s with sel := { kind := .enc, port := .c, quantum := none }, inputs := rest, enc := e }
        { status := .ok, fields := [] })

/-- 43_encoder_base R242, R246: the datagram variants take exactly one whole frame, which in an encoder of the
invariant is never empty. -/
def Obligations.EncDatagram : Prop :=
  ∀ (s : State) (n : U32), Serves s .enc .c → s.enc.base.straps.proto = .seqpacket →
    (s.enc.base.ring.readPos = s.enc.base.ring.writePos →
      exec (.encFill n) s = .next (s.answer { status := .ok, fields := leBytes 4 0 }) ∧
      exec (.encMove n) s = .next (s.answer { status := .badLen, fields := [] })) ∧
    ∀ sl : Slot, s.enc.base.ring.readPos ≠ s.enc.base.ring.writePos →
      s.enc.slots[s.enc.base.ring.readPos]? = some sl →
      (n.toNat < sl.size → exec (.encFill n) s = .next (s.answer { status := .bufTooSmall, fields := [] })) ∧
      (sl.size ≤ n.toNat → exec (.encFill n) s = .next (s.answer
        { status := .ok, fields := leBytes 4 sl.size ++ (List.range sl.size).map (byteAt sl) })) ∧
      (n.toNat ≠ sl.size → exec (.encMove n) s = .next (s.answer { status := .badLen, fields := [] })) ∧
      (n.toNat = sl.size → exec (.encMove n) s = .next (State.answer
        { s with enc := { s.enc with base := released s.enc.base } } { status := .ok, fields := [] })) ∧
      (EncOk s.enc → sl.size ≠ 0)

/-- 43_encoder_base R248, 20_memory R75: `front_off` is cleared and every frame up to the snapshot is released. A turn that
ends after `j` slots has released `j` slots, answers nothing and keeps the snapshot `v`; the next turn releases the slots
up to `v` and answers, whatever was committed in between. The quantum of a turn is the model's (log 4). -/
def Obligations.EncClear : Prop :=
  (∀ s : State, Serves s .enc .c → s.enc.base.ring.readPos < s.enc.base.straps.n →
    s.enc.base.ring.writePos < s.enc.base.straps.n →
    (WholeTurn s → exec .encClear s = .next (State.answer
      { s with enc := { s.enc with
          base := { s.enc.base with ring := { s.enc.base.ring with
            readPos := s.enc.base.ring.writePos
            notifyCount :=
              if s.enc.base.straps.hasNotifier then s.enc.base.ring.notifyCount - queueSize s.enc.base
              else s.enc.base.ring.notifyCount } }
          frontOff := 0
          pulling := none } }
      { status := .ok, fields := [] })) ∧
    ∀ j : Nat, s.sel.quantum = some j → j ≤ queueSize s.enc.base →
      exec .encClear s = .next
        { s with enc := { s.enc with
            base := { s.enc.base with ring := { s.enc.base.ring with
              readPos := (s.enc.base.ring.readPos + j) % s.enc.base.straps.n
              notifyCount :=
                if s.enc.base.straps.hasNotifier then s.enc.base.ring.notifyCount - j
                else s.enc.base.ring.notifyCount } }
            frontOff := 0
            pulling := some (.clear s.enc.base.ring.writePos) } }) ∧
  ∀ (s : State) (rest : List Input) (v : Nat), s.inputs = .serve .enc .c none :: rest →
    s.enc.pulling = some (.clear v) → s.enc.base.ring.readPos < s.enc.base.straps.n → v < s.enc.base.straps.n →
    step s = .next (State.answer
      { s with
        sel := { kind := .enc, port := .c, quantum := none }
        inputs := rest
        enc := { s.enc with
          base := { s.enc.base with ring := { s.enc.base.ring with
            readPos := v
            notifyCount :=
              if s.enc.base.straps.hasNotifier then
                s.enc.base.ring.notifyCount - ringSize s.enc.base.straps.n s.enc.base.ring.readPos v
              else s.enc.base.ring.notifyCount } }
          pulling := none } }
      { status := .ok, fields := [] })

/-- 43_encoder_base R250: the oldest queued slots, at most `GATHER_K`, each with its unacknowledged part. The count byte
of more than 255 descriptors is a free value (log 10). -/
def Obligations.EncGather : Prop :=
  ∀ (s : State) (m : Nat) (idx off : Nat → Nat), EncOk s.enc → Serves s .enc .c →
    m = min s.enc.base.straps.gatherK (queueSize s.enc.base) →
    (∀ j, idx j = (s.enc.base.ring.readPos + j) % s.enc.base.straps.n) →
    (∀ j, off j = if j = 0 then s.enc.frontOff else 0) →
    exec .encGather s = .next (s.answer
      { status := .ok
        fields := (if m ≤ 255 then BitVec.ofNat 8 m else Config.gatherCount m) ::
          (List.range m).flatMap fun j =>
            leBytes 2 (idx j) ++ leBytes 4 (off j) ++
              leBytes 4 (((s.enc.slots[idx j]?).map Slot.size).getD 0 - off j) })

/-! ### The whole machine -/

/-- 44_framing_decode R316: for every protocol, a decoder that is seeking sync and not full, fed the frame of a
message, commits exactly that message, counts no error and is seeking sync again. The noise counter of Simple16 is
taken to be clear, and is clear again at the end: noise still uncounted would be counted when the frame's sync is found
(R289). -/
def Obligations.RoundTrip : Prop :=
  ∀ (s : State) (p : List Byte), DecOk s.dec → Serves s .dec .p → WholeTurn s → SeekingSync s.dec →
    (s.dec.base.straps.proto = .simple16 → s.dec.s16.ignored = 0#32) → isFull s.dec.base = false →
    1 ≤ p.length → p.length ≤ s.dec.base.straps.maxPayload →
    ∃ d : DecInst,
      exec (.decPush (frame s.dec.base.straps p)) s = .next (State.answer { s with dec := d }
        { status := .ok, fields := leBytes 4 (frame s.dec.base.straps p).length ++ [0#8] }) ∧
      d.base = published s.dec.base ∧ slotQueue d.base d.slots = slotQueue s.dec.base s.dec.slots ++ [p] ∧
      d.errCount = s.dec.errCount ∧ d.reports = s.dec.reports ∧ SeekingSync d ∧
      (s.dec.base.straps.proto = .simple16 → d.s16.ignored = 0#32)

/-- 10_state R21 to R39, 40_slot_buffer R130, 42_decoder_base R191, 43_encoder_base R231, R233: every step keeps the
invariant, whatever the drivers do. That the slots of a pool hold `MAX_PAYLOAD` bytes is the model's reading (log 12). -/
def Obligations.StepKeepsInv : Prop :=
  ∀ s t : State, StateOk s → step s = .next t → StateOk t

/-- 10_state R44, 70_reset R411: the invariant holds right after reset. The straps are the model's choice (log 3). -/
def Obligations.ResetInv : Prop := StateOk State.reset

/-- 60_exceptions R387, 70_reset R431, 20_memory R68: nothing stops the machine: from every state of the invariant a
step gives a next state. -/
def Obligations.StepNeverStops : Prop :=
  ∀ s : State, StateOk s → ∃ t, step s = .next t

/-- 10_state R23, 41_ring R152: a turn of port `P` moves no `read_pos`, a turn of port `C` no `write_pos`, and the cursor
it owns moves by `m` single advances. In a state of the invariant these never pass the other cursor: `P` makes at most
as many as there is room for, `C` as there are slots queued, and the number of queued slots changes by exactly `m`. -/
def Obligations.CursorOwnership : Prop :=
  ∀ (s t : State) (k : Kind) (q : PortId) (quantum : Option Nat) (rest : List Input),
    s.inputs = .serve k q quantum :: rest → step s = .next t →
    (q = .p → (t.base k).ring.readPos = (s.base k).ring.readPos ∧
      ∃ m, (t.base k).ring.writePos = (ringNext (s.base k).straps.n)^[m] (s.base k).ring.writePos ∧
        (StateOk s → m ≤ (s.base k).straps.n - 1 - queueSize (s.base k) ∧
          queueSize (t.base k) = queueSize (s.base k) + m)) ∧
    (q = .c → (t.base k).ring.writePos = (s.base k).ring.writePos ∧
      ∃ m, (t.base k).ring.readPos = (ringNext (s.base k).straps.n)^[m] (s.base k).ring.readPos ∧
        (StateOk s → m ≤ queueSize (s.base k) ∧ queueSize (t.base k) + m = queueSize (s.base k)))

/-- 20_memory R61, R70: a turn of port `P` changes no committed slot, and a turn of port `C` changes no slot of a pool
ring, and none of a general ring that is not committed. -/
def Obligations.ExclusiveAccess : Prop :=
  ∀ (s t : State) (k : Kind) (q : PortId) (quantum : Option Nat) (rest : List Input), StateOk s →
    s.inputs = .serve k q quantum :: rest → step s = .next t →
    (q = .p →
      (∀ i, Committed s.rg.base i → t.rg.slots[i]? = s.rg.slots[i]?) ∧
      (∀ i, Committed s.pool.base i → t.pool.slots[i]? = s.pool.slots[i]?) ∧
      (∀ i, Committed s.dec.base i → t.dec.slots[i]? = s.dec.slots[i]?) ∧
      ∀ i, Committed s.enc.base i → t.enc.slots[i]? = s.enc.slots[i]?) ∧
    (q = .c →
      t.pool.slots = s.pool.slots ∧ t.dec.slots = s.dec.slots ∧ t.enc.slots = s.enc.slots ∧
      ∀ i, ¬Committed s.rg.base i → t.rg.slots[i]? = s.rg.slots[i]?)

/-- 00_scope R12: a step that serves one instance leaves every other instance as it was; and what it does to the instance
served, its answer among it, depends on no other instance: in two states that agree on that instance it ends alike. What
a pool's `SB_ALLOC` exposes is a free value numbered by the model's counter `freeIdx` (log 7), so for a pool the two
states agree on the counter; no other kind of instance reads or moves it. -/
def Obligations.InstancesShareNothing : Prop :=
  (∀ (s t : State) (k : Kind) (q : PortId) (quantum : Option Nat) (rest : List Input),
    s.inputs = .serve k q quantum :: rest → step s = .next t →
    (k ≠ .rg → t.rg = s.rg) ∧ (k ≠ .pool → t.pool = s.pool) ∧ (k ≠ .dec → t.dec = s.dec) ∧ (k ≠ .enc → t.enc = s.enc) ∧
    (k ≠ .pool → t.freeIdx = s.freeIdx) ∧ t.inputs = rest) ∧
  ∀ (s s' t : State) (k : Kind) (q : PortId) (quantum : Option Nat) (rest rest' : List Input),
    s.inputs = .serve k q quantum :: rest → s'.inputs = .serve k q quantum :: rest' → SameInstance k s s' →
    (k = .pool → s.freeIdx = s'.freeIdx) → step s = .next t →
    ∃ t', step s' = .next t' ∧ SameInstance k t t' ∧ (k = .pool → t.freeIdx = t'.freeIdx)

/-- 60_exceptions R380, R381: in a state of the invariant a configured instance has its wake output high exactly when
it has a notifier and a slot queued, and the notifier counts the queued slots. -/
def Obligations.WakeTracksQueue : Prop :=
  ∀ (s : State) (k : Kind), StateOk s → (s.base k).configured = true →
    (wake (s.base k) = true ↔
      (s.base k).straps.hasNotifier = true ∧ (s.base k).ring.readPos ≠ (s.base k).ring.writePos) ∧
    ((s.base k).straps.hasNotifier = true →
      (s.base k).ring.notifyCount =
        ringSize (s.base k).straps.n (s.base k).ring.readPos (s.base k).ring.writePos ∧
      (s.base k).ring.notifyCount ≤ (s.base k).straps.n - 1)

/-- 00_scope R10: which straps construction accepts. Every kind of instance checks all of them: the model's reading
(DEDUCED, log 11). -/
def Obligations.ConstructionChecks : Prop :=
  ∀ st : Straps, strapsLegal st = true ↔
    2 ≤ st.n ∧ st.n ≤ 65536 ∧ 1 ≤ st.elemW ∧ 1 ≤ st.gatherK ∧ 1 ≤ st.maxPayload ∧
    (st.proto = .simple8 → st.maxPayload ≤ 2147483645) ∧ (st.proto = .simple16 → st.maxPayload ≤ 65535) ∧
    ((st.proto = .packet ∨ st.proto = .seqpacket) → st.maxPayload ≤ 16777215) ∧
    (st.proto = .simple8 →
      st.s8Stx &&& 0x7F#8 ≠ st.s8Etx &&& 0x7F#8 ∧ st.s8Stx &&& 0x7F#8 ≠ st.s8Ntx &&& 0x7F#8 ∧
      st.s8Etx &&& 0x7F#8 ≠ st.s8Ntx &&& 0x7F#8)

/-- 10_state R44, 70_reset R410, R411: the reset of an instance gives every element its reset value, with the straps it
samples, and touches no other instance. The elements the spec leaves unspecified are not mentioned. -/
def Obligations.ResetValues : Prop :=
  ∀ (s t : State) (k : Kind) (st : Straps) (rest : List Input),
    s.inputs = .reset k st :: rest → step s = .next t →
    ((t.base k).straps = st ∧ (t.base k).configured = strapsLegal st ∧ (t.base k).ring.readPos = 0 ∧
      (t.base k).ring.writePos = 0 ∧ (t.base k).ring.notifyCount = 0 ∧ wake (t.base k) = false) ∧
    (∀ j, j ≠ k → t.base j = s.base j) ∧ t.inputs = rest ∧
    (if k = .rg then t.rg.slots = List.replicate st.n none else t.rg = s.rg) ∧
    (if k = .pool then t.pool.slots.length = st.n ∧ ∀ sl ∈ t.pool.slots,
        sl.size = 0 ∧ sl.cap = if st.slotKind = .fixed then sl.max else 0
      else t.pool = s.pool) ∧
    (if k = .dec then
        (t.dec.slots.length = st.n ∧ ∀ sl ∈ t.dec.slots, sl.max = st.maxPayload ∧ sl.size = 0 ∧
          sl.cap = if st.slotKind = .fixed then sl.max else 0) ∧
        t.dec.errCount = 0#32 ∧ t.dec.s8.inFrame = false ∧ t.dec.s8.esc = false ∧ t.dec.s8.holdValid = false ∧
        t.dec.s16.st = .sync0 ∧ t.dec.s16.ignored = 0#32 ∧ t.dec.pkt.st = .magic0
      else t.dec = s.dec) ∧
    (if k = .enc then
        (t.enc.slots.length = st.n ∧ ∀ sl ∈ t.enc.slots, sl.max = encSlotMax st ∧ sl.size = 0 ∧
          sl.cap = if st.slotKind = .fixed then sl.max else 0) ∧ t.enc.frontOff = 0
      else t.enc = s.enc)
end

