-- ==== Sys2Proof/Laws/State.lean ====
section
/-! SUPPORT. One small lemma per field per update of the state: no later proof unfolds a record update. -/
namespace Sys2Proof.Machine

/-! ### Ports of a base -/

@[simp] theorem basePort_p (b : Base) : basePort b .p = b.p := rfl
@[simp] theorem basePort_c (b : Base) : basePort b .c = b.c := rfl
@[simp] theorem setBasePort_straps (b : Base) (q : PortId) (x : Port) : (setBasePort b q x).straps = b.straps := by
  cases q <;> rfl
@[simp] theorem setBasePort_configured (b : Base) (q : PortId) (x : Port) :
    (setBasePort b q x).configured = b.configured := by cases q <;> rfl
@[simp] theorem setBasePort_ring (b : Base) (q : PortId) (x : Port) : (setBasePort b q x).ring = b.ring := by
  cases q <;> rfl
@[simp] theorem basePort_setBasePort (b : Base) (q : PortId) (x : Port) : basePort (setBasePort b q x) q = x := by
  cases q <;> rfl
@[simp] theorem setBasePort_setBasePort (b : Base) (q : PortId) (x y : Port) :
    setBasePort (setBasePort b q x) q y = setBasePort b q y := by cases q <;> rfl
@[simp] theorem setBasePort_p_p (b : Base) (x : Port) : (setBasePort b .p x).p = x := rfl
@[simp] theorem setBasePort_p_c (b : Base) (x : Port) : (setBasePort b .p x).c = b.c := rfl
@[simp] theorem setBasePort_c_p (b : Base) (x : Port) : (setBasePort b .c x).p = b.p := rfl
@[simp] theorem setBasePort_c_c (b : Base) (x : Port) : (setBasePort b .c x).c = x := rfl

/-! ### The base of an instance -/

@[simp] theorem base_rg (s : State) : s.base .rg = s.rg.base := rfl
@[simp] theorem base_pool (s : State) : s.base .pool = s.pool.base := rfl
@[simp] theorem base_dec (s : State) : s.base .dec = s.dec.base := rfl
@[simp] theorem base_enc (s : State) : s.base .enc = s.enc.base := rfl
@[simp] theorem setBase_sel (s : State) (k : Kind) (b : Base) : (s.setBase k b).sel = s.sel := by cases k <;> rfl
@[simp] theorem setBase_inputs (s : State) (k : Kind) (b : Base) : (s.setBase k b).inputs = s.inputs := by
  cases k <;> rfl
@[simp] theorem setBase_freeIdx (s : State) (k : Kind) (b : Base) : (s.setBase k b).freeIdx = s.freeIdx := by
  cases k <;> rfl
@[simp] theorem base_setBase (s : State) (k : Kind) (b : Base) : (s.setBase k b).base k = b := by cases k <;> rfl
theorem base_setBase_ne (s : State) {k j : Kind} (b : Base) (h : j ≠ k) : (s.setBase k b).base j = s.base j := by
  cases k <;> cases j <;> first | rfl | exact absurd rfl h
@[simp] theorem setBase_rg_rg (s : State) (b : Base) : (s.setBase .rg b).rg = { s.rg with base := b } := rfl
@[simp] theorem setBase_rg_pool (s : State) (b : Base) : (s.setBase .rg b).pool = s.pool := rfl
@[simp] theorem setBase_rg_dec (s : State) (b : Base) : (s.setBase .rg b).dec = s.dec := rfl
@[simp] theorem setBase_rg_enc (s : State) (b : Base) : (s.setBase .rg b).enc = s.enc := rfl
@[simp] theorem setBase_pool_rg (s : State) (b : Base) : (s.setBase .pool b).rg = s.rg := rfl
@[simp] theorem setBase_pool_pool (s : State) (b : Base) : (s.setBase .pool b).pool = { s.pool with base := b } := rfl
@[simp] theorem setBase_pool_dec (s : State) (b : Base) : (s.setBase .pool b).dec = s.dec := rfl
@[simp] theorem setBase_pool_enc (s : State) (b : Base) : (s.setBase .pool b).enc = s.enc := rfl
@[simp] theorem setBase_dec_rg (s : State) (b : Base) : (s.setBase .dec b).rg = s.rg := rfl
@[simp] theorem setBase_dec_pool (s : State) (b : Base) : (s.setBase .dec b).pool = s.pool := rfl
@[simp] theorem setBase_dec_dec (s : State) (b : Base) : (s.setBase .dec b).dec = { s.dec with base := b } := rfl
@[simp] theorem setBase_dec_enc (s : State) (b : Base) : (s.setBase .dec b).enc = s.enc := rfl
@[simp] theorem setBase_enc_rg (s : State) (b : Base) : (s.setBase .enc b).rg = s.rg := rfl
@[simp] theorem setBase_enc_pool (s : State) (b : Base) : (s.setBase .enc b).pool = s.pool := rfl
@[simp] theorem setBase_enc_dec (s : State) (b : Base) : (s.setBase .enc b).dec = s.dec := rfl
@[simp] theorem setBase_enc_enc (s : State) (b : Base) : (s.setBase .enc b).enc = { s.enc with base := b } := rfl

/-! ### Answers -/

@[simp] theorem answer_sel (s : State) (r : Response) : (s.answer r).sel = s.sel := setBase_sel _ _ _
@[simp] theorem answer_inputs (s : State) (r : Response) : (s.answer r).inputs = s.inputs := setBase_inputs _ _ _
@[simp] theorem answer_freeIdx (s : State) (r : Response) : (s.answer r).freeIdx = s.freeIdx := setBase_freeIdx _ _ _

/-- An answer sends its bytes on the served port. -/
theorem answer_served_tx (s : State) (r : Response) :
    ((s.answer r).port s.sel.kind s.sel.port).tx = (s.port s.sel.kind s.sel.port).tx ++ responseBytes r := by
  simp [State.answer, State.setPort, State.port]

/-- An answer touches no other instance. -/
theorem answer_base_ne (s : State) (r : Response) {k : Kind} (h : k ≠ s.sel.kind) :
    (s.answer r).base k = s.base k := base_setBase_ne _ _ h

/-- An answer changes no strap, no cursor and no configuration bit of any instance. -/
@[simp] theorem answer_straps (s : State) (r : Response) (k : Kind) :
    ((s.answer r).base k).straps = (s.base k).straps := by
  by_cases h : k = s.sel.kind
  · subst h; simp [State.answer, State.setPort]
  · rw [answer_base_ne s r h]
@[simp] theorem answer_ring (s : State) (r : Response) (k : Kind) : ((s.answer r).base k).ring = (s.base k).ring := by
  by_cases h : k = s.sel.kind
  · subst h; simp [State.answer, State.setPort]
  · rw [answer_base_ne s r h]
@[simp] theorem answer_configured (s : State) (r : Response) (k : Kind) :
    ((s.answer r).base k).configured = (s.base k).configured := by
  by_cases h : k = s.sel.kind
  · subst h; simp [State.answer, State.setPort]
  · rw [answer_base_ne s r h]

/-- What an answer leaves of each instance: all of it but the base, in which only a port differs. -/
theorem answer_cases (s : State) (r : Response) :
    ∃ b : Base, b.straps = (s.base s.sel.kind).straps ∧ b.configured = (s.base s.sel.kind).configured ∧
      b.ring = (s.base s.sel.kind).ring ∧ s.answer r = s.setBase s.sel.kind b :=
  ⟨_, setBasePort_straps _ _ _, setBasePort_configured _ _ _, setBasePort_ring _ _ _, rfl⟩

/-! ### Cursor stores -/

@[simp] theorem published_straps (b : Base) : (published b).straps = b.straps := rfl
@[simp] theorem published_configured (b : Base) : (published b).configured = b.configured := rfl
@[simp] theorem published_p (b : Base) : (published b).p = b.p := rfl
@[simp] theorem published_c (b : Base) : (published b).c = b.c := rfl
@[simp] theorem published_readPos (b : Base) : (published b).ring.readPos = b.ring.readPos := rfl
@[simp] theorem published_writePos (b : Base) :
    (published b).ring.writePos = ringNext b.straps.n b.ring.writePos := rfl
@[simp] theorem released_straps (b : Base) : (released b).straps = b.straps := rfl
@[simp] theorem released_configured (b : Base) : (released b).configured = b.configured := rfl
@[simp] theorem released_p (b : Base) : (released b).p = b.p := rfl
@[simp] theorem released_c (b : Base) : (released b).c = b.c := rfl
@[simp] theorem released_readPos (b : Base) : (released b).ring.readPos = ringNext b.straps.n b.ring.readPos := rfl
@[simp] theorem released_writePos (b : Base) : (released b).ring.writePos = b.ring.writePos := rfl
@[simp] theorem released_pulses (b : Base) : (released b).ring.pulses = b.ring.pulses := rfl

/-! ### The current slot and the error entry -/

@[simp] theorem setCur_base (d : DecInst) (sl : Slot) : (setCur d sl).base = d.base := rfl
@[simp] theorem setCur_errCount (d : DecInst) (sl : Slot) : (setCur d sl).errCount = d.errCount := rfl
@[simp] theorem setCur_s8 (d : DecInst) (sl : Slot) : (setCur d sl).s8 = d.s8 := rfl
@[simp] theorem setCur_s16 (d : DecInst) (sl : Slot) : (setCur d sl).s16 = d.s16 := rfl
@[simp] theorem setCur_pkt (d : DecInst) (sl : Slot) : (setCur d sl).pkt = d.pkt := rfl
@[simp] theorem setCur_reports (d : DecInst) (sl : Slot) : (setCur d sl).reports = d.reports := rfl
@[simp] theorem setCur_pushing (d : DecInst) (sl : Slot) : (setCur d sl).pushing = d.pushing := rfl
@[simp] theorem setCur_clearing (d : DecInst) (sl : Slot) : (setCur d sl).clearing = d.clearing := rfl
@[simp] theorem setCur_slots (d : DecInst) (sl : Slot) :
    (setCur d sl).slots = d.slots.set d.base.ring.writePos sl := rfl
@[simp] theorem countError_base (d : DecInst) (c : Cause) (i : U32) : (countError d c i).base = d.base := rfl
@[simp] theorem countError_slots (d : DecInst) (c : Cause) (i : U32) : (countError d c i).slots = d.slots := rfl
@[simp] theorem countError_s8 (d : DecInst) (c : Cause) (i : U32) : (countError d c i).s8 = d.s8 := rfl
@[simp] theorem countError_s16 (d : DecInst) (c : Cause) (i : U32) : (countError d c i).s16 = d.s16 := rfl
@[simp] theorem countError_pkt (d : DecInst) (c : Cause) (i : U32) : (countError d c i).pkt = d.pkt := rfl
@[simp] theorem countError_pushing (d : DecInst) (c : Cause) (i : U32) : (countError d c i).pushing = d.pushing := rfl
@[simp] theorem countError_clearing (d : DecInst) (c : Cause) (i : U32) :
    (countError d c i).clearing = d.clearing := rfl
@[simp] theorem countError_errCount (d : DecInst) (c : Cause) (i : U32) :
    (countError d c i).errCount = satAdd d.errCount 1 := rfl
@[simp] theorem countError_reports (d : DecInst) (c : Cause) (i : U32) :
    (countError d c i).reports = d.reports ++ [{ cause := c, info := i }] := rfl
@[simp] theorem reseek_base (d : DecInst) : (reseek d).base = d.base := by unfold reseek; split <;> rfl
@[simp] theorem reseek_slots (d : DecInst) : (reseek d).slots = d.slots := by unfold reseek; split <;> rfl
@[simp] theorem reseek_errCount (d : DecInst) : (reseek d).errCount = d.errCount := by unfold reseek; split <;> rfl
@[simp] theorem reseek_reports (d : DecInst) : (reseek d).reports = d.reports := by unfold reseek; split <;> rfl
@[simp] theorem reseek_pushing (d : DecInst) : (reseek d).pushing = d.pushing := by unfold reseek; split <;> rfl
@[simp] theorem reseek_clearing (d : DecInst) : (reseek d).clearing = d.clearing := by unfold reseek; split <;> rfl
@[simp] theorem framingError_event (d : DecInst) (c : Cause) : (framingError d c).2 = .discarded c := rfl
@[simp] theorem framingError_base (d : DecInst) (c : Cause) : (framingError d c).1.base = d.base := by
  simp [framingError]
@[simp] theorem framingError_slots (d : DecInst) (c : Cause) : (framingError d c).1.slots = d.slots := by
  simp [framingError]
@[simp] theorem framingError_pushing (d : DecInst) (c : Cause) : (framingError d c).1.pushing = d.pushing := by
  simp [framingError]
@[simp] theorem framingError_clearing (d : DecInst) (c : Cause) : (framingError d c).1.clearing = d.clearing := by
  simp [framingError]
@[simp] theorem framingError_errCount (d : DecInst) (c : Cause) :
    (framingError d c).1.errCount = satAdd d.errCount 1 := by simp [framingError]
@[simp] theorem framingError_reports (d : DecInst) (c : Cause) :
    (framingError d c).1.reports = d.reports ++ [{ cause := c, info := 0#32 }] := by simp [framingError]

end Sys2Proof.Machine
end

