-- ==== Sys2Proof/Laws/Memory.lean ====
section
/-! SUPPORT. Slot storage: a read after a write, writes elsewhere, and the canonical form which every storage operation
keeps (20_memory R60, R65; 40_slot_buffer R138). -/
namespace Sys2Proof.Machine

@[simp] theorem find_nil (a : Nat) : Memory.find [] a = none := rfl

/-- A byte written reads as written. -/
@[simp] theorem find_write_same (m : Memory) (a : Nat) (b : Byte) :
    Memory.find (Memory.write m a b) a = some b := by
  induction m with
  | nil => simp [Memory.write, Memory.find]
  | cons x t ih =>
    obtain ⟨k, v⟩ := x
    unfold Memory.write
    split
    · simp [Memory.find]
    · split
      · simp [Memory.find]
      · next h => simp [Memory.find, ih, Ne.symm h]

/-- A write leaves every other offset as it was. -/
theorem find_write_other (m : Memory) {a c : Nat} (b : Byte) (h : c ≠ a) :
    Memory.find (Memory.write m a b) c = Memory.find m c := by
  induction m with
  | nil => simp [Memory.write, Memory.find, Ne.symm h]
  | cons x t ih =>
    obtain ⟨k, v⟩ := x
    unfold Memory.write
    split
    · simp [Memory.find, Ne.symm h]
    · split
      · next e => subst e; simp [Memory.find, Ne.symm h]
      · simp [Memory.find, ih]

/-- The listed offsets after a write. -/
theorem mem_write {m : Memory} {a : Nat} {b : Byte} {x : Host.Cell} (h : x ∈ Memory.write m a b) :
    x = (a, b) ∨ x ∈ m := by
  induction m with
  | nil => simpa [Memory.write] using h
  | cons y t ih =>
    obtain ⟨k, v⟩ := y
    unfold Memory.write at h
    split at h
    · simpa using h
    · split at h
      · simp only [List.mem_cons] at h ⊢; tauto
      · simp only [List.mem_cons] at h ⊢
        rcases h with h | h
        · tauto
        · rcases ih h with h | h <;> tauto

/-- A write keeps the canonical form. -/
theorem wf_write {m : Memory} (a : Nat) (b : Byte) (h : Memory.wf m) : Memory.wf (Memory.write m a b) := by
  induction m with
  | nil => simp [Memory.wf, Memory.write]
  | cons x t ih =>
    obtain ⟨k, v⟩ := x
    obtain ⟨h1, h2⟩ := List.pairwise_cons.1 h
    unfold Memory.write
    split
    · next hlt =>
      refine List.pairwise_cons.2 ⟨?_, h⟩
      rintro y hy
      rcases List.mem_cons.1 hy with rfl | hy
      · exact hlt
      · exact lt_trans hlt (h1 y hy)
    · split
      · next e => subst e; exact List.pairwise_cons.2 ⟨h1, h2⟩
      · refine List.pairwise_cons.2 ⟨?_, ih h2⟩
        rintro y hy
        rcases mem_write hy with rfl | hy
        · show k < a; omega
        · exact h1 y hy

/-- A run of writes keeps the canonical form. -/
theorem wf_writeRun {m : Memory} (a : Nat) (bs : List Byte) (h : Memory.wf m) : Memory.wf (Memory.writeRun m a bs) := by
  induction bs generalizing m a with
  | nil => exact h
  | cons b bs ih => exact ih _ (wf_write _ _ h)

theorem mem_writeRun {m : Memory} {a : Nat} {bs : List Byte} {x : Host.Cell} (h : x ∈ Memory.writeRun m a bs) :
    x ∈ m ∨ x.1 < a + bs.length := by
  induction bs generalizing m a with
  | nil => exact .inl h
  | cons b bs ih =>
    rcases ih h with h | h
    · rcases mem_write h with rfl | h
      · right; simp
      · exact .inl h
    · right; simp only [List.length_cons]; omega

/-- A run of writes leaves the offsets outside it as they were. -/
theorem find_writeRun_outside (m : Memory) {a c : Nat} (bs : List Byte) (h : c < a ∨ a + bs.length ≤ c) :
    Memory.find (Memory.writeRun m a bs) c = Memory.find m c := by
  induction bs generalizing m a with
  | nil => rfl
  | cons b bs ih =>
    simp only [List.length_cons] at h
    unfold Memory.writeRun
    rw [ih _ (by omega), find_write_other _ _ (by omega)]

/-- The bytes of a run read as written. -/
theorem find_writeRun_inside (m : Memory) (a : Nat) (bs : List Byte) (i : Nat) (h : i < bs.length) :
    Memory.find (Memory.writeRun m a bs) (a + i) = some bs[i] := by
  induction bs generalizing m a i with
  | nil => simp at h
  | cons b bs ih =>
    unfold Memory.writeRun
    cases i with
    | zero => rw [find_writeRun_outside _ _ (by omega)]; simp
    | succ i =>
      have := ih (Memory.write m a b) (a + 1) i (by simpa using h)
      rw [show a + (i + 1) = a + 1 + i by omega, this]; simp

/-! ### Slots -/

@[simp] theorem content_length (sl : Slot) : (content sl).length = sl.size := by simp [content, readRun]

theorem content_getElem (sl : Slot) (i : Nat) (h : i < (content sl).length) : (content sl)[i] = byteAt sl i := by
  simp [content, readRun]

@[simp] theorem slotZero_size (sl : Slot) : (slotZero sl).size = 0 := rfl
@[simp] theorem slotZero_max (sl : Slot) : (slotZero sl).max = sl.max := rfl
@[simp] theorem slotZero_content (sl : Slot) : content (slotZero sl) = [] := rfl

/-- What `SB_APPEND` answers and leaves (40_slot_buffer R135). -/
theorem slotAppend_some {kind : SlotKind} {sl sl' : Slot} {b : Byte} (h : slotAppend kind sl b = some sl') :
    sl.size ≠ sl.max ∧ sl'.size = sl.size + 1 ∧ sl'.max = sl.max ∧ content sl' = content sl ++ [b] ∧
      sl'.data = Memory.write sl.data sl.size b ∧
      sl'.cap = if kind = .dynamic ∧ sl.size = sl.cap then sl.size + 1 else sl.cap := by
  unfold slotAppend at h
  split at h
  · cases h
  · next hne =>
    cases h
    refine ⟨hne, rfl, rfl, ?_, rfl, rfl⟩
    apply List.ext_getElem
    · simp
    · intro i h1 h2
      rw [content_getElem]
      simp only [List.length_append, content_length, List.length_singleton] at h2
      rcases Nat.lt_succ_iff_lt_or_eq.1 (show i < sl.size + 1 from h2) with h | h
      · rw [List.getElem_append_left (by simpa using h), content_getElem]
        simp [byteAt, find_write_other _ _ (Nat.ne_of_lt h)]
      · subst h
        rw [List.getElem_append_right (by simp)]
        simp [byteAt]

theorem slotAppend_isSome {kind : SlotKind} {sl : Slot} {b : Byte} (h : sl.size ≠ sl.max) :
    ∃ sl', slotAppend kind sl b = some sl' := ⟨_, if_neg h⟩

/-- An allocation answers unless it asks for more than `max` (40_slot_buffer R136). -/
theorem slotAlloc_some {kind : SlotKind} {fill n : Nat} {sl sl' : Slot} (h : slotAlloc kind fill sl n = some sl') :
    n ≤ sl.max ∧ sl'.size = n ∧ sl'.max = sl.max ∧ sl'.data = [] ∧ sl'.fill = fill ∧
      sl'.cap = (if kind = .dynamic then n else sl.cap) := by
  unfold slotAlloc at h
  split at h
  · cases h
  · cases h
    exact ⟨by omega, rfl, rfl, rfl, rfl, by cases kind <;> rfl⟩

/-- After `SB_ALLOC` no byte of the slot is specified: each reads as the free value of the allocation (R137). -/
theorem slotAlloc_byteAt {kind : SlotKind} {fill n : Nat} {sl sl' : Slot} (h : slotAlloc kind fill sl n = some sl')
    (i : Nat) : byteAt sl' i = Config.freeByte fill i := by
  obtain ⟨-, -, -, hd, hf, -⟩ := slotAlloc_some h
  simp [byteAt, hd, hf]

/-- A slot filled in one shot holds exactly the bytes given (40_slot_buffer R140). -/
theorem slotFill_content {kind : SlotKind} {sl : Slot} {bs : List Byte} (h : bs.length ≤ sl.max) :
    content (slotFill kind sl bs) = bs := by
  have ha : slotAlloc kind sl.fill sl bs.length ≠ none := by
    simp only [slotAlloc, Nat.not_lt.2 h, if_false]; exact fun e => nomatch e
  obtain ⟨sl', hs⟩ := Option.ne_none_iff_exists'.1 ha
  have hz := (slotAlloc_some hs).2.1
  apply List.ext_getElem
  · simp [slotFill, hs, writeRun, hz]
  · intro i h1 h2
    rw [content_getElem]
    have := find_writeRun_inside sl'.data 0 bs i h2
    rw [Nat.zero_add] at this
    simp [slotFill, hs, byteAt, writeRun, this]

theorem slotFill_size {kind : SlotKind} {sl : Slot} {bs : List Byte} (h : bs.length ≤ sl.max) :
    (slotFill kind sl bs).size = bs.length := by
  rw [← content_length, slotFill_content h]

/-! ### The slot invariant -/

theorem SlotOk.zero {kind : SlotKind} {max : Nat} {sl : Slot} (h : SlotOk kind max sl) :
    SlotOk kind max (slotZero sl) := by
  obtain ⟨h1, -, h3, h4, h5, h6⟩ := h
  exact ⟨h1, Nat.zero_le _, h3, h4, h5, h6⟩

theorem SlotOk.append {kind : SlotKind} {max : Nat} {sl sl' : Slot} {b : Byte} (h : SlotOk kind max sl)
    (ha : slotAppend kind sl b = some sl') : SlotOk kind max sl' := by
  obtain ⟨h1, h2, h3, h4, h5, h6⟩ := h
  obtain ⟨hne, hs, hm, -, hd, hc⟩ := slotAppend_some ha
  have hcap : sl'.size ≤ sl'.cap ∧ sl'.cap ≤ sl'.max ∧ (kind = .fixed → sl'.cap = sl'.max) ∧ sl.cap ≤ sl'.cap := by
    rw [hs, hm, hc]
    cases kind with
    | fixed => simp at h4 ⊢; omega
    | dynamic => simp only [true_and, reduceCtorEq, false_implies]; split <;> omega
  refine ⟨by rw [hm, h1], hcap.1, hcap.2.1, hcap.2.2.1, by rw [hd]; exact wf_write _ _ h5, ?_⟩
  intro x hx
  rw [hd] at hx
  rcases mem_write hx with rfl | hx
  · show sl.size < sl'.cap; omega
  · have := h6 x hx; omega

theorem SlotOk.alloc {kind : SlotKind} {max fill n : Nat} {sl sl' : Slot} (h : SlotOk kind max sl)
    (ha : slotAlloc kind fill sl n = some sl') : SlotOk kind max sl' := by
  obtain ⟨h1, h2, h3, h4, h5, h6⟩ := h
  obtain ⟨hn, hs, hm, hd, -, hc⟩ := slotAlloc_some ha
  refine ⟨by rw [hm, h1], ?_, ?_, ?_, by rw [hd]; exact List.Pairwise.nil, by rw [hd]; simp⟩ <;>
    rw [hc] <;> cases kind <;> simp_all

theorem SlotOk.fill {kind : SlotKind} {max : Nat} {sl : Slot} {bs : List Byte} (h : SlotOk kind max sl)
    (hb : bs.length ≤ max) : SlotOk kind max (slotFill kind sl bs) := by
  have hm : sl.max = max := h.1
  have ha : slotAlloc kind sl.fill sl bs.length ≠ none := by
    simp only [slotAlloc, hm, Nat.not_lt.2 hb, if_false]; exact fun e => nomatch e
  obtain ⟨sl', hs⟩ := Option.ne_none_iff_exists'.1 ha
  obtain ⟨k1, k2, k3, k4, k5, k6⟩ := h.alloc hs
  have hz := (slotAlloc_some hs).2.1
  simp only [slotFill, hs, Option.getD_some, writeRun]
  refine ⟨k1, k2, k3, k4, wf_writeRun _ _ k5, ?_⟩
  intro x hx
  rcases mem_writeRun hx with hx | hx
  · exact k6 x hx
  · show x.1 < sl'.cap; omega

theorem SlotOk.fresh (kind : SlotKind) (max fill : Nat) : SlotOk kind max (freshSlot kind max fill) := by
  refine ⟨rfl, Nat.zero_le _, ?_, ?_, List.Pairwise.nil, by simp [freshSlot]⟩ <;> cases kind <;> simp [freshSlot]

end Sys2Proof.Machine
end

