-- ==== Sys2Proof/Laws/Ring.lean ====
section
/-! SUPPORT. The arithmetic of a ring (41_ring R153) and what a publish or a release does to the consumer-owned indices
(10_state R24). -/
namespace Sys2Proof.Machine

theorem ringNext_eq {n c : Nat} (h : c < n) : ringNext n c = if c + 1 = n then 0 else c + 1 := by
  unfold ringNext
  split
  · next e => rw [e, Nat.mod_self]
  · exact Nat.mod_eq_of_lt (by omega)

theorem ringNext_lt {n c : Nat} (h : c < n) : ringNext n c < n := by
  rw [ringNext_eq h]; split <;> omega

theorem ringSize_lt {n r w : Nat} (hr : r < n) (hw : w < n) : ringSize n r w < n := by
  unfold ringSize; split <;> omega

@[simp] theorem ringSize_self (n r : Nat) : ringSize n r r = 0 := by simp [ringSize]

theorem ringSize_eq_zero {n r w : Nat} (hr : r < n) : ringSize n r w = 0 ↔ r = w := by
  unfold ringSize; split <;> omega

/-- `full` says that `N - 1` slots are queued (41_ring R153). -/
theorem ringFull_iff {n r w : Nat} (hr : r < n) (hw : w < n) :
    ringFull n r w = true ↔ ringSize n r w + 1 = n := by
  unfold ringFull ringSize
  rw [ringNext_eq hw, beq_iff_eq]
  split <;> split <;> omega

theorem ringEmpty_iff {r w : Nat} : ringEmpty r w = true ↔ r = w := by simp [ringEmpty]

theorem ringSize_next_write {n r w : Nat} (hr : r < n) (hw : w < n) (h : ringFull n r w = false) :
    ringSize n r (ringNext n w) = ringSize n r w + 1 := by
  have hf : ¬ ringSize n r w + 1 = n := by rw [← ringFull_iff hr hw, h]; simp
  revert hf
  unfold ringSize
  rw [ringNext_eq hw]
  split <;> split <;> split <;> omega

theorem ringSize_next_read {n r w : Nat} (hr : r < n) (hw : w < n) (h : r ≠ w) :
    ringSize n (ringNext n r) w + 1 = ringSize n r w := by
  unfold ringSize
  rw [ringNext_eq hr]
  split <;> split <;> split <;> omega

/-- A snapshot that was not ahead of `write_pos` still is not when both lose the slot at `read_pos`. -/
theorem ringSize_next_read_le {n r w v : Nat} (hr : r < n) (hw : w < n) (hv : v < n) (h : r ≠ v)
    (hle : ringSize n r v ≤ ringSize n r w) :
    ringSize n (ringNext n r) v ≤ ringSize n (ringNext n r) w := by
  have hrw : r ≠ w := by
    rintro rfl
    have := (ringSize_eq_zero (w := v) hr).1 (by simpa using hle)
    exact h this
  have h1 := ringSize_next_read hr hv h
  have h2 := ringSize_next_read hr hw hrw
  omega

theorem add_ringSize_mod {n r w : Nat} (hr : r < n) (hw : w < n) : (r + ringSize n r w) % n = w := by
  unfold ringSize
  split
  · rw [Nat.add_sub_cancel' ‹_›, Nat.mod_eq_of_lt hw]
  · rw [show r + (w + n - r) = w + n by omega, Nat.add_mod_right, Nat.mod_eq_of_lt hw]

/-! ### Consumer-owned indices -/

@[simp] theorem queuedIdx_length (b : Base) (w : Nat) :
    (queuedIdx b w).length = ringSize b.straps.n b.ring.readPos w := by simp [queuedIdx]

theorem mem_queuedIdx {b : Base} {w i : Nat} :
    i ∈ queuedIdx b w ↔ ∃ k, k < ringSize b.straps.n b.ring.readPos w ∧ (b.ring.readPos + k) % b.straps.n = i := by
  simp [queuedIdx]

theorem queuedIdx_lt {b : Base} {w i : Nat} (hn : 0 < b.straps.n) (h : i ∈ queuedIdx b w) : i < b.straps.n := by
  obtain ⟨k, -, rfl⟩ := mem_queuedIdx.1 h
  exact Nat.mod_lt _ hn

theorem queuedIdx_congr {b b' : Base} (w : Nat) (h1 : b'.straps = b.straps) (h2 : b'.ring = b.ring) :
    queuedIdx b' w = queuedIdx b w := by simp [queuedIdx, h1, h2]

/-- The indices of a ring that is not empty begin with `read_pos`; a release takes it away. -/
theorem queuedIdx_released {b : Base} {w : Nat} (hr : b.ring.readPos < b.straps.n) (hw : w < b.straps.n)
    (h : b.ring.readPos ≠ w) : queuedIdx b w = b.ring.readPos :: queuedIdx (released b) w := by
  have hs := ringSize_next_read hr hw h
  unfold queuedIdx
  rw [← hs, List.range_succ_eq_map]
  simp only [List.map_cons, List.map_map, Nat.add_zero, Nat.mod_eq_of_lt hr, released_straps, released_readPos]
  congr 1
  apply List.map_congr_left
  intro k _
  simp only [Function.comp, ringNext, Nat.mod_add_mod]
  congr 1
  omega

/-- A publish adds the index `write_pos` at the end. -/
theorem queuedIdx_published {b : Base} (hr : b.ring.readPos < b.straps.n) (hw : b.ring.writePos < b.straps.n)
    (h : isFull b = false) :
    queuedIdx (published b) (ringNext b.straps.n b.ring.writePos) =
      queuedIdx b b.ring.writePos ++ [b.ring.writePos] := by
  unfold queuedIdx
  simp only [published_straps, published_readPos]
  rw [ringSize_next_write hr hw h, List.range_succ, List.map_append, List.map_singleton, add_ringSize_mod hr hw]

/-- `slot[write_pos]` is producer-owned (10_state R32). -/
theorem writePos_not_queued {b : Base} (hr : b.ring.readPos < b.straps.n) (hw : b.ring.writePos < b.straps.n) :
    b.ring.writePos ∉ queuedIdx b b.ring.writePos := by
  rintro h
  obtain ⟨k, hk, e⟩ := mem_queuedIdx.1 h
  have hk' : k < b.straps.n := lt_trans hk (ringSize_lt hr hw)
  have e2 := add_ringSize_mod hr hw
  rcases lt_or_ge (b.ring.readPos + k) b.straps.n with h1 | h1
  · rw [Nat.mod_eq_of_lt h1] at e
    unfold ringSize at hk
    split at hk <;> omega
  · rw [Nat.mod_eq_sub_mod h1, Nat.mod_eq_of_lt (by omega)] at e
    unfold ringSize at hk
    split at hk <;> omega

/-- After a release the slot at the old `read_pos` is producer-owned. -/
theorem readPos_not_queued_released {b : Base} {w : Nat} (hr : b.ring.readPos < b.straps.n) (hw : w < b.straps.n)
    (h : b.ring.readPos ≠ w) : b.ring.readPos ∉ queuedIdx (released b) w := by
  rintro hm
  obtain ⟨k, hk, e⟩ := mem_queuedIdx.1 hm
  have hs := ringSize_next_read hr hw h
  have hl := ringSize_lt hr hw
  simp only [released_straps, released_readPos, ringNext, Nat.mod_add_mod] at hk e
  have hk2 : k + 1 < b.straps.n := by
    have : k < ringSize b.straps.n (ringNext b.straps.n b.ring.readPos) w := hk
    omega
  rcases lt_or_ge (b.ring.readPos + 1 + k) b.straps.n with h1 | h1
  · rw [Nat.mod_eq_of_lt h1] at e; omega
  · rw [Nat.mod_eq_sub_mod h1, Nat.mod_eq_of_lt (by omega)] at e; omega

/-! ### The ring invariant under a publish and a release -/

theorem RingOk.congr {b b' : Base} (h1 : b'.straps = b.straps) (h2 : b'.ring = b.ring) (h : RingOk b) : RingOk b' := by
  simpa [RingOk, queueSize, h1, h2] using h

theorem RingOk.published {b : Base} (h : RingOk b) (hf : isFull b = false) : RingOk (published b) := by
  obtain ⟨hr, hw, hc⟩ := h
  refine ⟨hr, ringNext_lt hw, ?_⟩
  have := ringSize_next_write hr hw hf
  simp only [queueSize, published_straps, published_readPos, published_writePos, this]
  simp only [Machine.published, queueSize] at hc ⊢
  split <;> simp_all

theorem RingOk.released {b : Base} (h : RingOk b) (he : b.ring.readPos ≠ b.ring.writePos) : RingOk (released b) := by
  obtain ⟨hr, hw, hc⟩ := h
  refine ⟨ringNext_lt hr, hw, ?_⟩
  have := ringSize_next_read hr hw he
  simp only [queueSize, released_straps, released_readPos, released_writePos] at hc ⊢
  simp only [Machine.released] at hc ⊢
  split <;> simp_all
  omega

theorem ringIsEmpty_iff {b : Base} : isEmpty b = true ↔ b.ring.readPos = b.ring.writePos := ringEmpty_iff

theorem ringIsEmpty_false {b : Base} : isEmpty b = false ↔ b.ring.readPos ≠ b.ring.writePos := by
  rw [← Bool.not_eq_true, ringIsEmpty_iff]

theorem ringIsFull_iff {b : Base} : isFull b = true ↔ ringNext b.straps.n b.ring.writePos = b.ring.readPos := by
  simp [isFull, ringFull]

theorem ringIsFull_false {b : Base} : isFull b = false ↔ ringNext b.straps.n b.ring.writePos ≠ b.ring.readPos := by
  simp [isFull, ringFull]

end Sys2Proof.Machine
end

