-- ==== Sys2Proof/Laws/Ops.lean ====
section
/-! SUPPORT. For each shared operation, everything it can do, once: the entry of a command, its ending, an operation in
atomic steps, and the error entry of a decoder. -/
namespace Sys2Proof.Machine

theorem slotAt_ok {α : Type} {slots : List α} {i : Nat} {x : α} : slotAt slots i = .ok x ↔ slots[i]? = some x := by
  unfold slotAt; split <;> simp_all

theorem slotAt_lt {α : Type} {slots : List α} {i : Nat} (h : i < slots.length) : slotAt slots i = .ok slots[i] := by
  rw [slotAt_ok, List.getElem?_eq_getElem h]

/-- Slots that exist are found, each with its index. -/
theorem slotsAt_ok {α : Type} {slots : List α} {is : List Nat} (h : ∀ i ∈ is, i < slots.length) :
    ∃ xs, slotsAt slots is = .ok xs ∧ xs.map Prod.fst = is ∧ ∀ x ∈ xs, slots[x.1]? = some x.2 := by
  induction is with
  | nil => exact ⟨[], rfl, rfl, by simp⟩
  | cons i is ih =>
    obtain ⟨xs, h1, h2, h3⟩ := ih fun j hj => h j (List.mem_cons_of_mem _ hj)
    have hi := h i List.mem_cons_self
    refine ⟨(i, slots[i]) :: xs, by simp [slotsAt, slotAt_lt hi, h1], by simp [h2], ?_⟩
    rintro x hx
    rcases List.mem_cons.1 hx with rfl | hx
    · exact List.getElem?_eq_getElem hi
    · exact h3 x hx

theorem slotsAt_cons_ok {α : Type} {slots : List α} {i : Nat} {is : List Nat} {xs : List (Nat × α)}
    (h : slotsAt slots (i :: is) = .ok xs) :
    ∃ x ys, slots[i]? = some x ∧ slotsAt slots is = .ok ys ∧ xs = (i, x) :: ys := by
  unfold slotsAt at h
  split at h
  · cases h
  · next x hx =>
    split at h
    · cases h
    · next ys hy => cases h; exact ⟨x, ys, slotAt_ok.1 hx, hy, rfl⟩

theorem slotsAt_append_ok {α : Type} {slots : List α} {is js : List Nat} {xs ys : List (Nat × α)}
    (h1 : slotsAt slots is = .ok xs) (h2 : slotsAt slots js = .ok ys) :
    slotsAt slots (is ++ js) = .ok (xs ++ ys) := by
  induction is generalizing xs with
  | nil => cases h1; simpa using h2
  | cons i is ih =>
    obtain ⟨x, zs, hx, hz, rfl⟩ := slotsAt_cons_ok h1
    simp [slotsAt, slotAt_ok.2 hx, ih hz]

/-- Slots outside the indices asked for do not matter. -/
theorem slotsAt_set {α : Type} {slots : List α} {is : List Nat} {i : Nat} {x : α} (h : i ∉ is) :
    slotsAt (slots.set i x) is = slotsAt slots is := by
  induction is with
  | nil => rfl
  | cons j is ih =>
    simp only [List.mem_cons, not_or] at h
    simp only [slotsAt, ih h.2, slotAt, List.getElem?_set_ne h.1]

/-- The three ways a command enters (60_exceptions R378). -/
theorem accept_cases (k : Kind) (ps : List PortId) (s : State) (o : Host.Outcome State Fault Refusal) :
    ((s.base s.sel.kind).configured = false ∧ accept k ps s o = .next (s.answer (bare .notConfigured))) ∨
    ((s.base s.sel.kind).configured = true ∧ (s.sel.kind ≠ k ∨ s.sel.port ∉ ps) ∧
      accept k ps s o = .next (s.answer (bare .illegal))) ∨
    ((s.base k).configured = true ∧ s.sel.kind = k ∧ s.sel.port ∈ ps ∧ accept k ps s o = o) := by
  unfold accept
  cases hc : (s.base s.sel.kind).configured
  · exact .inl ⟨rfl, rfl⟩
  · by_cases h : s.sel.kind ≠ k ∨ s.sel.port ∉ ps
    · exact .inr (.inl ⟨rfl, h, by simp [h]⟩)
    · simp only [not_or, not_not] at h
      obtain ⟨rfl, h2⟩ := h
      exact .inr (.inr ⟨hc, rfl, h2, by simp [h2]⟩)

/-- A command whose port and kind fit runs its own rule. -/
theorem accept_run {k : Kind} {ps : List PortId} {s : State} {q : PortId} (o : Host.Outcome State Fault Refusal)
    (h : Serves s k q) (hq : q ∈ ps) : accept k ps s o = o := by
  obtain ⟨h1, rfl, rfl⟩ := h
  simp [accept, h1, hq]

/-- An operation in atomic steps keeps what each of its steps keeps. -/
theorem drive_keeps {ω α : Type} {atom : ω → α → Except Fault (α × Progress ω)} {P : α → Prop} {Q : ω → α → Prop}
    (hmore : ∀ op a a' op', P a → Q op a → atom op a = .ok (a', .more op') → P a' ∧ Q op' a')
    (hdone : ∀ op a a' r, P a → Q op a → atom op a = .ok (a', .done r) → P a') :
    ∀ k op a, P a → Q op a →
      (∀ a' op', drive atom k op a = .ok (a', .more op') → P a' ∧ Q op' a') ∧
      ∀ a' r, drive atom k op a = .ok (a', .done r) → P a' := by
  intro k
  induction k with
  | zero =>
    intro op a hp hq
    refine ⟨?_, ?_⟩
    · intro a' op' h; cases h; exact ⟨hp, hq⟩
    · intro a' r h; cases h
  | succ k ih =>
    intro op a hp hq
    rcases h1 : atom op a with f | ⟨a1, op1 | r⟩
    · simp only [drive, h1]
      exact ⟨nofun, nofun⟩
    · simp only [drive, h1]
      obtain ⟨hp1, hq1⟩ := hmore _ _ _ _ hp hq h1
      exact ih op1 a1 hp1 hq1
    · simp only [drive, h1]
      refine ⟨nofun, ?_⟩
      intro a' r' h; cases h; exact hdone _ _ _ _ hp hq h1

/-- An operation in atomic steps none of which can fail answers, and keeps what its steps keep. -/
theorem drive_total {ω α : Type} {atom : ω → α → Except Fault (α × Progress ω)} {P : ω → α → Prop} {D : α → Prop}
    (hstep : ∀ op a, P op a → ∃ a' pr, atom op a = .ok (a', pr) ∧ (∀ r, pr = .done r → D a') ∧
      ∀ op', pr = .more op' → P op' a') :
    ∀ k op a, P op a → ∃ a' pr, drive atom k op a = .ok (a', pr) ∧ (∀ r, pr = .done r → D a') ∧
      ∀ op', pr = .more op' → P op' a' := by
  intro k
  induction k with
  | zero => intro op a h; exact ⟨a, .more op, rfl, nofun, fun op' e => by cases e; exact h⟩
  | succ k ih =>
    intro op a h
    obtain ⟨a', pr, h1, h2, h3⟩ := hstep op a h
    cases pr with
    | done r => exact ⟨a', .done r, by simp [drive, h1], h2, nofun⟩
    | more op' =>
      obtain ⟨a2, pr2, k1, k2, k3⟩ := ih op' a' (h3 op' rfl)
      exact ⟨a2, pr2, by simp [drive, h1, k1], k2, k3⟩

/-- Steps taken in two turns are the steps of one turn (20_memory R75). -/
theorem drive_add {ω α : Type} (atom : ω → α → Except Fault (α × Progress ω)) (j k : Nat) (op : ω) (a : α) :
    drive atom (j + k) op a =
      match drive atom j op a with
      | .ok (a', .more op') => drive atom k op' a'
      | x => x := by
  induction j generalizing op a with
  | zero => simp [drive]
  | succ j ih =>
    rw [Nat.add_right_comm]
    rcases h : atom op a with f | ⟨a', op' | r⟩
    · simp only [drive, h]
    · simp only [drive, h, ih]
    · simp only [drive, h]

/-- What `commit()` does (42_decoder_base R200). -/
theorem commit_cases (d : DecInst) :
    (isFull d.base = true ∧ commit d = (countError (reseek d) .ringFull 0#32, .ringFull)) ∨
    (isFull d.base = false ∧ commit d = ({ reseek d with base := published d.base }, .committed)) := by
  unfold commit
  cases h : isFull d.base <;> simp

@[simp] theorem reseek_s8_simple8 {d : DecInst} (h : d.base.straps.proto = .simple8) :
    (reseek d).s8 = { d.s8 with inFrame := false, esc := false, holdValid := false } := by simp [reseek, h]
@[simp] theorem reseek_s16_simple16 {d : DecInst} (h : d.base.straps.proto = .simple16) :
    (reseek d).s16 = { d.s16 with st := .sync0 } := by simp [reseek, h]
@[simp] theorem reseek_pkt_packet {d : DecInst} (h : d.base.straps.proto = .packet) :
    (reseek d).pkt = { d.pkt with st := .magic0 } := by simp [reseek, h]

end Sys2Proof.Machine
end

