-- ==== Sys2Proof/Laws/Decode.lean ====
section
/-! SUPPORT. What a fed byte can do to a decoder (42_decoder_base R194, R200; 44_framing_decode): which state it leaves
alone, and that the parse state keeps fitting the current slot. -/
namespace Sys2Proof.Machine

@[simp] theorem commit_event_ne_none (d : DecInst) : (commit d).2 ≠ .none := by unfold commit; split <;> simp
@[simp] theorem commit_base (d : DecInst) :
    (commit d).1.base = if (commit d).2 = .committed then published d.base else d.base := by
  unfold commit; split <;> simp
@[simp] theorem commit_slots (d : DecInst) : (commit d).1.slots = d.slots := by
  unfold commit; split <;> simp
@[simp] theorem commit_pushing (d : DecInst) : (commit d).1.pushing = d.pushing := by
  unfold commit; split <;> simp
@[simp] theorem commit_clearing (d : DecInst) : (commit d).1.clearing = d.clearing := by
  unfold commit; split <;> simp
theorem commit_committed {d : DecInst} (h : (commit d).2 = .committed) : isFull d.base = false := by
  revert h; unfold commit; split <;> simp_all

/-- What a fed byte leaves of a decoder: the ring moves by a commit only, no operation in progress changes, and no
slot but the current one. -/
def FeedFrame (d : DecInst) (r : DecInst × FrameEvent) : Prop :=
  r.1.base = (if r.2 = .committed then published d.base else d.base) ∧
  (r.2 = .committed → isFull d.base = false) ∧ r.1.pushing = d.pushing ∧ r.1.clearing = d.clearing ∧
  (r.1.slots = d.slots ∨ ∃ sl, r.1.slots = d.slots.set d.base.ring.writePos sl)

theorem FeedFrame.commit {d e : DecInst} (hb : e.base = d.base) (hp : e.pushing = d.pushing)
    (hc : e.clearing = d.clearing)
    (hs : e.slots = d.slots ∨ ∃ sl, e.slots = d.slots.set d.base.ring.writePos sl) : FeedFrame d (commit e) := by
  refine ⟨by rw [commit_base, hb], fun h => ?_, by simp [hp], by simp [hc], by simpa using hs⟩
  rw [← hb]
  exact commit_committed h

theorem FeedFrame.error {d e : DecInst} (c : Cause) (hb : e.base = d.base) (hp : e.pushing = d.pushing)
    (hc : e.clearing = d.clearing)
    (hs : e.slots = d.slots ∨ ∃ sl, e.slots = d.slots.set d.base.ring.writePos sl) : FeedFrame d (framingError e c) := by
  refine ⟨by simp [hb], by simp, by simp [hp], by simp [hc], by simpa using hs⟩

theorem FeedFrame.keep {d e : DecInst} {ev : FrameEvent} (hev : ev ≠ .committed) (hb : e.base = d.base) (hp : e.pushing = d.pushing)
    (hc : e.clearing = d.clearing)
    (hs : e.slots = d.slots ∨ ∃ sl, e.slots = d.slots.set d.base.ring.writePos sl) : FeedFrame d (e, ev) := by
  exact ⟨by simp [hev, hb], fun h => absurd h hev, hp, hc, hs⟩

theorem feedByte_frame (d : DecInst) (cur : Slot) (b : Byte) : FeedFrame d (feedByte d cur b) := by
  unfold feedByte
  split
  · have hdata : FeedFrame d (s8Data d cur b) := by
      simp only [s8Data]
      generalize (if d.s8.esc then b ^^^ 0x80#8 else b) = x
      repeat' split
      all_goals first
        | exact FeedFrame.keep (by simp) rfl rfl rfl (.inl rfl)
        | exact FeedFrame.keep (by simp) rfl rfl rfl (.inr ⟨_, rfl⟩)
        | exact FeedFrame.error _ rfl rfl rfl (.inl rfl)
    unfold feedS8 s8End
    repeat' split
    all_goals first
      | exact hdata
      | exact FeedFrame.keep (by simp) rfl rfl rfl (.inl rfl)
      | exact FeedFrame.keep (by simp) rfl rfl rfl (.inr ⟨_, rfl⟩)
      | exact FeedFrame.error _ rfl rfl rfl (.inl rfl)
      | exact FeedFrame.commit rfl rfl rfl (.inl rfl)
      | exact FeedFrame.keep (by simp) (by simp [s8Start]) (by simp [s8Start]) (by simp [s8Start])
          (.inr ⟨slotZero cur, by simp [s8Start]⟩)
  · unfold feedS16
    split
    · unfold s16Sync0; split <;> exact FeedFrame.keep (by simp) rfl rfl rfl (.inl rfl)
    · unfold s16Sync1; repeat' split
      all_goals exact FeedFrame.keep (by simp) rfl rfl rfl (.inl rfl)
    · exact FeedFrame.keep (by simp) rfl rfl rfl (.inl rfl)
    · simp only [s16LenHi]; split
      · exact FeedFrame.error _ rfl rfl rfl (.inl rfl)
      · split
        · exact FeedFrame.error _ rfl rfl rfl (.inl rfl)
        · exact FeedFrame.keep (by simp) rfl rfl rfl (.inr ⟨_, rfl⟩)
    · have h1 : (s16Take d cur b).base = d.base ∧ (s16Take d cur b).pushing = d.pushing ∧
        (s16Take d cur b).clearing = d.clearing ∧
        ((s16Take d cur b).slots = d.slots ∨ ∃ sl, (s16Take d cur b).slots = d.slots.set d.base.ring.writePos sl) := by
        unfold s16Take; repeat' split
        · exact ⟨rfl, rfl, rfl, .inl rfl⟩
        · exact ⟨rfl, rfl, rfl, .inl rfl⟩
        · exact ⟨rfl, rfl, rfl, .inr ⟨_, rfl⟩⟩
      obtain ⟨a, b', c, e⟩ := h1
      simp only [s16Payload, s16End]; repeat' split
      · exact FeedFrame.error _ a b' c e
      · exact FeedFrame.commit a b' c e
      · exact FeedFrame.keep (by simp) a b' c e
  · unfold feedPkt pktMagic1
    split
    all_goals try simp only [pktLen0, pktPayload]
    all_goals repeat' split
    all_goals first
      | exact FeedFrame.keep (by simp) rfl rfl rfl (.inl rfl)
      | exact FeedFrame.keep (by simp) rfl rfl rfl (.inr ⟨_, rfl⟩)
      | exact FeedFrame.error _ rfl rfl rfl (.inl rfl)
      | exact FeedFrame.error _ rfl rfl rfl (.inr ⟨_, rfl⟩)
      | exact FeedFrame.commit rfl rfl rfl (.inr ⟨_, rfl⟩)
  · exact FeedFrame.keep (by simp) rfl rfl rfl (.inl rfl)


/-! ### The parse state fits the current slot -/

theorem ParseOk.congr {d e : DecInst} {cur : Slot} (h : ParseOk d cur) (h1 : e.base.straps = d.base.straps)
    (h2 : e.s8 = d.s8) (h3 : e.s16 = d.s16) (h4 : e.pkt = d.pkt) : ParseOk e cur := by
  unfold ParseOk at h ⊢; rw [h1, h2, h3, h4]; exact h

/-- A machine that seeks sync fits every slot. -/
theorem parseOk_reseek (d : DecInst) (cur : Slot) : ParseOk (reseek d) cur := by
  unfold ParseOk
  simp only [reseek_base]
  split
  · next h => rw [reseek_s8_simple8 h]; exact ⟨fun _ => ⟨rfl, rfl⟩, nofun⟩
  · next h => rw [reseek_s16_simple16 h]; exact ⟨nofun, nofun⟩
  · next h => rw [reseek_pkt_packet h]; exact nofun
  · trivial

theorem parseOk_framingError (d : DecInst) (c : Cause) (cur : Slot) : ParseOk (framingError d c).1 cur :=
  parseOk_reseek _ cur

theorem parseOk_commit (d : DecInst) (cur : Slot) : ParseOk (commit d).1 cur := by
  rcases commit_cases d with ⟨-, h⟩ | ⟨-, h⟩ <;> rw [h] <;>
    exact (parseOk_reseek d cur).congr (by simp) rfl rfl rfl

/-- A fed byte keeps the current slot and the parse state together: `sl` is the slot that was current. -/
def FeedOk (d : DecInst) (r : DecInst × FrameEvent) : Prop :=
  ∃ sl, r.1.slots[d.base.ring.writePos]? = some sl ∧
    SlotOk d.base.straps.slotKind d.base.straps.maxPayload sl ∧
    (r.2 ≠ .committed → ParseOk r.1 sl) ∧ (r.2 = .committed → 1 ≤ sl.size ∧ ∀ x, ParseOk r.1 x)

section
variable {d e : DecInst} {cur sl : Slot}

theorem FeedOk.keep {ev : FrameEvent} (hev : ev ≠ .committed) (hs : e.slots[d.base.ring.writePos]? = some sl)
    (hsl : SlotOk d.base.straps.slotKind d.base.straps.maxPayload sl) (hp : ParseOk e sl) : FeedOk d (e, ev) :=
  ⟨sl, hs, hsl, fun _ => hp, fun h => absurd h hev⟩

theorem FeedOk.error (c : Cause) (hs : e.slots[d.base.ring.writePos]? = some sl)
    (hsl : SlotOk d.base.straps.slotKind d.base.straps.maxPayload sl) : FeedOk d (framingError e c) :=
  ⟨sl, by simpa using hs, hsl, fun _ => parseOk_framingError e c sl, by simp⟩

theorem FeedOk.commit (hs : e.slots[d.base.ring.writePos]? = some sl)
    (hsl : SlotOk d.base.straps.slotKind d.base.straps.maxPayload sl) (h1 : 1 ≤ sl.size) : FeedOk d (commit e) :=
  ⟨sl, by simpa using hs, hsl, fun _ => parseOk_commit e sl, fun _ => ⟨h1, parseOk_commit e⟩⟩

end

theorem getElem?_setCur {d e : DecInst} {cur sl : Slot} (h : d.slots[d.base.ring.writePos]? = some cur)
    (hs : e.slots = d.slots) (hb : e.base = d.base) : (setCur e sl).slots[d.base.ring.writePos]? = some sl := by
  have := (List.getElem?_eq_some_iff.1 h).1
  simp [setCur, hs, hb, this]

theorem crc8_append (st : Straps) (seed : Byte) (bs : List Byte) (b : Byte) :
    crc8 st seed (bs ++ [b]) = crc8Step st (crc8 st seed bs) b := by simp [crc8]
theorem crc16_append (st : Straps) (seed : U16) (bs : List Byte) (b : Byte) :
    crc16 st seed (bs ++ [b]) = crc16Step st (crc16 st seed bs) b := by simp [crc16]

theorem feedS8_ok {d : DecInst} {cur : Slot} (b : Byte) (hproto : d.base.straps.proto = .simple8)
    (hcur : d.slots[d.base.ring.writePos]? = some cur)
    (hsl : SlotOk d.base.straps.slotKind d.base.straps.maxPayload cur) (hp : S8Ok d.base.straps d.s8 cur) :
    FeedOk d (feedS8 d cur b) := by
  have hP : ∀ {e : DecInst} {x : Slot}, e.base.straps = d.base.straps → S8Ok d.base.straps e.s8 x → ParseOk e x := by
    intro e x h1 h2; unfold ParseOk; rw [h1, hproto]; exact h2
  have hstart : ∀ e : DecInst, e.base = d.base → e.slots = d.slots → ∀ ev, ev ≠ .committed →
      FeedOk d (s8Start e cur, ev) := by
    intro e h1 h2 ev hev
    refine FeedOk.keep hev (getElem?_setCur hcur h2 h1) hsl.zero (hP (by simp [s8Start, h1]) ?_)
    exact ⟨nofun, fun _ _ => by simp [s8Start, h1, crc8]⟩
  have hdata : d.s8.inFrame = true → FeedOk d (s8Data d cur b) := by
    intro hin
    simp only [s8Data]
    generalize (if d.s8.esc then b ^^^ 0x80#8 else b) = x
    split
    · next hcrc =>
      split
      · split
        · exact FeedOk.error _ hcur hsl
        · next cur' ha =>
          refine FeedOk.keep (by simp) (getElem?_setCur hcur rfl rfl) (hsl.append ha) (hP rfl ⟨by simp [hin], ?_⟩)
          intro _ _
          obtain ⟨-, -, -, hc, -, -⟩ := slotAppend_some ha
          simp [hc, crc8_append, ← hp.2 hin hcrc]
      · exact FeedOk.keep (by simp) hcur hsl (hP rfl ⟨by simp [hin], fun _ _ => hp.2 hin hcrc⟩)
    · next hcrc =>
      split
      · exact FeedOk.error _ hcur hsl
      · next cur' ha =>
        refine FeedOk.keep (by simp) (getElem?_setCur hcur rfl rfl) (hsl.append ha) (hP rfl ⟨by simp [hin], ?_⟩)
        intro _ h; exact absurd h hcrc
  unfold feedS8
  split
  · split
    · exact hstart _ (by simp) (by simp) _ (by simp)
    · exact hstart _ rfl rfl _ (by simp)
  · split
    · exact FeedOk.keep (by simp) hcur hsl (hP rfl hp)
    · next hin =>
      have hin : d.s8.inFrame = true := by simpa using hin
      split
      · split
        · exact FeedOk.error _ hcur hsl
        · unfold s8End
          split
          · split
            · exact FeedOk.error _ hcur hsl
            · split
              · exact FeedOk.error _ hcur hsl
              · next h _ => exact FeedOk.commit hcur hsl (by simp at h; omega)
          · split
            · exact FeedOk.error _ hcur hsl
            · exact FeedOk.commit hcur hsl (by omega)
      · split
        · split
          · exact FeedOk.error _ hcur hsl
          · exact FeedOk.keep (by simp) hcur hsl (hP rfl ⟨by simp [hin], hp.2⟩)
        · exact hdata hin

theorem feedS16_ok {d : DecInst} {cur : Slot} (b : Byte) (hproto : d.base.straps.proto = .simple16)
    (hcur : d.slots[d.base.ring.writePos]? = some cur)
    (hsl : SlotOk d.base.straps.slotKind d.base.straps.maxPayload cur) (hp : S16Ok d.base.straps d.s16 cur) :
    FeedOk d (feedS16 d cur b) := by
  have hP : ∀ {e : DecInst} {x : Slot}, e.base.straps = d.base.straps → S16Ok d.base.straps e.s16 x → ParseOk e x := by
    intro e x h1 h2; unfold ParseOk; rw [h1, hproto]; exact h2
  unfold feedS16
  split
  · unfold s16Sync0; split
    · exact FeedOk.keep (by simp) hcur hsl (hP rfl ⟨by simp, nofun⟩)
    · next h _ => exact FeedOk.keep (by simp) hcur hsl (hP rfl ⟨by simp [h], by simp [h]⟩)
  · next h =>
    unfold s16Sync1; repeat' split
    · exact FeedOk.keep (by simp) hcur hsl (hP rfl ⟨by simp, nofun⟩)
    · next hz => exact FeedOk.keep (by simp) hcur hsl (hP rfl ⟨fun _ => Decidable.not_not.1 hz, nofun⟩)
    · exact FeedOk.keep (by simp) hcur hsl (hP rfl ⟨by simp [h], by simp [h]⟩)
    · exact FeedOk.keep (by simp) hcur hsl (hP rfl ⟨by simp, nofun⟩)
  · next h => exact FeedOk.keep (by simp) hcur hsl (hP rfl ⟨fun _ => hp.1 (.inl h), nofun⟩)
  · next hst =>
    simp only [s16LenHi]; split
    · exact FeedOk.error _ hcur hsl
    · next h0 =>
      split
      · exact FeedOk.error _ hcur hsl
      · next hmax =>
        refine FeedOk.keep (by simp) (getElem?_setCur hcur rfl rfl) hsl.zero
          (hP rfl ⟨fun _ => hp.1 (.inr (.inl hst)), fun _ => ?_⟩)
        have h1 : (d.s16.len ||| b.setWidth 16 <<< 8).toNat ≠ 0 := fun h => h0 (BitVec.eq_of_toNat_eq (by simpa using h))
        simp only [slotZero_size, slotZero_content, setCur_s16, List.append_nil]
        refine ⟨by omega, by omega, by omega, by omega, by omega, trivial⟩
  · next hst =>
    obtain ⟨h1, h2, h3, h4, h5, h6⟩ := hp.2 hst
    have key : ∃ x, (s16Take d cur b).slots[d.base.ring.writePos]? = some x ∧
        SlotOk d.base.straps.slotKind d.base.straps.maxPayload x ∧
        (s16Take d cur b).s16.len = d.s16.len ∧ (s16Take d cur b).s16.ignored = d.s16.ignored ∧
        (s16Take d cur b).base.straps = d.base.straps ∧
        x.size + (d.s16.remaining - 1 - s16CrcBytes d.base.straps) = d.s16.len.toNat ∧
        (s16Take d cur b).s16.crc = crc16 d.base.straps (s16CrcStart d.base.straps) (le16 d.s16.len ++ content x) := by
      unfold s16Take
      split
      · next h =>
        have hc : s16CrcBytes d.base.straps = 2 := by simp [s16CrcBytes, h.1]
        refine ⟨cur, by split <;> exact hcur, hsl, by split <;> rfl, by split <;> rfl, by split <;> rfl, by omega,
          by split <;> exact h6⟩
      · next h =>
        have hlt : s16CrcBytes d.base.straps < d.s16.remaining := by
          unfold s16CrcBytes; split
          · next hc => simp [hc] at h; exact h
          · omega
        have hne : cur.size ≠ cur.max := by have := hsl.1; omega
        obtain ⟨cur', ha⟩ := slotAppend_isSome (kind := d.base.straps.slotKind) (b := b) hne
        obtain ⟨-, hs, -, hc, -, -⟩ := slotAppend_some ha
        rw [ha]
        refine ⟨cur', getElem?_setCur hcur rfl rfl, hsl.append ha, rfl, rfl, rfl, by omega, ?_⟩
        simp [hc, ← List.append_assoc, crc16_append, ← h6]
    obtain ⟨x, k1, k2, k3, k7, k4, k5, k6⟩ := key
    simp only [s16Payload]
    split
    · unfold s16End; split
      · exact FeedOk.error _ k1 k2
      · exact FeedOk.commit k1 k2 (by omega)
    · refine FeedOk.keep (by simp) k1 k2 (hP k4 ⟨fun _ => k7.trans (hp.1 (.inr (.inr hst))), fun _ => ?_⟩)
      simp only [k3]
      exact ⟨h1, h2, by omega, by omega, k5, k6⟩

theorem feedPkt_ok {d : DecInst} {cur : Slot} (b : Byte) (hproto : d.base.straps.proto = .packet)
    (hcur : d.slots[d.base.ring.writePos]? = some cur)
    (hsl : SlotOk d.base.straps.slotKind d.base.straps.maxPayload cur) (hp : PktOk d.base.straps d.pkt cur) :
    FeedOk d (feedPkt d cur b) := by
  have hP : ∀ {e : DecInst} {x : Slot}, e.base.straps = d.base.straps → PktOk d.base.straps e.pkt x → ParseOk e x := by
    intro e x h1 h2; unfold ParseOk; rw [h1, hproto]; exact h2
  unfold feedPkt
  split
  · next h =>
    split
    · exact FeedOk.keep (by simp) hcur hsl (hP rfl nofun)
    · exact FeedOk.keep (by simp) hcur hsl (hP rfl (by intro h'; simp [h] at h'))
  · next h =>
    unfold pktMagic1; repeat' split
    · exact FeedOk.keep (by simp) hcur hsl (hP rfl nofun)
    · exact FeedOk.keep (by simp) hcur hsl (hP rfl (by intro h'; simp [h] at h'))
    · exact FeedOk.keep (by simp) hcur hsl (hP rfl nofun)
  · exact FeedOk.keep (by simp) hcur hsl (hP rfl nofun)
  · exact FeedOk.keep (by simp) hcur hsl (hP rfl nofun)
  · exact FeedOk.keep (by simp) hcur hsl (hP rfl nofun)
  · simp only [pktLen0]; split
    · exact FeedOk.error _ hcur hsl
    · next h0 =>
      split
      · exact FeedOk.error _ hcur hsl
      · next hmax =>
        refine FeedOk.keep (by simp) (getElem?_setCur hcur rfl rfl) hsl.zero (hP rfl fun _ => ?_)
        have h1 : (d.pkt.len ||| b.setWidth 24).toNat ≠ 0 := fun h => h0 (BitVec.eq_of_toNat_eq (by simpa using h))
        simp only [slotZero_size, slotZero_content, setCur_pkt, List.take_nil]
        refine ⟨by omega, by omega, by omega, by simp, rfl⟩
  · next hst =>
    obtain ⟨h1, h2, h3, h4, h5⟩ := hp hst
    have hne : cur.size ≠ cur.max := by have := hsl.1; omega
    obtain ⟨cur', ha⟩ := slotAppend_isSome (kind := d.base.straps.slotKind) (b := b) hne
    obtain ⟨-, hs, -, hc, -, -⟩ := slotAppend_some ha
    have hcl : (content cur).length = cur.size := content_length cur
    have hk : ∀ e : DecInst, e.slots = d.slots → e.base = d.base →
        (setCur e cur').slots[d.base.ring.writePos]? = some cur' := fun e => getElem?_setCur hcur
    have hrem : (d.pkt.remaining - 1#24).toNat = d.pkt.remaining.toNat - 1 := by
      rw [BitVec.toNat_sub_of_le]; rfl; simp [BitVec.le_def]; omega
    have hz : d.pkt.remaining - 1#24 ≠ 0#24 → 1 ≤ (d.pkt.remaining - 1#24).toNat := by
      intro h
      rcases Nat.eq_zero_or_pos (d.pkt.remaining - 1#24).toNat with h' | h'
      · exact absurd (BitVec.eq_of_toNat_eq (by simpa using h')) h
      · exact h'
    simp only [pktPayload, ha, Option.getD_some]
    split
    · next hw =>
      have hw16 : cur.size < 16 := by simp only [Config.pktCrcWindow] at hw h4; omega
      split
      · exact FeedOk.error _ (hk _ rfl rfl) (hsl.append ha)
      · split
        · exact FeedOk.commit (hk _ rfl rfl) (hsl.append ha) (by omega)
        · next hr =>
          refine FeedOk.keep (by simp) (hk _ rfl rfl) (hsl.append ha) (hP rfl fun _ => ?_)
          refine ⟨hz hr, ?_, h3, ?_, ?_⟩
          · simp only [setCur_pkt, hrem]; omega
          · simp only [Config.pktCrcWindow] at h4 ⊢; omega
          · simp only [Config.pktCrcWindow] at h5 ⊢
            rw [hc, List.take_of_length_le (by simp; omega), crc8_append, h5, List.take_of_length_le (by omega)]
    · next hw =>
      have hw16 : 16 ≤ cur.size := by simp only [Config.pktCrcWindow] at hw h4; omega
      split
      · exact FeedOk.commit (hk _ rfl rfl) (hsl.append ha) (by omega)
      · next hr =>
        refine FeedOk.keep (by simp) (hk _ rfl rfl) (hsl.append ha) (hP rfl fun _ => ?_)
        refine ⟨hz hr, ?_, h3, ?_, ?_⟩
        · simp only [setCur_pkt, hrem]; omega
        · simp only [setCur_pkt, Config.pktCrcWindow] at h4 ⊢; omega
        · simp only [setCur_pkt, Config.pktCrcWindow] at h5 ⊢
          rw [hc, List.take_append_of_le_length (by omega), h5]

theorem feedByte_ok {d : DecInst} {cur : Slot} (b : Byte) (hcur : d.slots[d.base.ring.writePos]? = some cur)
    (hsl : SlotOk d.base.straps.slotKind d.base.straps.maxPayload cur) (hp : ParseOk d cur) :
    FeedOk d (feedByte d cur b) := by
  unfold feedByte
  split
  · next h => exact feedS8_ok b h hcur hsl (by unfold ParseOk at hp; rw [h] at hp; exact hp)
  · next h => exact feedS16_ok b h hcur hsl (by unfold ParseOk at hp; rw [h] at hp; exact hp)
  · next h => exact feedPkt_ok b h hcur hsl (by unfold ParseOk at hp; rw [h] at hp; exact hp)
  · exact FeedOk.keep (by simp) hcur hsl hp

/-! ### Datagrams -/

theorem decodeSeq_frame (d : DecInst) (cur : Slot) (buf : List Byte) : FeedFrame d (decodeSeq d cur buf) := by
  unfold decodeSeq
  repeat' split
  all_goals first
    | exact FeedFrame.error _ rfl rfl rfl (.inl rfl)
    | exact FeedFrame.commit rfl rfl rfl (.inr ⟨_, rfl⟩)

theorem decodeSeq_ok {d : DecInst} {cur : Slot} (buf : List Byte) (hcur : d.slots[d.base.ring.writePos]? = some cur)
    (hsl : SlotOk d.base.straps.slotKind d.base.straps.maxPayload cur) : FeedOk d (decodeSeq d cur buf) := by
  unfold decodeSeq
  split
  · next h2 h1 h0 body =>
    split
    · exact FeedOk.error _ hcur hsl
    · split
      · exact FeedOk.error _ hcur hsl
      · split
        · exact FeedOk.error _ hcur hsl
        · have hb : body.length ≤ d.base.straps.maxPayload := by omega
          refine FeedOk.commit (getElem?_setCur hcur rfl rfl) (hsl.fill hb) ?_
          rw [slotFill_size (by rw [hsl.1]; exact hb)]
          omega
  · exact FeedOk.error _ hcur hsl

/-! ### The invariant of a decoder -/

/-- A configured decoder: what `DecOk` says of it. -/
def DecBody (d : DecInst) : Prop :=
  RingOk d.base ∧ d.slots.length = d.base.straps.n ∧
  (∀ sl ∈ d.slots, SlotOk d.base.straps.slotKind d.base.straps.maxPayload sl) ∧
  (∀ k sl, Committed d.base k → d.slots[k]? = some sl → 1 ≤ sl.size) ∧
  (∀ cur, d.slots[d.base.ring.writePos]? = some cur → ParseOk d cur) ∧
  ∀ w, d.clearing = some w → SnapshotOk d.base w

theorem DecOk.body {d : DecInst} (h : DecOk d) (hc : d.base.configured = true) : DecBody d := h.2.1 hc

theorem DecBody.ok {d : DecInst} (h : DecBody d) (hl : d.base.configured = strapsLegal d.base.straps)
    (hc : d.base.configured = true) : DecOk d := ⟨hl, fun _ => h, fun h => by rw [hc] at h; cases h⟩

/-- Two decoders with the same slots, straps, ring, parse state and snapshot agree on the invariant. -/
theorem DecBody.congr {d e : DecInst} (h : DecBody d) (h1 : e.base.straps = d.base.straps)
    (h2 : e.base.ring = d.base.ring) (h3 : e.slots = d.slots) (h4 : e.s8 = d.s8) (h5 : e.s16 = d.s16)
    (h6 : e.pkt = d.pkt) (h7 : e.clearing = d.clearing ∨ e.clearing = none) : DecBody e := by
  obtain ⟨a, b, c, f, g, i⟩ := h
  refine ⟨a.congr h1 h2, by rw [h3, h1, b], by rw [h3, h1]; exact c, ?_, ?_, ?_⟩
  · intro k sl hk; rw [h3]; refine f k sl ?_; unfold Committed at hk ⊢; rwa [h2, queuedIdx_congr _ h1 h2] at hk
  · intro cur hc; rw [h2, h3] at hc; exact (g cur hc).congr h1 h4 h5 h6
  · intro w hw
    rcases h7 with h7 | h7
    · rw [h7] at hw; have := i w hw; unfold SnapshotOk queueSize at this ⊢; rwa [h1, h2]
    · rw [h7] at hw; cases hw

theorem DecBody.cur {d : DecInst} (h : DecBody d) : ∃ cur, d.slots[d.base.ring.writePos]? = some cur ∧
    SlotOk d.base.straps.slotKind d.base.straps.maxPayload cur ∧ ParseOk d cur := by
  obtain ⟨a, b, c, -, g, -⟩ := h
  have hv := List.getElem?_eq_getElem (show d.base.ring.writePos < d.slots.length by rw [b]; exact a.2.1)
  exact ⟨_, hv, c _ (List.getElem_mem _), g _ hv⟩

theorem FeedFrame.straps {d : DecInst} {r : DecInst × FrameEvent} (h : FeedFrame d r) :
    r.1.base.straps = d.base.straps ∧ r.1.base.configured = d.base.configured := by
  rw [h.1]; split <;> exact ⟨rfl, rfl⟩

/-- No committed slot is written by a fed byte or a datagram (20_memory R70). -/
theorem FeedFrame.slots {d : DecInst} {r : DecInst × FrameEvent} (h : FeedFrame d r) {k : Nat}
    (hk : k ≠ d.base.ring.writePos) : r.1.slots[k]? = d.slots[k]? := by
  rcases h.2.2.2.2 with e | ⟨sl, e⟩
  · rw [e]
  · rw [e, List.getElem?_set_ne (Ne.symm hk)]

theorem FeedFrame.length {d : DecInst} {r : DecInst × FrameEvent} (h : FeedFrame d r) :
    r.1.slots.length = d.slots.length := by
  rcases h.2.2.2.2 with e | ⟨sl, e⟩ <;> simp [e]

/-- A fed byte or a datagram keeps the invariant of the decoder. -/
theorem DecBody.feed {d : DecInst} {r : DecInst × FrameEvent} (h : DecBody d) (hf : FeedFrame d r) (ho : FeedOk d r) :
    DecBody r.1 := by
  obtain ⟨a, b, c, f, g, i⟩ := h
  obtain ⟨hst, -⟩ := hf.straps
  obtain ⟨hbase, hfull, -, hclr, hslots⟩ := id hf
  obtain ⟨sl, hsl, hok, hp1, hp2⟩ := ho
  have hmem : ∀ x ∈ r.1.slots, SlotOk r.1.base.straps.slotKind r.1.base.straps.maxPayload x := by
    intro x hx
    rw [hst]
    rcases hslots with e | ⟨sl', e⟩
    · rw [e] at hx; exact c x hx
    · have hlt : d.base.ring.writePos < d.slots.length := by rw [b]; exact a.2.1
      rw [e, List.getElem?_set_self hlt] at hsl
      cases hsl
      rw [e] at hx
      rcases List.mem_or_eq_of_mem_set hx with hx | rfl
      · exact c x hx
      · exact hok
  have hold : ∀ k x, Committed d.base k → r.1.slots[k]? = some x → 1 ≤ x.size := by
    intro k x hk hx
    have hne : k ≠ d.base.ring.writePos := by rintro rfl; exact writePos_not_queued a.1 a.2.1 hk
    rw [hf.slots hne] at hx
    exact f k x hk hx
  by_cases hev : r.2 = .committed
  · rw [if_pos hev] at hbase
    have hff := hfull hev
    refine ⟨by rw [hbase]; exact a.published hff, by rw [hf.length, hst, b], hmem, ?_, fun x _ => (hp2 hev).2 x, ?_⟩
    · intro k x hk hx
      unfold Committed at hk
      rw [hbase, published_writePos, queuedIdx_published a.1 a.2.1 hff, List.mem_append, List.mem_singleton] at hk
      rcases hk with hk | rfl
      · exact hold k x hk hx
      · rw [hsl] at hx; cases hx; exact (hp2 hev).1
    · intro w hw
      obtain ⟨s1, s2⟩ := i w (by rw [← hclr]; exact hw)
      have := ringSize_next_write a.1 a.2.1 hff
      rw [hbase]
      unfold SnapshotOk queueSize at *
      simp only [published_straps, published_readPos, published_writePos] at *
      exact ⟨s1, by omega⟩
  · rw [if_neg hev] at hbase
    refine ⟨by rw [hbase]; exact a, by rw [hf.length, hst, b], hmem, by rw [hbase]; exact hold, ?_, ?_⟩
    · intro x hx
      rw [hbase, hsl] at hx; cases hx; exact hp1 hev
    · intro w hw; rw [hbase]; exact i w (by rw [← hclr]; exact hw)

theorem DecBody.release {d : DecInst} (h : DecBody d) (he : isEmpty d.base = false)
    (hc : ∀ w, d.clearing = some w → d.base.ring.readPos ≠ w) : DecBody { d with base := released d.base } := by
  obtain ⟨a, b, c, f, g, i⟩ := h
  have hne := ringIsEmpty_false.1 he
  refine ⟨a.released hne, b, c, ?_, ?_, ?_⟩
  · intro k sl hk
    refine f k sl ?_
    unfold Committed at hk ⊢
    rw [queuedIdx_released a.1 a.2.1 hne]
    exact List.mem_cons_of_mem _ hk
  · intro cur hcur; exact (g cur hcur).congr rfl rfl rfl rfl
  · intro w hw
    obtain ⟨s1, s2⟩ := i w hw
    exact ⟨s1, ringSize_next_read_le a.1 a.2.1 s1 (hc w hw) s2⟩

/-! ### Atomic steps -/

/-- What one atomic step of `DEC_PUSH` answers: it goes on or it is done, and the invariant holds. -/
theorem pushAtom_ok {d : DecInst} (op : PushOp) (h : DecBody d) :
    ∃ d' pr, pushAtom op d = .ok (d', pr) ∧ DecBody d' ∧ (d' = d ∨ ∃ ev, FeedFrame d (d', ev)) := by
  obtain ⟨cur, hcur, hok, hp⟩ := h.cur
  unfold pushAtom
  split
  · simp only [slotAt_ok.2 hcur]
    refine ⟨_, _, rfl, h.feed (decodeSeq_frame d cur _) (decodeSeq_ok _ hcur hok), .inr ⟨_, decodeSeq_frame d cur _⟩⟩
  · split
    · exact ⟨_, _, rfl, h, .inl rfl⟩
    · next b bs _ =>
      simp only [slotAt_ok.2 hcur]
      have := h.feed (feedByte_frame d cur b) (feedByte_ok b hcur hok hp)
      split
      · exact ⟨_, _, rfl, this, .inr ⟨_, feedByte_frame d cur b⟩⟩
      · exact ⟨_, _, rfl, this, .inr ⟨_, feedByte_frame d cur b⟩⟩

/-- What one atomic step of `DEC_CLEAR` answers, with no older snapshot left. -/
theorem decClearAtom_ok {d : DecInst} {w : Nat} (h : DecBody { d with clearing := some w }) :
    (decClearAtom w d = .ok (d, .done (okay []))) ∨
    (decClearAtom w d = .ok ({ d with base := released d.base }, .more w) ∧
      DecBody { d with base := released d.base, clearing := some w }) := by
  unfold decClearAtom
  by_cases hw : d.base.ring.readPos = w
  · left; simp [hw]
  · right
    have hs := h.2.2.2.2.2 w rfl
    have he : isEmpty d.base = false := by
      rw [ringIsEmpty_false]
      intro e
      have h1 := hs.2
      simp only [queueSize, e, ringSize_self, Nat.le_zero] at h1
      rw [ringSize_eq_zero h.1.2.1] at h1
      exact hw (e.trans h1)
    exact ⟨if_neg hw, h.release he (fun v hv => by cases hv; exact hw)⟩

end Sys2Proof.Machine
end

