-- ==== Sys2Proof/Laws/Encoder.lean ====
section
/-! SUPPORT. The encoder's queue as a byte stream (43_encoder_base R233), and what an atomic step of a pull operation
keeps (43_encoder_base R244, R248). -/
namespace Sys2Proof.Machine

/-- A read of part of a slot is a part of its content. -/
theorem readRun_eq {sl : Slot} {off n : Nat} (h : off + n ≤ sl.size) : readRun sl off n = ((content sl).drop off).take n := by
  apply List.ext_getElem
  · simp [readRun]; omega
  · intro i h1 h2
    simp [readRun, content_getElem]

theorem content_eq (sl : Slot) : content sl = (List.range sl.size).map (byteAt sl) := by simp [content, readRun]

/-! ### The queue -/

/-- A configured encoder, without the operation in progress: what `EncOk` says of it. -/
def EncBody (e : EncInst) : Prop :=
  RingOk e.base ∧ e.slots.length = e.base.straps.n ∧
  (∀ sl ∈ e.slots, SlotOk e.base.straps.slotKind (encSlotMax e.base.straps) sl) ∧
  (∀ k sl, Committed e.base k → e.slots[k]? = some sl → 3 ≤ sl.size) ∧
  (isEmpty e.base = true → e.frontOff = 0) ∧
  (isEmpty e.base = false → ∀ sl, e.slots[e.base.ring.readPos]? = some sl → e.frontOff < sl.size) ∧
  (isDatagram e.base.straps = true → e.frontOff = 0)

theorem EncOk.body {e : EncInst} (h : EncOk e) (hc : e.base.configured = true) :
    EncBody e ∧ ∀ op, e.pulling = some op → PullOk e op := by
  obtain ⟨h1, h2, h3, h4, h5, h6, h7, h8⟩ := h.2.1 hc
  exact ⟨⟨h1, h2, h3, h4, h5, h6, h7⟩, h8⟩

theorem EncBody.ok {e : EncInst} (h : EncBody e) (hl : e.base.configured = strapsLegal e.base.straps)
    (hc : e.base.configured = true) (hp : ∀ op, e.pulling = some op → PullOk e op) : EncOk e := by
  obtain ⟨h1, h2, h3, h4, h5, h6, h7⟩ := h
  exact ⟨hl, fun _ => ⟨h1, h2, h3, h4, h5, h6, h7, hp⟩, fun h => by rw [hc] at h; cases h⟩

/-- Two encoders with the same slots, straps, ring and `front_off` agree on the invariant. -/
theorem EncBody.congr {e e' : EncInst} (h : EncBody e) (h1 : e'.base.straps = e.base.straps)
    (h2 : e'.base.ring = e.base.ring) (h3 : e'.slots = e.slots) (h4 : e'.frontOff = e.frontOff) : EncBody e' := by
  obtain ⟨a, b, c, d, f, g, i⟩ := h
  refine ⟨a.congr h1 h2, by rw [h3, h1, b], by rw [h3, h1]; exact c, ?_, ?_, ?_, by rw [h1, h4]; exact i⟩
  · intro k sl hk; rw [h3]; refine d k sl ?_; unfold Committed at hk ⊢; rwa [h2, queuedIdx_congr _ h1 h2] at hk
  · unfold isEmpty at f ⊢; rw [h2, h4]; exact f
  · unfold isEmpty at g ⊢; rw [h2, h3, h4]; exact g

/-- The queue of an encoder whose slots are all there: an index and its slot for each queued slot. -/
theorem EncBody.queue {e : EncInst} (h : EncBody e) :
    ∃ queue, encQueue e = .ok queue ∧ queue.map Prod.fst = queuedIdx e.base e.base.ring.writePos ∧
      ∀ x ∈ queue, e.slots[x.1]? = some x.2 := by
  refine slotsAt_ok fun i hi => ?_
  rw [h.2.1]
  exact queuedIdx_lt (by have := h.1.1; omega) hi

/-- The contents of the queued slots. -/
theorem slotQueue_eq {b : Base} {slots : List Slot} {queue : List (Nat × Slot)}
    (h : slotsAt slots (queuedIdx b b.ring.writePos) = .ok queue) :
    slotQueue b slots = queue.map fun x => content x.2 := by
  unfold slotQueue
  generalize queuedIdx b b.ring.writePos = is at h
  induction is generalizing queue with
  | nil => cases h; rfl
  | cons i is ih =>
    obtain ⟨x, ys, h1, h2, rfl⟩ := slotsAt_cons_ok h
    simp [h1, ih h2]

/-- `pending` counts the bytes of the pending stream (43_encoder_base R233). -/
theorem pendingBytes_eq {e : EncInst} {queue : List (Nat × Slot)} (h : encQueue e = .ok queue) :
    pendingBytes queue e.frontOff = (pendingStream e).length := by
  unfold pendingStream
  rw [slotQueue_eq h, List.length_drop, List.length_flatten]
  simp [pendingBytes, Function.comp_def]

/-- The copy loop of `ENC_FILL` copies the first bytes of the pending stream. -/
theorem fillLoop_eq (queue : List (Nat × Slot)) (off room : Nat) (h : ∀ x, queue.head? = some x → off ≤ x.2.size) :
    fillLoop queue off room = (((queue.map fun x => content x.2).flatten).drop off).take room := by
  induction queue generalizing off room with
  | nil => simp [fillLoop]
  | cons x rest ih =>
    obtain ⟨i, sl⟩ := x
    have hsz : off ≤ sl.size := h (i, sl) rfl
    unfold fillLoop
    split
    · next h0 => simp [h0]
    · rw [ih _ _ (fun y _ => Nat.zero_le _), readRun_eq (by omega)]
      simp only [List.map_cons, List.flatten_cons, List.drop_zero]
      rw [List.drop_append_of_le_length (by simpa using hsz), List.take_append, List.length_drop, content_length]
      congr 1
      · rcases le_total (sl.size - off) room with h1 | h1
        · rw [Nat.min_eq_left h1, List.take_of_length_le (by simp), List.take_of_length_le (by simp; omega)]
        · rw [Nat.min_eq_right h1]
      · congr 1
        omega

/-- The front of a queue that is not empty. -/
theorem EncBody.front {e : EncInst} (h : EncBody e) (he : isEmpty e.base = false) :
    ∃ sl, e.slots[e.base.ring.readPos]? = some sl ∧ 3 ≤ sl.size ∧ e.frontOff < sl.size ∧
      slotQueue e.base e.slots = content sl :: slotQueue (released e.base) e.slots := by
  obtain ⟨⟨hr, hw, -⟩, hl, -, hcm, -, hoff, -⟩ := h
  have hne := ringIsEmpty_false.1 he
  have hq := queuedIdx_released hr hw hne
  have hv := List.getElem?_eq_getElem (show e.base.ring.readPos < e.slots.length by rw [hl]; exact hr)
  refine ⟨_, hv, hcm _ _ ?_ hv, hoff he _ hv, ?_⟩
  · unfold Committed; rw [hq]; exact List.mem_cons_self
  · unfold slotQueue; rw [hq]; simp [hv]

theorem queueSize_released {b : Base} (h : RingOk b) (he : isEmpty b = false) :
    queueSize (released b) + 1 = queueSize b :=
  ringSize_next_read h.1 h.2.1 (ringIsEmpty_false.1 he)

/-! ### Atomic steps of a pull operation -/

theorem Committed.of_released {b : Base} (h : RingOk b) (he : isEmpty b = false) {k : Nat}
    (hk : Committed (released b) k) : Committed b k := by
  unfold Committed at hk ⊢
  rw [queuedIdx_released h.1 h.2.1 (ringIsEmpty_false.1 he)]
  exact List.mem_cons_of_mem _ hk

theorem EncBody.release {e : EncInst} (h : EncBody e) (he : isEmpty e.base = false) :
    EncBody { e with base := released e.base, frontOff := 0 } := by
  obtain ⟨hr, hl, hs, hcm, -, -, -⟩ := h
  have hr' := hr.released (ringIsEmpty_false.1 he)
  refine ⟨hr', hl, hs, ?_, fun _ => rfl, ?_, fun _ => rfl⟩
  · intro k sl hk; exact hcm k sl (hk.of_released hr he)
  · intro he' sl hsl
    have : 3 ≤ sl.size := by
      refine hcm _ sl (Committed.of_released hr he (b := e.base) ?_) hsl
      unfold Committed
      rw [queuedIdx_released hr'.1 hr'.2.1 (ringIsEmpty_false.1 he')]
      exact List.mem_cons_self
    show 0 < sl.size
    omega

/-- The bytes left when the front slot is acknowledged whole. -/
theorem EncBody.pending_release {e : EncInst} (h : EncBody e) (he : isEmpty e.base = false) {sl : Slot}
    (hv : e.slots[e.base.ring.readPos]? = some sl) :
    (pendingStream e).drop (sl.size - e.frontOff) =
      pendingStream { e with base := released e.base, frontOff := 0 } := by
  obtain ⟨sl', hv', -, h4, hq⟩ := h.front he
  rw [hv] at hv'; cases hv'
  unfold pendingStream
  rw [hq, List.drop_drop, List.flatten_cons, show e.frontOff + (sl.size - e.frontOff) = (content sl).length by simp; omega,
    List.drop_left]
  simp

/-- An empty queue has nothing pending. -/
theorem pendingStream_empty {e : EncInst} (he : isEmpty e.base = true) : pendingStream e = [] := by
  have : queuedIdx e.base e.base.ring.writePos = [] := by
    rw [queuedIdx, ringIsEmpty_iff.1 he]; simp
  simp [pendingStream, slotQueue, this]

/-- A `PullOk` move in terms of the pending stream. -/
theorem pullOk_move {e : EncInst} (h : EncBody e) (hd : isDatagram e.base.straps = false) {rem : Nat} :
    PullOk e (.move rem) ↔ rem ≤ (pendingStream e).length := by
  obtain ⟨queue, hq, -⟩ := h.queue
  unfold PullOk
  rw [← pendingBytes_eq hq]
  exact ⟨fun ⟨_, q, h1, h2⟩ => by rw [hq] at h1; cases h1; exact h2, fun h => ⟨hd, queue, hq, h⟩⟩

theorem snapshot_release {b : Base} {w : Nat} (h : RingOk b) (hs : SnapshotOk b w) (hne : b.ring.readPos ≠ w) :
    isEmpty b = false ∧ SnapshotOk (released b) w := by
  have hn : b.ring.readPos ≠ b.ring.writePos := by
    rintro e
    have h1 := hs.2
    rw [queueSize, e, ringSize_self, Nat.le_zero, ringSize_eq_zero h.2.1] at h1
    exact hne (e.trans h1)
  exact ⟨ringIsEmpty_false.2 hn, hs.1, ringSize_next_read_le h.1 h.2.1 hs.1 hne hs.2⟩

/-- What one atomic step of a pull operation answers: it goes on with the invariant kept, or it is done. -/
theorem pullAtom_ok {e : EncInst} {op : PullOp} (h : EncBody e) (hp : PullOk e op) :
    (pullAtom op e = .ok (e, .done (okay []))) ∨
    ∃ e' op', pullAtom op e = .ok (e', .more op') ∧ EncBody e' ∧ PullOk e' op' ∧ e'.slots = e.slots ∧
      e'.pulling = e.pulling ∧ (e'.base = e.base ∨ e'.base = released e.base) := by
  cases op with
  | clear w =>
    unfold pullAtom
    by_cases hw : e.base.ring.readPos = w
    · left; simp [hw]
    · right
      obtain ⟨hs, h0⟩ := hp
      obtain ⟨hne, hs'⟩ := snapshot_release h.1 hs hw
      refine ⟨_, _, if_neg hw, ?_, ⟨hs', h0⟩, rfl, rfl, .inr rfl⟩
      have := h.release hne
      rwa [← h0] at this
  | move rem =>
    have hd := hp.1
    have hle := (pullOk_move h hd).1 hp
    unfold pullAtom
    by_cases h0 : rem = 0
    · left; simp [h0]
    · right
      have hne : isEmpty e.base = false := by
        by_contra hc
        rw [pendingStream_empty (by simpa using hc)] at hle
        simp at hle; exact h0 hle
      obtain ⟨sl, hv, -, h4, -⟩ := h.front hne
      simp only [h0, if_false, slotAt_ok.2 hv]
      by_cases hlt : rem < sl.size - e.frontOff
      · simp only [hlt, if_true]
        obtain ⟨b1, b2, b3, b4, b5, b6, b7⟩ := h
        have hb : EncBody { e with frontOff := e.frontOff + rem } := by
          refine ⟨b1, b2, b3, b4, fun hc => ?_, fun _ sl' hv' => ?_, fun hc => ?_⟩
          · exact absurd (show isEmpty e.base = true from hc) (by simp [hne])
          · rw [show e.slots[e.base.ring.readPos]? = some sl' from hv'] at hv; cases hv
            show e.frontOff + rem < sl.size
            omega
          · exact absurd (show isDatagram e.base.straps = true from hc) (by simp [hd])
        exact ⟨_, _, rfl, hb, (pullOk_move hb hd).2 (Nat.zero_le _), rfl, rfl, .inl rfl⟩
      · simp only [hlt, if_false]
        have hb := h.release hne
        refine ⟨_, _, rfl, hb, (pullOk_move hb hd).2 ?_, rfl, rfl, .inr rfl⟩
        rw [← h.pending_release hne hv, List.length_drop]
        omega

/-! ### A publish -/

theorem Committed.published_iff {b : Base} (h : RingOk b) (hf : isFull b = false) {k : Nat} :
    Committed (published b) k ↔ Committed b k ∨ k = b.ring.writePos := by
  unfold Committed
  rw [published_writePos, queuedIdx_published h.1 h.2.1 hf, List.mem_append, List.mem_singleton]

/-- The queue after a publish of a slot: its content is queued last. -/
theorem slotQueue_published {b : Base} {slots : List Slot} {sl : Slot} (h : RingOk b) (hf : isFull b = false)
    (hl : slots.length = b.straps.n) :
    slotQueue (published b) (slots.set b.ring.writePos sl) = slotQueue b slots ++ [content sl] := by
  have hlt : b.ring.writePos < slots.length := by rw [hl]; exact h.2.1
  unfold slotQueue
  rw [published_writePos, queuedIdx_published h.1 h.2.1 hf, List.map_append, List.map_singleton,
    List.getElem?_set_self hlt]
  congr 1
  apply List.map_congr_left
  intro k hk
  have hne : k ≠ b.ring.writePos := by rintro rfl; exact writePos_not_queued h.1 h.2.1 hk
  rw [List.getElem?_set_ne (Ne.symm hne)]

/-- An encoder keeps its invariant, and what a pull operation in progress needs, under a publish. -/
theorem EncBody.push {e : EncInst} {sl : Slot} (h : EncBody e) (hf : isFull e.base = false)
    (hok : SlotOk e.base.straps.slotKind (encSlotMax e.base.straps) sl) (h3 : 3 ≤ sl.size) :
    EncBody { e with base := published e.base, slots := e.slots.set e.base.ring.writePos sl } ∧
      ∀ op, PullOk e op →
        PullOk { e with base := published e.base, slots := e.slots.set e.base.ring.writePos sl } op := by
  have hbody : EncBody { e with base := published e.base, slots := e.slots.set e.base.ring.writePos sl } := by
    obtain ⟨b1, b2, b3, b4, b5, b6, b7⟩ := h
    have hlt : e.base.ring.writePos < e.slots.length := by rw [b2]; exact b1.2.1
    have hr' := b1.published hf
    have hnf : e.base.ring.readPos ≠ ringNext e.base.straps.n e.base.ring.writePos := by
      have := ringIsFull_false.1 hf; exact fun h => this h.symm
    refine ⟨hr', by simpa using b2, ?_, ?_, ?_, ?_, b7⟩
    · intro x hx
      rcases List.mem_or_eq_of_mem_set hx with hx | rfl
      · exact b3 x hx
      · exact hok
    · intro k x hk hx
      rcases (Committed.published_iff b1 hf).1 hk with hk | rfl
      · have hne : k ≠ e.base.ring.writePos := by rintro rfl; exact writePos_not_queued b1.1 b1.2.1 hk
        simp only [List.getElem?_set_ne (Ne.symm hne)] at hx
        exact b4 k x hk hx
      · simp only [List.getElem?_set_self hlt, Option.some.injEq] at hx; subst hx; exact h3
    · intro he; exact absurd (ringIsEmpty_iff.1 he) hnf
    · intro _ x hx
      by_cases he : e.base.ring.readPos = e.base.ring.writePos
      · simp only [published_readPos, he, List.getElem?_set_self hlt, Option.some.injEq] at hx
        subst hx
        show e.frontOff < sl.size
        rw [b5 (ringIsEmpty_iff.2 he)]; omega
      · simp only [published_readPos, List.getElem?_set_ne (Ne.symm he)] at hx
        exact b6 (ringIsEmpty_false.2 he) x hx
  refine ⟨hbody, fun op hop => ?_⟩
  cases op with
  | clear w =>
    obtain ⟨⟨s1, s2⟩, h0⟩ := hop
    have := ringSize_next_write h.1.1 h.1.2.1 hf
    refine ⟨⟨s1, ?_⟩, h0⟩
    unfold queueSize at s2 ⊢
    simp only [published_straps, published_readPos, published_writePos]
    omega
  | move rem =>
    have hle := (pullOk_move h hop.1).1 hop
    refine (pullOk_move hbody hop.1).2 (hle.trans ?_)
    unfold pendingStream
    simp only [slotQueue_published h.1 hf h.2.1, List.length_drop, List.flatten_append, List.length_append]
    omega

end Sys2Proof.Machine
end

