-- ==== Sys2Proof/Laws/Encoding.lean ====
section
/-! SUPPORT. Little-endian numbers, and each operand format read back from its bytes and the other way (30_encoding R108,
R110). -/
namespace Sys2Proof

@[simp] theorem leBytes_length (k v : Nat) : (leBytes k v).length = k := by
  induction k generalizing v with
  | zero => rfl
  | succ k ih => simp [leBytes, ih]

theorem leNat_leBytes (k v : Nat) (h : v < 256 ^ k) : leNat (leBytes k v) = v := by
  induction k generalizing v with
  | zero => simp at h; simp [leBytes, leNat, h]
  | succ k ih =>
    have := ih (v / 256) (by rw [pow_succ] at h; omega)
    simp only [leBytes, leNat, this, BitVec.toNat_ofNat]
    omega

theorem leBytes_leNat (bs : List Byte) : leBytes bs.length (leNat bs) = bs := by
  induction bs with
  | nil => rfl
  | cons b bs ih =>
    have hb : b.toNat < 256 := b.isLt
    have h1 : (b.toNat + 256 * leNat bs) / 256 = leNat bs := by omega
    simp only [List.length_cons, leBytes, leNat, h1, ih]
    congr 1
    apply BitVec.eq_of_toNat_eq
    simp
    omega

theorem leNat_lt (bs : List Byte) : leNat bs < 256 ^ bs.length := by
  induction bs with
  | nil => simp [leNat]
  | cons b bs ih =>
    have hb : b.toNat < 256 := b.isLt
    simp only [leNat, List.length_cons, pow_succ]
    omega

/-- A value of `ELEM_W` bits fits its bytes. -/
theorem lt_valueBytes {elemW v : Nat} (h : v < 2 ^ elemW) : v < 256 ^ valueBytes elemW := by
  rw [show (256 : Nat) = 2 ^ 8 from rfl, ← pow_mul]
  refine lt_of_lt_of_le h (Nat.pow_le_pow_right (by decide) ?_)
  unfold valueBytes
  omega

/-! ### Reading back what was written -/

theorem operandA_leBytes (mk : U32 → Instr) (n : U32) (rest : List Byte) :
    operandA mk (leBytes 4 n.toNat ++ rest) = .ok (mk n, rest) := by
  have h := leNat_leBytes 4 n.toNat (by have := n.isLt; omega)
  simp only [leBytes, List.cons_append, List.nil_append] at h ⊢
  simp only [operandA, h]
  simp

theorem operandB_leBytes (mk : List Byte → Instr) (buf rest : List Byte) (hb : buf.length < 2 ^ 32) :
    operandB mk (leBytes 4 buf.length ++ buf ++ rest) = .ok (mk buf, rest) := by
  have h := leNat_leBytes 4 buf.length (by omega)
  simp only [leBytes, List.cons_append, List.nil_append] at h ⊢
  simp only [operandB, h]
  simp

theorem operandV_leBytes (elemW : Nat) (mk : Nat → Instr) (v : Nat) (rest : List Byte) (hv : v < 2 ^ elemW) :
    operandV elemW mk (leBytes (valueBytes elemW) v ++ rest) = .ok (mk v, rest) := by
  have h := leNat_leBytes (valueBytes elemW) v (lt_valueBytes hv)
  have ht : (leBytes (valueBytes elemW) v ++ rest).take (valueBytes elemW) = leBytes (valueBytes elemW) v :=
    List.take_left' (by simp)
  have hd : (leBytes (valueBytes elemW) v ++ rest).drop (valueBytes elemW) = rest := List.drop_left' (by simp)
  simp [operandV, ht, hd, h, hv]

/-! ### What was read is the spelling of what was answered -/

theorem operandY_inv {mk : Byte → Instr} {bs rest : List Byte} {i : Instr} (h : operandY mk bs = .ok (i, rest)) :
    ∃ b, i = mk b ∧ bs = b :: rest := by
  cases bs <;> simp [operandY] at h
  exact ⟨_, h.1.symm, by rw [h.2]⟩

theorem operandA_inv {mk : U32 → Instr} {bs rest : List Byte} {i : Instr} (h : operandA mk bs = .ok (i, rest)) :
    ∃ n : U32, i = mk n ∧ bs = leBytes 4 n.toNat ++ rest := by
  unfold operandA at h
  split at h
  · next a b c d r =>
    simp only [Except.ok.injEq, Prod.mk.injEq] at h
    refine ⟨_, h.1.symm, ?_⟩
    have h1 := leNat_lt [a, b, c, d]
    have h2 := leBytes_leNat [a, b, c, d]
    rw [BitVec.toNat_ofNat, Nat.mod_eq_of_lt (by simpa using h1), ← h.2]
    simp only [List.length_cons, List.length_nil] at h2
    rw [h2]
    rfl
  · cases h

theorem operandB_inv {mk : List Byte → Instr} {bs rest : List Byte} {i : Instr} (h : operandB mk bs = .ok (i, rest)) :
    ∃ buf : List Byte, i = mk buf ∧ buf.length < 2 ^ 32 ∧ bs = leBytes 4 buf.length ++ buf ++ rest := by
  unfold operandB at h
  split at h
  · next a b c d r =>
    split at h
    · next hl =>
      simp only [Except.ok.injEq, Prod.mk.injEq] at h
      have h1 := leNat_lt [a, b, c, d]
      have h2 := leBytes_leNat [a, b, c, d]
      simp only [List.length_cons, List.length_nil] at h2
      refine ⟨_, h.1.symm, ?_, ?_⟩
      · rw [List.length_take, Nat.min_eq_left hl]; simpa using h1
      · rw [List.length_take, Nat.min_eq_left hl, h2, ← h.2]; simp
    · cases h
  · cases h

theorem operandV_inv {elemW : Nat} {mk : Nat → Instr} {bs rest : List Byte} {i : Instr}
    (h : operandV elemW mk bs = .ok (i, rest)) :
    ∃ v, i = mk v ∧ v < 2 ^ elemW ∧ bs = leBytes (valueBytes elemW) v ++ rest := by
  unfold operandV at h
  split at h
  · cases h
  · split at h
    · next hl hv =>
      simp only [Except.ok.injEq, Prod.mk.injEq] at h
      refine ⟨_, h.1.symm, hv, ?_⟩
      have h2 := leBytes_leNat (bs.take (valueBytes elemW))
      rw [List.length_take, Nat.min_eq_left (by omega)] at h2
      rw [h2, ← h.2]
      simp
    · cases h

end Sys2Proof
end

