-- ==== Sys2Proof/Laws/Invariant.lean ====
section
/-! SUPPORT. The invariant, operation by operation: what each instance keeps under its own operations, under a change of
a port, and right after its reset. -/
namespace Sys2Proof.Machine

/-! ### A change of the ports -/

/-- Only ports differ. -/
def SamePorted (b b' : Base) : Prop := b'.straps = b.straps ∧ b'.configured = b.configured ∧ b'.ring = b.ring

theorem samePorted_setBasePort (b : Base) (q : PortId) (x : Port) : SamePorted b (setBasePort b q x) := by
  simp [SamePorted]

theorem InstOk.ported {b b' : Base} {rest rest' idle idle' : Prop} (h : InstOk b rest idle) (hb : SamePorted b b')
    (hr : RingOk b → rest → rest') (hi : idle → idle') : InstOk b' rest' idle' := by
  obtain ⟨h1, h2, h3⟩ := hb
  obtain ⟨k1, k2, k3⟩ := h
  refine ⟨by rw [h1, h2, k1], fun h => ?_, fun h => ?_⟩
  · rw [h2] at h; obtain ⟨r1, r2⟩ := k2 h; exact ⟨r1.congr h1 h3, hr r1 r2⟩
  · rw [h2] at h; rw [h3]; obtain ⟨r1, r2, r3, r4⟩ := k3 h; exact ⟨r1, r2, r3, hi r4⟩

theorem Committed.ported {b b' : Base} (hb : SamePorted b b') {k : Nat} : Committed b' k ↔ Committed b k := by
  obtain ⟨h1, -, h3⟩ := hb
  unfold Committed; rw [h3, queuedIdx_congr _ h1 h3]

theorem RgOk.ported {i : RgInst} {b : Base} (h : RgOk i) (hb : SamePorted i.base b) : RgOk { i with base := b } := by
  refine InstOk.ported h hb ?_ id
  rintro - ⟨h1, h2, h3⟩
  refine ⟨by simp only [h1, hb.1], fun k e hk => ?_, ?_⟩
  · rw [Committed.ported hb]; exact h2 k e hk
  · simp only [hb.1]; exact h3

theorem PoolOk.ported {i : PoolInst} {b : Base} (h : PoolOk i) (hb : SamePorted i.base b) :
    PoolOk { i with base := b } := by
  refine InstOk.ported h hb ?_ id
  rintro - ⟨h1, h2⟩
  simp only [hb.1]
  exact ⟨h1, h2⟩

theorem DecOk.ported {d : DecInst} {b : Base} (h : DecOk d) (hb : SamePorted d.base b) : DecOk { d with base := b } :=
  InstOk.ported h hb
    (fun hr hx => (DecBody.congr (e := { d with base := b }) ⟨hr, hx⟩ hb.1 hb.2.2 rfl rfl rfl rfl (.inl rfl)).2) id

theorem PullOk.ported {e : EncInst} {b : Base} {op : PullOp} (h : PullOk e op) (hb : SamePorted e.base b) :
    PullOk { e with base := b } op := by
  obtain ⟨h1, -, h3⟩ := hb
  cases op with
  | clear w => unfold PullOk SnapshotOk queueSize at h ⊢; simpa [h1, h3] using h
  | move rem =>
    obtain ⟨k1, q, k2, k3⟩ := h
    exact ⟨by simpa [h1] using k1, q, by unfold encQueue at k2 ⊢; simpa [h3, queuedIdx_congr _ h1 h3] using k2, k3⟩

theorem EncOk.ported {e : EncInst} {b : Base} (h : EncOk e) (hb : SamePorted e.base b) : EncOk { e with base := b } := by
  refine InstOk.ported h hb ?_ id
  rintro hr ⟨k1, k2, k3, k4, k5, k6, k7⟩
  have := (EncBody.congr (e' := { e with base := b }) ⟨hr, k1, k2, k3, k4, k5, k6⟩ hb.1 hb.2.2 rfl rfl).2
  obtain ⟨m1, m2, m3, m4, m5, m6⟩ := this
  exact ⟨m1, m2, m3, m4, m5, m6, fun op hop => (k7 op hop).ported hb⟩

/-- A port may change: the invariant says nothing of ports. -/
theorem StateOk.setPort {s : State} (h : StateOk s) (k : Kind) (q : PortId) (x : Port) : StateOk (s.setPort k q x) := by
  obtain ⟨h1, h2, h3, h4⟩ := h
  have hb := samePorted_setBasePort (s.base k) q x
  cases k
  · exact ⟨h1.ported hb, h2, h3, h4⟩
  · exact ⟨h1, h2.ported hb, h3, h4⟩
  · exact ⟨h1, h2, h3.ported hb, h4⟩
  · exact ⟨h1, h2, h3, h4.ported hb⟩

theorem StateOk.answer {s : State} (h : StateOk s) (r : Response) : StateOk (s.answer r) := h.setPort _ _ _

/-! ### Fresh instances -/

theorem InstOk.fresh {st : Straps} {p c : List Byte} {n : Nat} {rest idle : Prop}
    (hr : strapsLegal st = true → rest) (hi : idle) : InstOk (freshBase st p c n) rest idle := by
  refine ⟨rfl, fun h => ⟨?_, hr h⟩, fun _ => ⟨rfl, rfl, rfl, hi⟩⟩
  have h2 : 2 ≤ st.n := by
    have : strapsLegal st = true := h
    unfold strapsLegal at this
    simp only [Bool.and_eq_true, decide_eq_true_eq] at this
    omega
  refine ⟨?_, ?_, ?_⟩
  · show 0 < st.n; omega
  · show 0 < st.n; omega
  · simp [freshBase, queueSize]

theorem queuedIdx_fresh (st : Straps) (p c : List Byte) (n : Nat) : queuedIdx (freshBase st p c n) 0 = [] := by
  simp [queuedIdx, freshBase]

theorem not_committed_fresh (st : Straps) (p c : List Byte) (n k : Nat) : ¬Committed (freshBase st p c n) k := by
  unfold Committed
  rw [show (freshBase st p c n).ring.writePos = 0 from rfl, queuedIdx_fresh]
  simp

theorem RgOk.fresh (st : Straps) (p c : List Byte) (n : Nat) : RgOk (freshRg st p c n) := by
  refine InstOk.fresh (fun _ => ⟨by simp [freshRg, freshBase], fun k e hk => ?_, fun k v hk => ?_⟩) trivial
  · have : e = none := by
      have := List.mem_of_getElem? hk
      exact (List.mem_replicate.1 this).2
    subst this
    simp only [ne_eq, not_true_eq_false, false_iff]
    exact not_committed_fresh st p c n k
  · have := List.mem_of_getElem? hk
    cases (List.mem_replicate.1 this).2

theorem PoolOk.fresh (st : Straps) (fill : Nat) (p c : List Byte) (n : Nat) : PoolOk (freshPool st fill p c n) := by
  refine InstOk.fresh (fun _ => ⟨by simp [freshPool, freshBase], fun sl hs => ?_⟩) trivial
  rw [(List.mem_replicate.1 hs).2]
  exact SlotOk.fresh _ _ _

theorem DecOk.fresh (st : Straps) (fill : Nat) (p c : List Byte) (n : Nat) (rs : List Report) :
    DecOk (freshDec st fill p c n rs) := by
  refine InstOk.fresh (fun _ => ⟨by simp [freshDec, freshBase], fun sl hs => ?_, fun k sl hk => ?_, fun cur _ => ?_, nofun⟩)
    ⟨rfl, rfl⟩
  · rw [(List.mem_replicate.1 hs).2]; exact SlotOk.fresh _ _ _
  · exact absurd hk (not_committed_fresh st p c n k)
  · unfold ParseOk
    split
    · exact ⟨fun _ => ⟨rfl, rfl⟩, nofun⟩
    · exact ⟨nofun, nofun⟩
    · exact nofun
    · trivial

theorem EncOk.fresh (st : Straps) (fill : Nat) (p c : List Byte) (n : Nat) : EncOk (freshEnc st fill p c n) := by
  refine InstOk.fresh (fun _ => ⟨by simp [freshEnc, freshBase], fun sl hs => ?_, fun k sl hk => ?_, fun _ => rfl, nofun,
    fun _ => rfl, nofun⟩) rfl
  · rw [(List.mem_replicate.1 hs).2]; exact SlotOk.fresh _ _ _
  · exact absurd hk (not_committed_fresh st p c n k)

/-! ### The general ring -/

/-- A general ring keeps its invariant under a publish of an element that fits. -/
theorem RgOk.push {i : RgInst} {v : Nat} (h : RgOk i) (hc : i.base.configured = true) (hf : isFull i.base = false)
    (hv : v < 2 ^ i.base.straps.elemW) :
    RgOk { base := published i.base, slots := i.slots.set i.base.ring.writePos (some v) } := by
  obtain ⟨hcfg, hrun, -⟩ := h
  obtain ⟨hr, hl, h2, h3⟩ := hrun hc
  have hq := queuedIdx_published hr.1 hr.2.1 hf
  have hlt : i.base.ring.writePos < i.slots.length := by rw [hl]; exact hr.2.1
  refine ⟨hcfg, fun _ => ⟨hr.published hf, by simpa using hl, ?_, ?_⟩, fun h => by
    rw [show (published i.base).configured = true from hc] at h; cases h⟩
  · intro k e hk
    unfold Committed
    simp only [published_writePos]
    rw [hq, List.mem_append, List.mem_singleton]
    by_cases hkw : k = i.base.ring.writePos
    · subst hkw
      simp only [List.getElem?_set_self hlt, Option.some.injEq] at hk
      simp [← hk]
    · simp only [List.getElem?_set_ne (Ne.symm hkw)] at hk
      simp only [hkw, or_false]
      exact h2 k e hk
  · intro k x hk
    by_cases hkw : k = i.base.ring.writePos
    · subst hkw
      simp only [List.getElem?_set_self hlt, Option.some.injEq] at hk
      subst hk
      exact hv
    · simp only [List.getElem?_set_ne (Ne.symm hkw)] at hk
      exact h3 k x hk

/-- A general ring keeps its invariant under a release: the slot released is dead. -/
theorem RgOk.pop {i : RgInst} (h : RgOk i) (hc : i.base.configured = true) (he : isEmpty i.base = false) :
    RgOk { base := released i.base, slots := i.slots.set i.base.ring.readPos none } := by
  obtain ⟨hcfg, hrun, -⟩ := h
  obtain ⟨hr, hl, h2, h3⟩ := hrun hc
  have hne := ringIsEmpty_false.1 he
  have hq := queuedIdx_released hr.1 hr.2.1 hne
  have hlt : i.base.ring.readPos < i.slots.length := by rw [hl]; exact hr.1
  refine ⟨hcfg, fun _ => ⟨hr.released hne, by simpa using hl, ?_, ?_⟩, fun h => by
    rw [show (released i.base).configured = true from hc] at h; cases h⟩
  · intro k e hk
    unfold Committed
    simp only [released_writePos]
    by_cases hkr : k = i.base.ring.readPos
    · subst hkr
      simp only [List.getElem?_set_self hlt, Option.some.injEq] at hk
      subst hk
      simp only [ne_eq, not_true_eq_false, false_iff]
      exact readPos_not_queued_released hr.1 hr.2.1 hne
    · simp only [List.getElem?_set_ne (Ne.symm hkr)] at hk
      rw [h2 k e hk]
      unfold Committed
      rw [hq, List.mem_cons]
      simp [hkr]
  · intro k x hk
    by_cases hkr : k = i.base.ring.readPos
    · subst hkr
      simp only [List.getElem?_set_self hlt, Option.some.injEq] at hk
      cases hk
    · simp only [List.getElem?_set_ne (Ne.symm hkr)] at hk
      exact h3 k x hk

/-- The front of a general ring that is not empty is live. -/
theorem RgOk.front {i : RgInst} (h : RgOk i) (hc : i.base.configured = true) (he : isEmpty i.base = false) :
    ∃ v, i.slots[i.base.ring.readPos]? = some (some v) ∧ v < 2 ^ i.base.straps.elemW := by
  obtain ⟨-, hrun, -⟩ := h
  obtain ⟨hr, hl, h2, h3⟩ := hrun hc
  have hne := ringIsEmpty_false.1 he
  have hv := List.getElem?_eq_getElem (show i.base.ring.readPos < i.slots.length by rw [hl]; exact hr.1)
  have hcm : Committed i.base i.base.ring.readPos := by
    unfold Committed; rw [queuedIdx_released hr.1 hr.2.1 hne]; exact List.mem_cons_self
  obtain ⟨v, hv'⟩ := Option.ne_none_iff_exists'.1 ((h2 _ _ hv).2 hcm)
  rw [hv'] at hv
  exact ⟨v, hv, h3 _ _ hv⟩

/-! ### The standalone pool -/

theorem PoolOk.cur {i : PoolInst} (h : PoolOk i) (hc : i.base.configured = true) :
    ∃ sl, i.slots[i.base.ring.writePos]? = some sl ∧ SlotOk i.base.straps.slotKind i.base.straps.maxPayload sl := by
  obtain ⟨-, hrun, -⟩ := h
  obtain ⟨hr, hl, h2⟩ := hrun hc
  have hv := List.getElem?_eq_getElem (show i.base.ring.writePos < i.slots.length by rw [hl]; exact hr.2.1)
  exact ⟨_, hv, h2 _ (List.getElem_mem _)⟩

theorem PoolOk.setCur {i : PoolInst} {sl : Slot} (h : PoolOk i) (hc : i.base.configured = true)
    (hs : SlotOk i.base.straps.slotKind i.base.straps.maxPayload sl) : PoolOk (setPoolCur i sl) := by
  obtain ⟨hcfg, hrun, -⟩ := h
  obtain ⟨hr, hl, h2⟩ := hrun hc
  refine ⟨hcfg, fun _ => ⟨hr, by simpa [setPoolCur] using hl, fun x hx => ?_⟩, fun h => by
    rw [show (setPoolCur i sl).base.configured = true from hc] at h; cases h⟩
  rcases List.mem_or_eq_of_mem_set hx with hx | rfl
  · exact h2 x hx
  · exact hs

theorem PoolOk.ring {i : PoolInst} {b : Base} (h : PoolOk i) (hc : i.base.configured = true)
    (h1 : b.straps = i.base.straps) (h2 : b.configured = i.base.configured) (h3 : RingOk b) :
    PoolOk { i with base := b } := by
  obtain ⟨hcfg, hrun, -⟩ := h
  obtain ⟨-, hl, h4⟩ := hrun hc
  refine ⟨by simp only [h1, h2, hcfg], fun _ => ⟨h3, by simp only [h1]; exact hl, by simp only [h1]; exact h4⟩, fun h => ?_⟩
  simp only [h2, hc] at h
  cases h

end Sys2Proof.Machine
end

