-- ==== Sys2Proof/Laws/PerInstr.lean ====
section
/-! SUPPORT. A statement for every command, one lemma each: its home is a port that accepts it, and every port that
accepts it belongs to an instance of its home's kind (30_encoding R109). -/
namespace Sys2Proof.Laws.Home
open Sys2Proof.Machine

/-- The home of a command accepts it, and no other kind of instance does (30_encoding R109). -/
def Statement (i : Instr) : Prop :=
  acceptedOn i (commandHome i).1 (commandHome i).2 = true ∧ ∀ k q, acceptedOn i k q = true → k = (commandHome i).1

theorem sbSize : Statement .sbSize := ⟨rfl, by intro k q h; cases k <;> cases q <;> first | rfl | cases h⟩
theorem sbZero : Statement .sbZero := ⟨rfl, by intro k q h; cases k <;> cases q <;> first | rfl | cases h⟩
theorem sbAppend (b : Byte) : Statement (.sbAppend b) := ⟨rfl, by intro k q h; cases k <;> cases q <;> first | rfl | cases h⟩
theorem sbAlloc (n : U32) : Statement (.sbAlloc n) := ⟨rfl, by intro k q h; cases k <;> cases q <;> first | rfl | cases h⟩
theorem rgPush (value : Nat) : Statement (.rgPush value) := ⟨rfl, by intro k q h; cases k <;> cases q <;> first | rfl | cases h⟩
theorem rgPop : Statement .rgPop := ⟨rfl, by intro k q h; cases k <;> cases q <;> first | rfl | cases h⟩
theorem rgFront : Statement .rgFront := ⟨rfl, by intro k q h; cases k <;> cases q <;> first | rfl | cases h⟩
theorem rgEmpty : Statement .rgEmpty := ⟨rfl, by intro k q h; cases k <;> cases q <;> first | rfl | cases h⟩
theorem rgFull : Statement .rgFull := ⟨rfl, by intro k q h; cases k <;> cases q <;> first | rfl | cases h⟩
theorem rgSize : Statement .rgSize := ⟨rfl, by intro k q h; cases k <;> cases q <;> first | rfl | cases h⟩
theorem rpPush : Statement .rpPush := ⟨rfl, by intro k q h; cases k <;> cases q <;> first | rfl | cases h⟩
theorem rpPop : Statement .rpPop := ⟨rfl, by intro k q h; cases k <;> cases q <;> first | rfl | cases h⟩
theorem rpFront : Statement .rpFront := ⟨rfl, by intro k q h; cases k <;> cases q <;> first | rfl | cases h⟩
theorem rpEmpty : Statement .rpEmpty := ⟨rfl, by intro k q h; cases k <;> cases q <;> first | rfl | cases h⟩
theorem rpFull : Statement .rpFull := ⟨rfl, by intro k q h; cases k <;> cases q <;> first | rfl | cases h⟩
theorem rpSize : Statement .rpSize := ⟨rfl, by intro k q h; cases k <;> cases q <;> first | rfl | cases h⟩
theorem decPush (buf : List Byte) : Statement (.decPush buf) := ⟨rfl, by intro k q h; cases k <;> cases q <;> first | rfl | cases h⟩
theorem decPop : Statement .decPop := ⟨rfl, by intro k q h; cases k <;> cases q <;> first | rfl | cases h⟩
theorem decPeek : Statement .decPeek := ⟨rfl, by intro k q h; cases k <;> cases q <;> first | rfl | cases h⟩
theorem decEmpty : Statement .decEmpty := ⟨rfl, by intro k q h; cases k <;> cases q <;> first | rfl | cases h⟩
theorem decClear : Statement .decClear := ⟨rfl, by intro k q h; cases k <;> cases q <;> first | rfl | cases h⟩
theorem decErrcnt : Statement .decErrcnt := ⟨rfl, by intro k q h; cases k <;> cases q <;> first | rfl | cases h⟩
theorem decErrcntRst : Statement .decErrcntRst := ⟨rfl, by intro k q h; cases k <;> cases q <;> first | rfl | cases h⟩
theorem encPush (msg : List Byte) : Statement (.encPush msg) := ⟨rfl, by intro k q h; cases k <;> cases q <;> first | rfl | cases h⟩
theorem encEmpty : Statement .encEmpty := ⟨rfl, by intro k q h; cases k <;> cases q <;> first | rfl | cases h⟩
theorem encFill (maxLen : U32) : Statement (.encFill maxLen) := ⟨rfl, by intro k q h; cases k <;> cases q <;> first | rfl | cases h⟩
theorem encMove (len : U32) : Statement (.encMove len) := ⟨rfl, by intro k q h; cases k <;> cases q <;> first | rfl | cases h⟩
theorem encClear : Statement .encClear := ⟨rfl, by intro k q h; cases k <;> cases q <;> first | rfl | cases h⟩
theorem encGather : Statement .encGather := ⟨rfl, by intro k q h; cases k <;> cases q <;> first | rfl | cases h⟩

end Sys2Proof.Laws.Home
end

