-- ==== Sys2Proof/Tests/Slice0.lean ====
section
/-! SUPPORT. Tests: ill-formed commands, command words and frames written out from 30_encoding and 95_test_vectors, one or
two steps per command, and a witness for the hypotheses of each statement. -/
namespace Sys2Proof.Tests
open Sys2Proof Sys2Proof.Machine
set_option Elab.async false

/-! ### Well-formedness -/

theorem smoke_rgPush_overwide_refused : (Instr.rgPush 256).wf 8 = false ∧ (Instr.rgPush 255).wf 8 = true := by decide

theorem smoke_decPush_too_long_refused (buf : List Byte) (h : 2 ^ 32 ≤ buf.length) :
    (Instr.decPush buf).wf 8 = false := by simp [Instr.wf]; omega

theorem smoke_encPush_too_long_refused (msg : List Byte) (h : 2 ^ 32 ≤ msg.length) :
    (Instr.encPush msg).wf 8 = false := by simp [Instr.wf]; omega

/-! ### Decoding, every constructor from bytes written out of 30_encoding R108, R109 -/

theorem test_decode_slot_buffer :
    decode 8 [0x10#8] = .ok (.sbSize, []) ∧ decode 8 [0x11#8] = .ok (.sbZero, []) ∧
    decode 8 [0x12#8, 0x41#8] = .ok (.sbAppend 0x41#8, []) ∧
    decode 8 [0x13#8, 0x05#8, 0x00#8, 0x00#8, 0x80#8] = .ok (.sbAlloc 0x80000005#32, []) := ⟨rfl, rfl, rfl, rfl⟩

theorem test_decode_general_ring :
    decode 8 [0x20#8, 0x11#8] = .ok (.rgPush 0x11, []) ∧ decode 12 [0x20#8, 0x34#8, 0x02#8] = .ok (.rgPush 0x234, []) ∧
    decode 8 [0x21#8] = .ok (.rgPop, []) ∧ decode 8 [0x22#8] = .ok (.rgFront, []) ∧
    decode 8 [0x23#8] = .ok (.rgEmpty, []) ∧ decode 8 [0x24#8] = .ok (.rgFull, []) ∧
    decode 8 [0x25#8] = .ok (.rgSize, []) := ⟨rfl, rfl, rfl, rfl, rfl, rfl, rfl⟩

theorem test_decode_pool_ring :
    decode 8 [0x28#8] = .ok (.rpPush, []) ∧ decode 8 [0x29#8] = .ok (.rpPop, []) ∧
    decode 8 [0x2A#8] = .ok (.rpFront, []) ∧ decode 8 [0x2B#8] = .ok (.rpEmpty, []) ∧
    decode 8 [0x2C#8] = .ok (.rpFull, []) ∧ decode 8 [0x2D#8] = .ok (.rpSize, []) := ⟨rfl, rfl, rfl, rfl, rfl, rfl⟩

theorem test_decode_decoder :
    decode 8 [0x30#8, 0x02#8, 0x00#8, 0x00#8, 0x00#8, 0x45#8, 0x01#8, 0x32#8] =
      .ok (.decPush [0x45#8, 0x01#8], [0x32#8]) ∧
    decode 8 [0x31#8] = .ok (.decPop, []) ∧ decode 8 [0x32#8] = .ok (.decPeek, []) ∧
    decode 8 [0x33#8] = .ok (.decEmpty, []) ∧ decode 8 [0x34#8] = .ok (.decClear, []) ∧
    decode 8 [0x35#8] = .ok (.decErrcnt, []) ∧ decode 8 [0x36#8] = .ok (.decErrcntRst, []) :=
  ⟨rfl, rfl, rfl, rfl, rfl, rfl, rfl⟩

theorem test_decode_encoder :
    decode 8 [0x40#8, 0x01#8, 0x00#8, 0x00#8, 0x00#8, 0xEE#8] = .ok (.encPush [0xEE#8], []) ∧
    decode 8 [0x41#8] = .ok (.encEmpty, []) ∧
    decode 8 [0x42#8, 0x64#8, 0x00#8, 0x00#8, 0x00#8] = .ok (.encFill 100#32, []) ∧
    decode 8 [0x43#8, 0x0A#8, 0x01#8, 0x00#8, 0x00#8] = .ok (.encMove 266#32, []) ∧
    decode 8 [0x44#8] = .ok (.encClear, []) ∧ decode 8 [0x45#8] = .ok (.encGather, []) := ⟨rfl, rfl, rfl, rfl, rfl, rfl⟩

/-- 95_test_vectors 2.2, 2.12; 30_encoding R112: an over-wide value, reserved opcodes, and a command cut short. -/
theorem test_decode_refuses :
    decode 4 [0x20#8, 0x1F#8] = .error (.overwide []) ∧ decode 8 [0x00#8, 0x21#8] = .error (.reserved 0x00#8 [0x21#8]) ∧
    decode 8 [0x37#8] = .error (.reserved 0x37#8 []) ∧ decode 8 [0x42#8, 0x64#8, 0x00#8] = .error .incomplete :=
  ⟨rfl, rfl, rfl, rfl⟩

theorem test_table_words :
    decodeTableWord 8 0x45 = some .encGather ∧ decodeTableWord 8 0x30 = some (.decPush []) ∧
    decodeTableWord 8 0x13 = some (.sbAlloc 0#32) ∧ decodeTableWord 8 0x37 = none := ⟨rfl, rfl, rfl, rfl⟩

/-! ### Checksums and frames (95_test_vectors, conventions, 2.3, 2.5, 2.7, 2.8) -/

/-- The bytes of "123456789". -/
def digits : List Byte := [0x31#8, 0x32#8, 0x33#8, 0x34#8, 0x35#8, 0x36#8, 0x37#8, 0x38#8, 0x39#8]

theorem test_crc8_check : crc8 Config.straps 0#8 digits = 0xA1#8 := by decide +kernel
theorem test_crc16_check : crc16 Config.straps 0xFFFF#16 digits = 0x4B37#16 := by decide +kernel

theorem test_frame_simple8_escapes_crc :
    frame { Config.straps with s8CrcEn := true } [0x00#8, 0x95#8] =
      [0x45#8, 0x00#8, 0x95#8, 0x10#8, 0xCA#8, 0x4A#8] := by decide +kernel

theorem test_frame_simple16_sync_seeded :
    frame { Config.straps with proto := .simple16, s16CrcEn := true, s16CrcSync := true } [0x11#8, 0x22#8, 0x33#8] =
      [0xA5#8, 0x5A#8, 0x03#8, 0x00#8, 0x11#8, 0x22#8, 0x33#8, 0xAE#8, 0x40#8] := by decide +kernel

theorem test_frame_packet :
    frame { Config.straps with proto := .packet } [0xDE#8, 0xAD#8, 0xBE#8, 0xEF#8] =
      [0x4D#8, 0x50#8, 0x34#8, 0x00#8, 0x00#8, 0x04#8, 0xDE#8, 0xAD#8, 0xBE#8, 0xEF#8] := by decide +kernel

theorem test_frame_seqpacket :
    frame { Config.straps with proto := .seqpacket } [0xCA#8, 0xFE#8] = [0x00#8, 0x00#8, 0x02#8, 0xCA#8, 0xFE#8] := by
  decide +kernel

/-! ### Small states -/

/-- The instance of one kind constructed with some straps, and one of its ports served to the end of a command. -/
def fresh (k : Kind) (q : PortId) (st : Straps) : State :=
  { resetInstance State.reset k st with sel := { kind := k, port := q, quantum := none } }

/-- A port holding some bytes gets the next turn. -/
def asking (k : Kind) (q : PortId) (st : Straps) (bytes : List Byte) : State :=
  { (fresh k q st).setPort k q { rx := bytes, tx := [] } with inputs := [.serve k q none] }

/-- What a command has sent on the served port. -/
def sent : Host.Outcome State Fault Refusal → Option (List Byte)
  | .next s => some (s.port s.sel.kind s.sel.port).tx
  | .fault _ => none
  | .refused _ => none

/-- The cursors and the notifier of the served instance afterwards. -/
def cursors : Host.Outcome State Fault Refusal → Option (Nat × Nat × Nat)
  | .next s => some ((s.base s.sel.kind).ring.readPos, (s.base s.sel.kind).ring.writePos,
      (s.base s.sel.kind).ring.notifyCount)
  | .fault _ => none
  | .refused _ => none

/-- Two slots of two bytes. -/
def small : Straps := { Config.straps with n := 2, maxPayload := 2 }

/-- A general ring of four slots with `07` queued. -/
def busyRg : RgInst :=
  { base := published (freshRg Config.straps [] [] 0).base
    slots := (freshRg Config.straps [] [] 0).slots.set 0 (some 7) }

/-- A pool whose first slot, holding nothing, is queued. -/
def busyPool : PoolInst :=
  { freshPool Config.straps 0 [] [] 0 with base := published (freshPool Config.straps 0 [] [] 0).base }

/-- The straps of a SeqPacket decoder. -/
def seq : Straps := { Config.straps with proto := .seqpacket }

/-- A SeqPacket decoder with the message `07` queued (95_test_vectors 2.8 row 8). -/
def busyDec : DecInst :=
  (decodeSeq (freshDec seq 0 [] [] 0 []) (freshSlot .fixed 16 0) [0x00#8, 0x00#8, 0x01#8, 0x07#8]).1

/-- A Simple8 encoder with the frame of `41` queued (95_test_vectors 2.3). -/
def busyEnc : EncInst :=
  { freshEnc Config.straps 0 [] [] 0 with
    base := published (freshEnc Config.straps 0 [] [] 0).base
    slots := (freshEnc Config.straps 0 [] [] 0).slots.set 0
      (slotFill .fixed (freshSlot .fixed 34 0) (frame Config.straps [0x41#8])) }

/-- All four of them, one port served. -/
def busy (k : Kind) (q : PortId) : State :=
  { State.reset with
    rg := busyRg, pool := busyPool, dec := busyDec, enc := busyEnc, sel := { kind := k, port := q, quantum := none } }

/-- A pool whose current slot holds these bytes. -/
def poolWith (q : PortId) (st : Straps) (bs : List Byte) : State :=
  { fresh .pool q st with
    pool := setPoolCur (fresh .pool q st).pool (slotFill st.slotKind (freshSlot st.slotKind st.maxPayload 0) bs) }

/-! ### One step of each command -/

theorem test_sbSize : sent (exec .sbSize (poolWith .p small [0x41#8, 0x42#8])) =
    some [0x00#8, 0x02#8, 0x00#8, 0x00#8, 0x00#8] := by decide +kernel
theorem test_sbZero : (match exec .sbZero (poolWith .p small [0x41#8, 0x42#8]) with
    | .next s => s.pool.slots.map Slot.size
    | _ => []) = [0, 0] := by decide +kernel
theorem test_sbAppend : (match exec (.sbAppend 0x42#8) (poolWith .p small [0x41#8]) with
    | .next s => s.pool.slots.map fun sl => (sl.size, Memory.find sl.data 0, Memory.find sl.data 1)
    | _ => []) = [(2, some 0x41#8, some 0x42#8), (0, none, none)] := by decide +kernel
theorem test_sbAppend_full : sent (exec (.sbAppend 0x43#8) (poolWith .p small [0x41#8, 0x42#8])) = some [0x03#8] := by
  decide +kernel
theorem test_sbAlloc_max : sent (exec (.sbAlloc 2#32) (poolWith .p small [])) = some [0x00#8] ∧
    sent (exec (.sbAlloc 3#32) (poolWith .p small [])) = some [0x03#8] := by decide +kernel
theorem test_sbSize_wrong_port : sent (exec .sbSize (poolWith .c small [])) = some [0xFF#8] := by decide +kernel

theorem test_rgPush : cursors (exec (.rgPush 8) (busy .rg .p)) = some (0, 2, 2) := by decide +kernel
theorem test_rgPush_full : sent (exec (.rgPush 8) { busy .rg .p with
    rg := { busyRg with base := published (published busyRg.base) } }) = some [0x02#8] := by decide +kernel
theorem test_rgPop : sent (exec .rgPop (busy .rg .c)) = some [0x00#8, 0x07#8] ∧
    cursors (exec .rgPop (busy .rg .c)) = some (1, 1, 0) := by decide +kernel
theorem test_rgFront : sent (exec .rgFront (busy .rg .c)) = some [0x00#8, 0x07#8] ∧
    cursors (exec .rgFront (busy .rg .c)) = some (0, 1, 1) := by decide +kernel
theorem test_rgEmpty : sent (exec .rgEmpty (busy .rg .p)) = some [0x00#8, 0x00#8] := by decide +kernel
theorem test_rgFull : sent (exec .rgFull (busy .rg .c)) = some [0x00#8, 0x00#8] := by decide +kernel
theorem test_rgSize : sent (exec .rgSize (busy .rg .c)) = some [0x00#8, 0x01#8, 0x00#8, 0x00#8, 0x00#8] := by
  decide +kernel
/-- 95_test_vectors 2.2, `N = 1`: every command answers `ST_NOT_CONFIGURED`. -/
theorem test_unconfigured : sent (exec .rgPop (fresh .rg .c { Config.straps with n := 1 })) = some [0x08#8] := by
  decide +kernel

theorem test_rpPush : cursors (exec .rpPush (fresh .pool .p small)) = some (0, 1, 1) := by decide +kernel
theorem test_rpPop : cursors (exec .rpPop (busy .pool .c)) = some (1, 1, 0) := by decide +kernel
theorem test_rpPop_empty : sent (exec .rpPop (fresh .pool .c small)) = some [0x01#8] := by decide +kernel
theorem test_rpFront : sent (exec .rpFront { poolWith .c small [0x41#8, 0x42#8] with
    pool := { (poolWith .c small [0x41#8, 0x42#8]).pool with base := published (poolWith .c small []).pool.base } }) =
      some [0x00#8, 0x02#8, 0x00#8, 0x00#8, 0x00#8, 0x41#8, 0x42#8] := by decide +kernel
theorem test_rpEmpty : sent (exec .rpEmpty (busy .pool .c)) = some [0x00#8, 0x00#8] := by decide +kernel
theorem test_rpFull : sent (exec .rpFull { fresh .pool .c small with
    pool := { (fresh .pool .c small).pool with base := published (fresh .pool .c small).pool.base } }) =
      some [0x00#8, 0x01#8] := by decide +kernel
theorem test_rpSize : sent (exec .rpSize (busy .pool .p)) = some [0x00#8, 0x01#8, 0x00#8, 0x00#8, 0x00#8] := by
  decide +kernel

/-- 95_test_vectors S5: three errors, whose causes are reported in order. -/
theorem test_decPush_malformed : (match exec (.decPush [0x45#8, 0x45#8, 0x10#8, 0x10#8, 0x45#8, 0x10#8, 0x4A#8])
      (fresh .dec .p Config.straps) with
    | .next s => (s.dec.errCount, s.dec.reports.map Report.cause)
    | _ => (0#32, [])) = (3#32, [.stxInFrame, .ntxAfterNtx, .etxAfterNtx]) := by decide +kernel
/-- 95_test_vectors 2.6: noise with false starts. -/
theorem test_decPush_noise : (match exec
      (.decPush [0x00#8, 0x01#8, 0xA5#8, 0x02#8, 0xA5#8, 0xA5#8, 0x5A#8, 0x01#8, 0x00#8, 0xEE#8])
      (fresh .dec .p { Config.straps with proto := .simple16, maxPayload := 8 }) with
    | .next s => (s.dec.reports, s.dec.slots.head?.map content)
    | _ => ([], none)) = ([{ cause := .badSync, info := 5#32 }], some [0xEE#8]) := by decide +kernel
theorem test_decPop : sent (exec .decPop (busy .dec .c)) = some [0x00#8, 0x01#8, 0x00#8, 0x00#8, 0x00#8, 0x07#8] ∧
    cursors (exec .decPop (busy .dec .c)) = some (1, 1, 0) := by decide +kernel
theorem test_decPeek : sent (exec .decPeek (busy .dec .c)) = some [0x00#8, 0x01#8, 0x00#8, 0x00#8, 0x00#8, 0x07#8] ∧
    cursors (exec .decPeek (busy .dec .c)) = some (0, 1, 1) := by decide +kernel
theorem test_decEmpty : sent (exec .decEmpty (busy .dec .p)) = some [0x00#8, 0x00#8] := by decide +kernel
theorem test_decClear : cursors (exec .decClear (busy .dec .c)) = some (1, 1, 0) := by decide +kernel
theorem test_decErrcnt : sent (exec .decErrcnt { busy .dec .p with dec := { busyDec with errCount := 3#32 } }) =
    some [0x00#8, 0x03#8, 0x00#8, 0x00#8, 0x00#8] := by decide +kernel
theorem test_decErrcntRst : (match exec .decErrcntRst { busy .dec .c with dec := { busyDec with errCount := 3#32 } } with
    | .next s => (s.dec.errCount, s.dec.base.c.tx)
    | _ => (9#32, [])) = (0#32, [0x00#8, 0x03#8, 0x00#8, 0x00#8, 0x00#8]) := by decide +kernel

theorem test_encPush : (match exec (.encPush [0x45#8, 0x4A#8, 0x10#8])
      (fresh .enc .p { Config.straps with s8CrcEn := true }) with
    | .next s => s.enc.slots.head?.map content
    | _ => none) =
      some [0x45#8, 0x10#8, 0xC5#8, 0x10#8, 0xCA#8, 0x10#8, 0x90#8, 0xE1#8, 0x4A#8] := by decide +kernel
theorem test_encEmpty : sent (exec .encEmpty (busy .enc .c)) = some [0x00#8, 0x00#8] := by decide +kernel
theorem test_encFill : sent (exec (.encFill 2#32) (busy .enc .c)) =
    some [0x00#8, 0x02#8, 0x00#8, 0x00#8, 0x00#8, 0x45#8, 0x41#8] := by decide +kernel
theorem test_encMove_part : (match exec (.encMove 2#32) (busy .enc .c) with
    | .next s => (s.enc.frontOff, s.enc.base.ring.readPos)
    | _ => (9, 9)) = (2, 0) := by decide +kernel
theorem test_encMove_too_much : sent (exec (.encMove 4#32) (busy .enc .c)) = some [0x05#8] := by decide +kernel
theorem test_encClear : cursors (exec .encClear (busy .enc .c)) = some (1, 1, 0) := by decide +kernel
theorem test_encGather : sent (exec .encGather { busy .enc .c with enc := { busyEnc with frontOff := 1 } }) =
    some [0x00#8, 0x01#8, 0x00#8, 0x00#8, 0x01#8, 0x00#8, 0x00#8, 0x00#8, 0x02#8, 0x00#8, 0x00#8, 0x00#8] := by
  decide +kernel

/-- A turn takes one command's bytes and answers it. -/
theorem test_step : (match step (asking .rg .c Config.straps [0x25#8, 0x21#8]) with
    | .next s => s.rg.base.c
    | _ => { rx := [], tx := [] }) = { rx := [0x21#8], tx := [0x00#8, 0x00#8, 0x00#8, 0x00#8, 0x00#8] } := by
  decide +kernel
theorem test_withFetchWord : (match step (State.reset.withFetchWord 8 0x31) with
    | .next s => s.dec.base.c
    | _ => { rx := [], tx := [] }) = { rx := [], tx := [0x01#8] } := by decide +kernel

/-! ### Witnesses: for each statement with hypotheses, a state and operands that meet them -/

theorem witness_DecodeEncode : (Instr.rgPush 0xFFF).wf 12 = true ∧ (Instr.decPush [0x45#8]).wf 8 = true ∧
    Instr.encGather.wf 1 = true := by decide

theorem witness_DecodedBytesSpellCommand : decode 12 [0x20#8, 0xFF#8, 0x0F#8, 0x21#8] = .ok (.rgPush 0xFFF, [0x21#8]) :=
  rfl

theorem witness_FieldAssembly : le16 0x012C#16 = [0x2C#8, 0x01#8] ∧ be24 0x00012C#24 = [0x00#8, 0x01#8, 0x2C#8] := by
  decide

theorem witness_StepRunsDecodedCommand :
    (asking .rg .c Config.straps [0x25#8]).inputs = .serve .rg .c none :: [] ∧
    PortIdle (asking .rg .c Config.straps [0x25#8]) .rg .c ∧
    decode ((asking .rg .c Config.straps [0x25#8]).base .rg).straps.elemW
      ((asking .rg .c Config.straps [0x25#8]).port .rg .c).rx = .ok (.rgSize, []) := ⟨rfl, trivial, rfl⟩

/-- On a port that can have an operation in progress, and has none. -/
theorem witness_StepRunsDecodedCommand_dec :
    (asking .dec .p Config.straps [0x35#8]).inputs = .serve .dec .p none :: [] ∧
    PortIdle (asking .dec .p Config.straps [0x35#8]) .dec .p ∧
    decode ((asking .dec .p Config.straps [0x35#8]).base .dec).straps.elemW
      ((asking .dec .p Config.straps [0x35#8]).port .dec .p).rx = .ok (.decErrcnt, []) := ⟨rfl, rfl, rfl⟩

/-- A decoder in the middle of a `DEC_PUSH` that has absorbed two bytes and keeps two. -/
def pushingDec : DecInst := { freshDec small 0 [] [] 0 [] with pushing := some { rest := [1#8, 2#8], consumed := 2 } }

/-- A turn of a port with an operation in progress: one too short to end it, and one that ends it. -/
theorem witness_StepRunsDecodedCommand_busy (quantum : Option Nat) (h : quantum = some 0 ∨ quantum = none) :
    { busy .dec .p with inputs := [.serve .dec .p quantum], dec := pushingDec }.inputs = .serve .dec .p quantum :: [] ∧
    ¬PortIdle { busy .dec .p with inputs := [.serve .dec .p quantum], dec := pushingDec } .dec .p ∧
    ∃ t, step { busy .dec .p with inputs := [.serve .dec .p quantum], dec := pushingDec } = .next t ∧
      (PortIdle t .dec .p ↔ quantum = none) := by
  rcases h with rfl | rfl
  · exact ⟨rfl, nofun, _, rfl, nofun, nofun⟩
  · exact ⟨rfl, nofun, _, rfl, fun _ => rfl, fun _ => rfl⟩

/-- A general ring of one slot is not configured. -/
def dead : Straps := { Config.straps with n := 1 }

theorem witness_UnconfiguredRefuses : ((fresh .rg .c dead).base (fresh .rg .c dead).sel.kind).configured = false := by
  decide

/-- A command, a reserved opcode and an over-wide value, on an instance that is not configured. -/
theorem witness_UnconfiguredRefuses_step :
    ((asking .rg .c dead [0x25#8]).base .rg).configured = false ∧
    (asking .rg .c dead [0x25#8]).inputs = .serve .rg .c none :: [] ∧ PortIdle (asking .rg .c dead [0x25#8]) .rg .c ∧
    decode 8 ((asking .rg .c dead [0x25#8]).port .rg .c).rx = .ok (.rgSize, []) ∧
    decode 8 ((asking .rg .c dead [0x37#8]).port .rg .c).rx = .error (.reserved 0x37#8 []) ∧
    ((asking .rg .p { dead with elemW := 4 } [0x20#8, 0x10#8]).base .rg).straps.elemW = 4 ∧
    ((asking .rg .p { dead with elemW := 4 } [0x20#8, 0x10#8]).base .rg).configured = false ∧
    decode 4 ((asking .rg .p { dead with elemW := 4 } [0x20#8, 0x10#8]).port .rg .p).rx = .error (.overwide []) :=
  ⟨by decide, rfl, trivial, rfl, rfl, rfl, by decide, rfl⟩

theorem witness_IllegalCommandsRefused_decode :
    (∀ i : Instr, i.opcode ≠ 0x26#8) ∧ ([0x80#8] : List Byte).length = valueBytes 7 ∧ 2 ^ 7 ≤ leNat [0x80#8] :=
  ⟨by intro i; cases i <;> simp [Instr.opcode], rfl, by decide⟩

theorem witness_IllegalCommandsRefused_exec :
    ((fresh .rg .c Config.straps).base (fresh .rg .c Config.straps).sel.kind).configured = true ∧
    acceptedOn (.rgPush 1) (fresh .rg .c Config.straps).sel.kind (fresh .rg .c Config.straps).sel.port = false ∧
    acceptedOn .encClear .rg .c = false := by decide

/-- A command on a port that does not accept it, a reserved opcode and an over-wide value. -/
theorem witness_IllegalCommandsRefused_step :
    ((asking .rg .c Config.straps [0x20#8, 0x01#8]).base .rg).configured = true ∧
    (asking .rg .c Config.straps [0x20#8, 0x01#8]).inputs = .serve .rg .c none :: [] ∧
    PortIdle (asking .rg .c Config.straps [0x20#8, 0x01#8]) .rg .c ∧
    decode 8 ((asking .rg .c Config.straps [0x20#8, 0x01#8]).port .rg .c).rx = .ok (.rgPush 1, []) ∧
    acceptedOn (.rgPush 1) .rg .c = false ∧
    decode 8 ((asking .rg .c Config.straps [0x00#8]).port .rg .c).rx = .error (.reserved 0x00#8 []) ∧
    ((asking .rg .p { Config.straps with elemW := 4 } [0x20#8, 0x10#8]).base .rg).configured = true ∧
    decode 4 ((asking .rg .p { Config.straps with elemW := 4 } [0x20#8, 0x10#8]).port .rg .p).rx =
      .error (.overwide []) :=
  ⟨by decide, rfl, trivial, rfl, rfl, rfl, by decide, rfl⟩

theorem witness_AnswerTouchesOnlyServedPort : PortId.p ≠ (fresh .rg .c Config.straps).sel.port := by decide

/-- 95_test_vectors 2.2, among them the smallest ring at both ends. -/
theorem witness_RingArithmetic : (2 ≤ 2 ∧ 1 < 2 ∧ 0 < 2) ∧ (2 ≤ 65536 ∧ 0 < 65536 ∧ 65535 < 65536) ∧
    ringSize 2 1 0 = 1 ∧ ringFull 2 1 0 = true ∧ ringSize 65536 0 65535 = 65535 := by decide

theorem witness_RingQueries : Serves (fresh .rg .p small) .rg .p ∧ Serves (busy .rg .c) .rg .c ∧
    Serves (busy .pool .c) .pool .c ∧ Serves (busy .dec .p) .dec .p ∧ Serves (busy .enc .c) .enc .c := by
  decide +kernel

/-- The widest value that fits and the narrowest that does not, on a ring with room, and on a full one. -/
theorem witness_RgPush :
    Serves (busy .rg .p) .rg .p ∧ busyRg.base.ring.writePos < busyRg.slots.length ∧ 255 < 2 ^ busyRg.base.straps.elemW ∧
    2 ^ busyRg.base.straps.elemW ≤ 256 ∧
    ringNext busyRg.base.straps.n busyRg.base.ring.writePos ≠ busyRg.base.ring.readPos ∧
    (published (freshRg small [] [] 0).base).ring.writePos < (freshRg small [] [] 0).slots.length ∧
    ringNext small.n (published (freshRg small [] [] 0).base).ring.writePos = 0 := by decide +kernel

theorem witness_RgPopFront : Serves (fresh .rg .c small) .rg .c ∧
    (fresh .rg .c small).rg.base.ring.readPos = (fresh .rg .c small).rg.base.ring.writePos ∧
    Serves (busy .rg .c) .rg .c ∧ busyRg.base.ring.readPos ≠ busyRg.base.ring.writePos ∧
    busyRg.slots[busyRg.base.ring.readPos]? = some (some 7) := by decide +kernel

theorem busyRg_ok : RgOk busyRg := (RgOk.fresh Config.straps [] [] 0).push (v := 7) (by decide) (by decide) (by decide)

theorem witness_RgFifo : RgOk (busy .rg .p).rg ∧ Serves (busy .rg .p) .rg .p ∧ isFull (busy .rg .p).rg.base = false ∧
    255 < 2 ^ (busy .rg .p).rg.base.straps.elemW ∧ Serves (busy .rg .c) .rg .c ∧
    isEmpty (busy .rg .c).rg.base = false := ⟨busyRg_ok, by decide +kernel⟩

theorem witness_FullEmptyBoundary : RgOk (fresh .rg .p Config.straps).rg ∧ Serves (fresh .rg .p Config.straps) .rg .p ∧
    isEmpty (fresh .rg .p Config.straps).rg.base = true ∧
    [0, 1, 255].length + 1 = (fresh .rg .p Config.straps).rg.base.straps.n ∧
    (∀ x ∈ [0, 1, 255], x < 2 ^ (fresh .rg .p Config.straps).rg.base.straps.elemW) ∧
    255 < 2 ^ (fresh .rg .p Config.straps).rg.base.straps.elemW := ⟨RgOk.fresh _ _ _ _, by decide +kernel⟩

theorem witness_FullEmptyBoundary_pool : PoolOk (fresh .pool .p Config.straps).pool ∧
    Serves (fresh .pool .p Config.straps) .pool .p ∧ isEmpty (fresh .pool .p Config.straps).pool.base = true :=
  ⟨PoolOk.fresh _ _ _ _ _, by decide +kernel⟩

theorem witness_RpPush : Serves (fresh .pool .p small) .pool .p ∧
    ringNext small.n (fresh .pool .p small).pool.base.ring.writePos ≠ (fresh .pool .p small).pool.base.ring.readPos ∧
    ringNext small.n (published (fresh .pool .p small).pool.base).ring.writePos =
      (published (fresh .pool .p small).pool.base).ring.readPos := by decide +kernel

theorem witness_RpPopFront : Serves (fresh .pool .c small) .pool .c ∧
    (fresh .pool .c small).pool.base.ring.readPos = (fresh .pool .c small).pool.base.ring.writePos ∧
    Serves (busy .pool .c) .pool .c ∧ busyPool.base.ring.readPos ≠ busyPool.base.ring.writePos ∧
    busyPool.slots[busyPool.base.ring.readPos]? = some (freshSlot .fixed 16 0) := by decide +kernel

theorem witness_SbSizeZero : Serves (fresh .pool .p small) .pool .p ∧
    (fresh .pool .p small).pool.slots[(fresh .pool .p small).pool.base.ring.writePos]? =
      some (freshSlot .fixed 2 1) := by decide +kernel

/-- A full slot, a slot with room, and a `DYNAMIC` slot that must grow. -/
theorem witness_SbAppend : Serves (poolWith .p small [0x41#8, 0x42#8]) .pool .p ∧
    (poolWith .p small [0x41#8, 0x42#8]).pool.slots[0]?.map (fun sl => (sl.size, sl.max)) = some (2, 2) ∧
    (poolWith .p small [0x41#8]).pool.slots[0]?.map (fun sl => (sl.size, sl.max)) = some (1, 2) ∧
    (poolWith .p { small with slotKind := .dynamic } [0x41#8]).pool.slots[0]?.map
      (fun sl => (sl.size, sl.cap, sl.max)) = some (1, 1, 2) := by decide +kernel

theorem witness_SbAlloc : Serves (fresh .pool .p small) .pool .p ∧
    (fresh .pool .p small).pool.slots[(fresh .pool .p small).pool.base.ring.writePos]? = some (freshSlot .fixed 2 1) ∧
    (2#32).toNat ≤ (freshSlot .fixed 2 1).max ∧ (freshSlot .fixed 2 1).max < (3#32).toNat := by decide +kernel

theorem witness_SlotVariantsAgree :
    (∀ i ∈ [Instr.sbAppend 0x41#8, .rpPush, .rpFront], (commandHome i).1 = .pool) ∧
    forgetCap (fresh .pool .p small) = forgetCap (fresh .pool .p { small with slotKind := .dynamic }) ∧
    fresh .pool .p small ≠ fresh .pool .p { small with slotKind := .dynamic } := by decide +kernel

theorem witness_DecPushStream : Serves (fresh .dec .p small) .dec .p ∧ WholeTurn (fresh .dec .p small) ∧
    (fresh .dec .p small).dec.base.straps.proto ≠ .seqpacket ∧
    (fresh .dec .p small).dec.slots.length = (fresh .dec .p small).dec.base.straps.n ∧
    (fresh .dec .p small).dec.base.ring.writePos < (fresh .dec .p small).dec.base.straps.n := by decide +kernel

/-- Turns of no step and of as many steps as there are bytes, and both ends of them: bytes kept, and the call ended. -/
theorem witness_DecPushStream_cut :
    Serves { fresh .dec .p small with sel := { kind := .dec, port := .p, quantum := some 2 } } .dec .p ∧
    0 ≤ ([0x45#8, 0x4A#8] : List Byte).length ∧ 2 ≤ ([0x45#8, 0x4A#8] : List Byte).length ∧
    (pushLoop (freshDec small 0 [] [] 0 []) 0 (([0x45#8, 0x4A#8] : List Byte).take 2)).2.status = .ok ∧
    (pushLoop (freshDec { small with errFatal := true } 0 [] [] 0 []) 0
      (([0x45#8, 0x4A#8] : List Byte).take 2)).2.status = .framingFatal := by decide +kernel

theorem witness_DecPushStream_resumed :
    { busy .dec .p with inputs := [.serve .dec .p none], dec := pushingDec }.inputs = .serve .dec .p none :: [] ∧
    pushingDec.pushing = some { rest := [1#8, 2#8], consumed := 2 } ∧ pushingDec.base.straps.proto ≠ .seqpacket ∧
    pushingDec.slots.length = pushingDec.base.straps.n ∧ pushingDec.base.ring.writePos < pushingDec.base.straps.n :=
  ⟨rfl, rfl, by decide, by decide, by decide⟩

/-- A SeqPacket decoder of two slots of two bytes. -/
def smallSeq : Straps := { small with proto := .seqpacket }

theorem witness_DecPushDatagram : Serves (fresh .dec .p smallSeq) .dec .p ∧ WholeTurn (fresh .dec .p smallSeq) ∧
    (fresh .dec .p smallSeq).dec.base.straps.proto = .seqpacket ∧
    (fresh .dec .p smallSeq).dec.slots[(fresh .dec .p smallSeq).dec.base.ring.writePos]? = some (freshSlot .fixed 2 1) ∧
    (fresh .dec .p smallSeq).dec.base.straps.maxPayload ≤ (freshSlot .fixed 2 1).max ∧
    ([0#8, 0#8] : List Byte).length < 3 ∧ 0 * 65536 + 0 * 256 + 1 ≠ ([] : List Byte).length ∧
    0 * 65536 + 0 * 256 + 0 = ([] : List Byte).length ∧
    (0 * 65536 + 0 * 256 + 3 = ([1#8, 2#8, 3#8] : List Byte).length ∧ 2 < ([1#8, 2#8, 3#8] : List Byte).length) ∧
    (0 * 65536 + 0 * 256 + 2 = ([1#8, 2#8] : List Byte).length ∧ ([1#8, 2#8] : List Byte).length ≤ 2) ∧
    isFull (fresh .dec .p smallSeq).dec.base = false ∧ isFull (published (fresh .dec .p smallSeq).dec.base) = true := by
  decide +kernel

/-- Two bytes of noise. -/
theorem witness_BurstIndependence : Serves (fresh .dec .p small) .dec .p ∧ WholeTurn (fresh .dec .p small) ∧
    (fresh .dec .p small).dec.base.straps.proto ≠ .seqpacket ∧
    (fresh .dec .p small).dec.slots.length = (fresh .dec .p small).dec.base.straps.n ∧
    (fresh .dec .p small).dec.base.ring.writePos < (fresh .dec .p small).dec.base.straps.n ∧
    exec (.decPush ([1#8] ++ [2#8])) (fresh .dec .p small) = .next (State.answer
      { fresh .dec .p small with dec := (fresh .dec .p small).dec }
      { status := .ok, fields := leBytes 4 (1 + 1) ++ [0#8] }) :=
  ⟨by decide +kernel, rfl, by decide, by decide, by decide, rfl⟩

theorem witness_DecPopPeek : Serves (fresh .dec .c small) .dec .c ∧
    (fresh .dec .c small).dec.base.ring.readPos = (fresh .dec .c small).dec.base.ring.writePos ∧
    Serves (busy .dec .c) .dec .c ∧ busyDec.base.ring.readPos ≠ busyDec.base.ring.writePos ∧
    (busyDec.slots[busyDec.base.ring.readPos]?).isSome = true := by decide +kernel

theorem witness_ErrorCounter : Serves (busy .dec .p) .dec .p ∧ Serves (busy .dec .c) .dec .c := by decide +kernel

theorem witness_DecClear : Serves (busy .dec .c) .dec .c ∧ WholeTurn (busy .dec .c) ∧
    busyDec.base.ring.readPos < busyDec.base.straps.n ∧ busyDec.base.ring.writePos < busyDec.base.straps.n := by
  decide +kernel

/-- A turn of no step, and a turn as long as the queue. -/
theorem witness_DecClearInTurns :
    Serves { busy .dec .c with sel := { kind := .dec, port := .c, quantum := some 1 } } .dec .c ∧
    busyDec.base.ring.readPos < busyDec.base.straps.n ∧ busyDec.base.ring.writePos < busyDec.base.straps.n ∧
    0 ≤ queueSize busyDec.base ∧ 1 ≤ queueSize busyDec.base := by decide +kernel

theorem witness_DecClearInTurns_resumed :
    { busy .dec .c with inputs := [.serve .dec .c none], dec := { busyDec with clearing := some 1 } }.inputs =
      .serve .dec .c none :: [] ∧
    { busyDec with clearing := some 1 }.clearing = some 1 ∧ busyDec.base.ring.readPos < busyDec.base.straps.n ∧
    1 < busyDec.base.straps.n := ⟨rfl, rfl, by decide +kernel⟩

/-- A Simple8 decoder in a frame that holds these bytes, with or without the CRC. -/
def inFrame (crc esc : Bool) (hold : Option Byte) : DecInst :=
  { freshDec { small with s8CrcEn := crc } 0 [] [] 0 [] with
    s8 := { inFrame := true, esc := esc, holdValid := hold.isSome, hold := hold.getD 0#8, crc := 0x45#8 } }

theorem witness_S8NoiseAndStart : (freshDec small 0 [] [] 0 []).base.straps.proto = .simple8 ∧
    (0x99#8 ≠ small.s8Stx ∧ (freshDec small 0 [] [] 0 []).s8.inFrame = false) ∧ 0x45#8 = small.s8Stx ∧
    (inFrame false false none).s8.inFrame = true := by decide

theorem witness_S8Escapes : (inFrame false true none).base.straps.proto = .simple8 ∧
    controlBytesDistinct (inFrame false true none).base.straps = true ∧ (inFrame false true none).s8.inFrame = true ∧
    (inFrame false true none).s8.esc = true ∧ (inFrame true false none).s8.esc = false := by decide

/-- A slot with room for one byte more, and a full one; an escaped and a plain byte. -/
theorem witness_S8Data : (inFrame false true none).base.straps.proto = .simple8 ∧
    (inFrame false true none).s8.inFrame = true ∧ 0xC5#8 ≠ small.s8Stx ∧ 0xC5#8 ≠ small.s8Etx ∧ 0xC5#8 ≠ small.s8Ntx ∧
    0x45#8 = (if (inFrame false true none).s8.esc then 0xC5#8 ^^^ 0x80#8 else 0xC5#8) ∧
    (inFrame false true none).base.straps.s8CrcEn = false ∧ (inFrame true false none).base.straps.s8CrcEn = true ∧
    (inFrame true false none).s8.holdValid = false ∧ (inFrame true false (some 9#8)).s8.holdValid = true ∧
    (slotFill .fixed (freshSlot .fixed 2 0) [1#8]).size ≠ (slotFill .fixed (freshSlot .fixed 2 0) [1#8]).max ∧
    (slotFill .fixed (freshSlot .fixed 2 0) [1#8, 2#8]).size =
      (slotFill .fixed (freshSlot .fixed 2 0) [1#8, 2#8]).max := by decide +kernel

theorem witness_S8End : (inFrame true false (some 9#8)).base.straps.proto = .simple8 ∧
    controlBytesDistinct (inFrame true false (some 9#8)).base.straps = true ∧
    (inFrame true false (some 9#8)).s8.inFrame = true ∧ (inFrame true false (some 9#8)).s8.esc = false ∧
    (freshSlot .fixed 2 0).size = 0 ∧ (slotFill .fixed (freshSlot .fixed 2 0) [1#8]).size ≠ 0 ∧
    (inFrame true false (some 9#8)).s8.hold ≠ (inFrame true false (some 9#8)).s8.crc ∧
    (inFrame true false (some 0x45#8)).s8.hold = (inFrame true false (some 0x45#8)).s8.crc ∧
    (inFrame true false none).s8.holdValid = false := by decide +kernel

theorem witness_S8WorkedCheck : Serves (fresh .dec .p small) .dec .p ∧ WholeTurn (fresh .dec .p small) ∧
    (fresh .dec .p small).dec.base.straps.proto = .simple8 ∧
    controlBytesDistinct (fresh .dec .p small).dec.base.straps = true ∧
    (fresh .dec .p small).dec.base.straps.errFatal = false ∧ (fresh .dec .p small).dec.s8.inFrame = false ∧
    (fresh .dec .p small).dec.base.ring.writePos < (fresh .dec .p small).dec.slots.length := by decide +kernel

/-- A Simple16 decoder of two slots of two bytes, in a state of its machine. -/
def s16At (crc : Bool) (st : S16State) (rem : Nat) (ignored : U32) : DecInst :=
  { freshDec { small with proto := .simple16, s16CrcEn := crc } 0 [] [] 0 [] with
    s16 := { st := st, len := 2#16, remaining := rem, crc := 0x1234#16, crcRx := 0x0034#16, ignored := ignored } }

theorem witness_S16Sync : (s16At false .sync0 0 0#32).base.straps.proto = .simple16 ∧
    (s16At false .sync0 0 0#32).s16.st = .sync0 ∧ (s16At false .sync1 0 3#32).s16.st = .sync1 ∧
    0xA5#8 = (s16At false .sync0 0 0#32).base.straps.s16Sync0 ∧ 0x77#8 ≠ (s16At false .sync0 0 0#32).base.straps.s16Sync0 ∧
    0x5A#8 = (s16At false .sync1 0 0#32).base.straps.s16Sync1 ∧ 0xA5#8 ≠ (s16At false .sync1 0 0#32).base.straps.s16Sync1 ∧
    0x77#8 ≠ (s16At false .sync1 0 0#32).base.straps.s16Sync1 ∧ (s16At false .sync1 0 0#32).s16.ignored = 0#32 ∧
    (s16At false .sync1 0 3#32).s16.ignored ≠ 0#32 := by decide

/-- Lengths 0, 2 (the largest allowed), 258 (too long), from a low byte of 0 and of 2. -/
theorem witness_S16Header : (s16At false .lenHi 0 0#32).base.straps.proto = .simple16 ∧
    (s16At false .lenLo 0 0#32).s16.st = .lenLo ∧ (s16At false .lenHi 0 0#32).s16.st = .lenHi ∧
    2#16 = (s16At false .lenHi 0 0#32).s16.len ||| ((0#8).setWidth 16 <<< 8) ∧
    (2#16).toNat ≤ (s16At false .lenHi 0 0#32).base.straps.maxPayload ∧
    258#16 = (s16At false .lenHi 0 0#32).s16.len ||| ((1#8).setWidth 16 <<< 8) ∧
    (s16At false .lenHi 0 0#32).base.straps.maxPayload < (258#16).toNat ∧
    0#16 = ({ (s16At false .lenHi 0 0#32).s16 with len := 0#16 } : S16).len ||| ((0#8).setWidth 16 <<< 8) := by decide

/-- A payload byte (of two and the last one), the first CRC byte, the last one with a good and with a bad CRC. -/
theorem witness_S16Payload : (s16At true .payload 4 0#32).base.straps.proto = .simple16 ∧
    (s16At true .payload 4 0#32).s16.st = .payload ∧ (freshSlot .fixed 2 0).size ≠ (freshSlot .fixed 2 0).max ∧
    2 < (s16At true .payload 3 0#32).s16.remaining ∧
    (slotAppend .fixed (freshSlot .fixed 2 0) 7#8).isSome = true ∧ 1 < (s16At true .payload 3 0#32).s16.remaining ∧
    (s16At false .payload 1 0#32).s16.remaining = 1 ∧ (s16At false .payload 1 0#32).base.straps.s16CrcEn = false ∧
    (s16At true .payload 2 0#32).base.straps.s16CrcEn = true ∧ (s16At true .payload 2 0#32).s16.remaining = 2 ∧
    (s16At true .payload 1 0#32).s16.remaining = 1 ∧
    (s16At true .payload 1 0#32).s16.crcRx ||| ((0x12#8).setWidth 16 <<< 8) = (s16At true .payload 1 0#32).s16.crc ∧
    (s16At true .payload 1 0#32).s16.crcRx ||| ((0x13#8).setWidth 16 <<< 8) ≠ (s16At true .payload 1 0#32).s16.crc := by
  decide +kernel

/-- A Packet decoder of two slots of two bytes, in a state of its machine. -/
def pktAt (st : PktState) (len rem : U24) (cnt : Nat) (crcRx : Byte) : DecInst :=
  { freshDec { small with proto := .packet } 0 [] [] 0 [] with
    pkt := { st := st, crcRx := crcRx, len := len, remaining := rem, crc := 19#8, cnt := cnt } }

/-- Lengths 0, 2 (the largest allowed) and 3 (too long). -/
theorem witness_PktHeader : (pktAt .len0 0#24 0#24 0 0#8).base.straps.proto = .packet ∧
    (pktAt .magic0 0#24 0#24 0 0#8).pkt.st = .magic0 ∧ (pktAt .magic1 0#24 0#24 0 0#8).pkt.st = .magic1 ∧
    (pktAt .crc 0#24 0#24 0 0#8).pkt.st = .crc ∧ (pktAt .len2 0#24 0#24 0 0#8).pkt.st = .len2 ∧
    (pktAt .len1 0#24 0#24 0 0#8).pkt.st = .len1 ∧ (pktAt .len0 0#24 0#24 0 0#8).pkt.st = .len0 ∧
    0#24 = (pktAt .len0 0#24 0#24 0 0#8).pkt.len ||| (0#8).setWidth 24 ∧
    2#24 = (pktAt .len0 0#24 0#24 0 0#8).pkt.len ||| (2#8).setWidth 24 ∧
    (2#24).toNat ≤ (pktAt .len0 0#24 0#24 0 0#8).base.straps.maxPayload ∧
    3#24 = (pktAt .len0 0#24 0#24 0 0#8).pkt.len ||| (3#8).setWidth 24 ∧
    (pktAt .len0 0#24 0#24 0 0#8).base.straps.maxPayload < (3#24).toNat := by decide +kernel

/-- The byte that closes the window with a good and with a bad CRC (95_test_vectors 2.7: `CRC8(13, [01]) = 21`), and a
byte after a window of 16. -/
theorem witness_PktPayload : (pktAt .payload 1#24 1#24 0 0x21#8).base.straps.proto = .packet ∧
    (pktAt .payload 1#24 1#24 0 0x21#8).pkt.st = .payload ∧
    (slotAppend .fixed (freshSlot .fixed 2 0) 1#8).isSome = true ∧ 0 < min 16 (1#24).toNat ∧
    0 + 1 = min 16 (1#24).toNat ∧ crc8Step small 19#8 1#8 = 0x21#8 ∧ 0x21#8 ≠ 0x22#8 ∧
    min 16 (20#24).toNat ≤ (pktAt .payload 20#24 4#24 16 0x21#8).pkt.cnt := by decide +kernel

theorem witness_CommitAndErrorEntry : isFull (freshDec small 0 [] [] 0 []).base = false ∧
    isFull (published (freshDec small 0 [] [] 0 []).base) = true := by decide

/-- Every event: nothing, a commit, a discard and a full ring, by bytes and by a datagram. -/
theorem witness_ErrorsCounted :
    (feedByte (inFrame false false none) (freshSlot .fixed 2 0) 1#8).2 = .none ∧
    (feedByte (inFrame false false none) (slotFill .fixed (freshSlot .fixed 2 0) [1#8]) 0x4A#8).2 = .committed ∧
    (feedByte (inFrame false false none) (freshSlot .fixed 2 0) 0x4A#8).2 = .discarded .emptyFrame ∧
    (feedByte { inFrame false false none with base := published (inFrame false false none).base }
      (slotFill .fixed (freshSlot .fixed 2 0) [1#8]) 0x4A#8).2 = .ringFull ∧
    (decodeSeq (freshDec smallSeq 0 [] [] 0 []) (freshSlot .fixed 2 0) [0#8]).2 = .discarded .shortHeader := by
  decide +kernel

theorem witness_ErrorsDoNotLeak :
    (feedByte (inFrame false false none) (slotFill .fixed (freshSlot .fixed 2 0) [1#8]) 0x4A#8).2 = .committed ∧
    (feedByte { inFrame false false none with base := published (inFrame false false none).base }
      (slotFill .fixed (freshSlot .fixed 2 0) [1#8]) 0x4A#8).2 = .ringFull ∧
    (feedByte (inFrame false true none) (freshSlot .fixed 2 0) 0x10#8).2 = .discarded .ntxAfterNtx ∧
    (feedByte (inFrame false false none) (freshSlot .fixed 2 0) 0x45#8).2 = .discarded .stxInFrame ∧
    (feedByte (s16At false .sync1 0 3#32) (freshSlot .fixed 2 0) 0x5A#8).2 = .discarded .badSync := by decide +kernel

/-- A Simple16 decoder at the last payload byte of a frame of two. -/
def s16Last : DecInst :=
  { s16At false .payload 1 0#32 with
    s16 := { (s16At false .payload 1 0#32).s16 with
      crc := crc16 (s16At false .payload 1 0#32).base.straps (s16CrcStart (s16At false .payload 1 0#32).base.straps)
        (le16 2#16 ++ [7#8]) } }

/-- Simple16: a commit, and a length too long, from parse states that fit the current slot. -/
theorem witness_ErrorsDoNotLeak_simple16 :
    s16Last.base.straps.proto = .simple16 ∧ ParseOk s16Last (slotFill .fixed (freshSlot .fixed 2 0) [7#8]) ∧
    (feedByte s16Last (slotFill .fixed (freshSlot .fixed 2 0) [7#8]) 8#8).2 = .committed ∧
    ParseOk (s16At false .lenHi 0 0#32) (freshSlot .fixed 2 0) ∧
    (feedByte (s16At false .lenHi 0 0#32) (freshSlot .fixed 2 0) 1#8).2 = .discarded .oversize := by
  refine ⟨rfl, ⟨fun _ => rfl, fun _ => by decide +kernel⟩, by decide +kernel, ⟨fun _ => rfl, nofun⟩, by decide +kernel⟩

/-- Messages of 0, 2 (the largest allowed) and 3 bytes; a ring with room and a full one. -/
theorem witness_EncPush : Serves (fresh .enc .p small) .enc .p ∧
    (fresh .enc .p small).enc.slots[(fresh .enc .p small).enc.base.ring.writePos]? = some (freshSlot .fixed 6 1) ∧
    (freshSlot .fixed 6 1).max = encSlotMax (fresh .enc .p small).enc.base.straps ∧
    ([1#8, 2#8] : List Byte).length ≤ (fresh .enc .p small).enc.base.straps.maxPayload ∧
    (fresh .enc .p small).enc.base.straps.maxPayload < ([1#8, 2#8, 3#8] : List Byte).length ∧
    isFull (fresh .enc .p small).enc.base = false ∧ isFull (published (fresh .enc .p small).enc.base) = true := by
  decide +kernel

theorem witness_FrameBytes : (∀ b : Byte, escByte small b =
      if b = small.s8Stx ∨ b = small.s8Etx ∨ b = small.s8Ntx then [small.s8Ntx, b ^^^ 0x80#8] else [b]) ∧
    small.proto = .simple8 ∧ { small with proto := .simple16 }.proto = .simple16 ∧
    { small with proto := .packet }.proto = .packet ∧ smallSeq.proto = .seqpacket := ⟨by decide +kernel, by decide⟩

theorem witness_FrameLengthBound : 1 ≤ ([0x45#8, 0x4A#8] : List Byte).length ∧
    ([0x45#8, 0x4A#8] : List Byte).length ≤ small.maxPayload ∧ (frame small [0x45#8, 0x4A#8]).length = encSlotMax small := by
  decide +kernel

theorem witness_S8FrameMarkers : controlBytesDistinct Config.straps = true := by decide

theorem busyEnc_ok : EncOk busyEnc := by
  have h := (EncOk.fresh Config.straps 0 [] [] 0).body (by decide)
  have hs : SlotOk .fixed 34 (slotFill .fixed (freshSlot .fixed 34 0) (frame Config.straps [0x41#8])) :=
    (SlotOk.fresh .fixed 34 0).fill (by decide +kernel)
  exact (h.1.push (by decide) hs (by decide +kernel)).1.ok (by decide) (by decide) nofun

theorem witness_EncFillStream : EncOk (busy .enc .c).enc ∧ Serves (busy .enc .c) .enc .c ∧
    (busy .enc .c).enc.base.straps.proto ≠ .seqpacket := ⟨busyEnc_ok, by decide +kernel⟩

/-- All of the three bytes pending, and one more. -/
theorem witness_EncMoveStream : EncOk (busy .enc .c).enc ∧ Serves (busy .enc .c) .enc .c ∧ WholeTurn (busy .enc .c) ∧
    (busy .enc .c).enc.base.straps.proto ≠ .seqpacket ∧ (3#32).toNat ≤ (pendingStream (busy .enc .c).enc).length ∧
    (pendingStream (busy .enc .c).enc).length < (4#32).toNat := ⟨busyEnc_ok, by decide +kernel⟩

/-- An encoder in the middle of an `ENC_MOVE` with two bytes to go. -/
def movingEnc : EncInst := { busyEnc with pulling := some (.move 2) }

theorem movingEnc_ok : EncOk movingEnc :=
  ((busyEnc_ok.body (by decide)).1.congr (e' := movingEnc) rfl rfl rfl rfl).ok (by decide) (by decide) fun op h => by
    cases h; exact ⟨by decide, (0, busyEnc.slots[0]) :: [], rfl, by decide +kernel⟩

/-- A turn of no step, and one as long as the queue. -/
theorem witness_EncMoveStream_cut :
    EncOk busyEnc ∧ Serves { busy .enc .c with sel := { kind := .enc, port := .c, quantum := some 1 } } .enc .c ∧
    busyEnc.base.straps.proto ≠ .seqpacket ∧ (3#32).toNat ≤ (pendingStream busyEnc).length ∧
    queueSize busyEnc.base = 1 := ⟨busyEnc_ok, by decide +kernel⟩

theorem witness_EncMoveStream_resumed :
    EncOk { busy .enc .c with inputs := [.serve .enc .c none], enc := movingEnc }.enc ∧
    movingEnc.base.configured = true ∧
    { busy .enc .c with inputs := [.serve .enc .c none], enc := movingEnc }.inputs = .serve .enc .c none :: [] ∧
    movingEnc.pulling = some (.move 2) := ⟨movingEnc_ok, by decide, rfl, rfl⟩

/-- A SeqPacket encoder, empty, and with the frame of `01` queued. -/
theorem witness_EncDatagram : Serves (fresh .enc .c smallSeq) .enc .c ∧
    (fresh .enc .c smallSeq).enc.base.straps.proto = .seqpacket ∧
    (fresh .enc .c smallSeq).enc.base.ring.readPos = (fresh .enc .c smallSeq).enc.base.ring.writePos ∧
    (match exec (.encPush [1#8]) (fresh .enc .p smallSeq) with
      | .next s => (s.enc.base.straps.proto, s.enc.base.ring.readPos, s.enc.base.ring.writePos,
          (s.enc.slots.head?.map Slot.size))
      | _ => (.packet, 0, 0, none)) = (.seqpacket, 0, 1, some 4) := by decide +kernel

theorem witness_EncClear : Serves (busy .enc .c) .enc .c ∧ WholeTurn (busy .enc .c) ∧
    busyEnc.base.ring.readPos < busyEnc.base.straps.n ∧ busyEnc.base.ring.writePos < busyEnc.base.straps.n := by
  decide +kernel

/-- A turn of no step, and a turn as long as the queue. -/
theorem witness_EncClear_cut :
    Serves { busy .enc .c with sel := { kind := .enc, port := .c, quantum := some 1 } } .enc .c ∧
    0 ≤ queueSize busyEnc.base ∧ 1 ≤ queueSize busyEnc.base := by decide +kernel

theorem witness_EncClear_resumed :
    { busy .enc .c with inputs := [.serve .enc .c none], enc := { busyEnc with pulling := some (.clear 1) } }.inputs =
      .serve .enc .c none :: [] ∧
    { busyEnc with pulling := some (.clear 1) }.pulling = some (.clear 1) ∧
    busyEnc.base.ring.readPos < busyEnc.base.straps.n ∧ 1 < busyEnc.base.straps.n := ⟨rfl, rfl, by decide +kernel⟩

theorem witness_EncGather : EncOk (busy .enc .c).enc ∧ Serves (busy .enc .c) .enc .c ∧
    1 = min (busy .enc .c).enc.base.straps.gatherK (queueSize (busy .enc .c).enc.base) :=
  ⟨busyEnc_ok, by decide +kernel⟩

/-- An encoder with 300 slots that gathers up to 300 of them. -/
def wide : Straps := { Config.straps with n := 300, gatherK := 300 }

/-- The wide encoder after `j` publishes of one frame. -/
def wideEnc : Nat → EncInst
  | 0 => freshEnc wide 0 [] [] 0
  | j + 1 =>
    { wideEnc j with
      base := published (wideEnc j).base
      slots := (wideEnc j).slots.set (wideEnc j).base.ring.writePos
        (slotFill .fixed (freshSlot .fixed 34 0) (frame Config.straps [0x41#8])) }

theorem wideEnc_ok (j : Nat) (hj : j < 300) : EncBody (wideEnc j) ∧ (wideEnc j).base.ring.readPos = 0 ∧
    (wideEnc j).base.ring.writePos = j ∧ (wideEnc j).base.straps = wide ∧ (wideEnc j).base.configured = true ∧
    (wideEnc j).pulling = none := by
  induction j with
  | zero => exact ⟨((EncOk.fresh wide 0 [] [] 0).body (by decide)).1, by decide +kernel⟩
  | succ j ih =>
    obtain ⟨h, hr, hw, hs, hc, hp⟩ := ih (by omega)
    have hn : ringNext 300 j = j + 1 := by unfold ringNext; omega
    have hf : isFull (wideEnc j).base = false := by
      refine ringIsFull_false.2 ?_
      rw [hr, hw, hs, show wide.n = 300 from rfl, hn]; omega
    have hsl : SlotOk (wideEnc j).base.straps.slotKind (encSlotMax (wideEnc j).base.straps)
        (slotFill .fixed (freshSlot .fixed 34 0) (frame Config.straps [0x41#8])) := by
      rw [hs]; exact (SlotOk.fresh .fixed 34 0).fill (by decide +kernel)
    refine ⟨(h.push hf hsl (by decide +kernel)).1, ?_⟩
    show (published (wideEnc j).base).ring.readPos = 0 ∧ (published (wideEnc j).base).ring.writePos = j + 1 ∧
      (published (wideEnc j).base).straps = wide ∧ (published (wideEnc j).base).configured = true ∧
      (wideEnc j).pulling = none
    rw [published_readPos, published_writePos, published_straps]
    exact ⟨hr, by rw [hw, hs]; exact hn, hs, hc, hp⟩

/-- The most descriptors the count byte can say, and one more. -/
theorem witness_EncGather_many (j : Nat) (hj : j = 255 ∨ j = 256) : EncOk (wideEnc j) ∧
    Serves { fresh .enc .c wide with enc := wideEnc j } .enc .c ∧
    j = min (wideEnc j).base.straps.gatherK (queueSize (wideEnc j).base) := by
  obtain ⟨h, hr, hw, hs, hc, hp⟩ := wideEnc_ok j (by omega)
  refine ⟨h.ok (by rw [hc, hs]; decide) hc (by rw [hp]; nofun), ⟨hc, rfl, rfl⟩, ?_⟩
  unfold queueSize
  rw [hs, hr, hw]
  rcases hj with rfl | rfl <;> decide

/-- A decoder of each protocol, right after reset, and the longest message. -/
theorem witness_RoundTrip (proto : Proto) :
    DecOk (fresh .dec .p { small with proto := proto }).dec ∧ Serves (fresh .dec .p { small with proto := proto }) .dec .p ∧
    WholeTurn (fresh .dec .p { small with proto := proto }) ∧ SeekingSync (fresh .dec .p { small with proto := proto }).dec ∧
    (fresh .dec .p { small with proto := proto }).dec.s16.ignored = 0#32 ∧
    isFull (fresh .dec .p { small with proto := proto }).dec.base = false ∧ 1 ≤ ([0x45#8, 0x10#8] : List Byte).length ∧
    ([0x45#8, 0x10#8] : List Byte).length ≤ (fresh .dec .p { small with proto := proto }).dec.base.straps.maxPayload :=
  ⟨DecOk.fresh _ _ _ _ _ _, by cases proto <;> decide +kernel, rfl, by cases proto <;> first | rfl | trivial,
    by cases proto <;> decide⟩

theorem busyPool_ok : PoolOk busyPool := by
  have h := PoolOk.fresh Config.straps 0 [] [] 0
  exact h.ring (by decide) rfl rfl ((h.2.1 (by decide)).1.published (by decide))

theorem busyDec_ok : DecOk busyDec := by
  have h := (DecOk.fresh seq 0 [] [] 0 []).body (by decide)
  have hc : (freshDec seq 0 [] [] 0 []).slots[(freshDec seq 0 [] [] 0 []).base.ring.writePos]? =
      some (freshSlot .fixed 16 0) := by decide +kernel
  exact (h.feed (decodeSeq_frame _ _ _) (decodeSeq_ok _ hc (SlotOk.fresh .fixed 16 0))).ok (by decide +kernel)
    (by decide +kernel)

theorem busy_ok (k : Kind) (q : PortId) : StateOk (busy k q) := ⟨busyRg_ok, busyPool_ok, busyDec_ok, busyEnc_ok⟩

/-- A state of the invariant with a slot committed in every ring, and a turn that pops one. -/
theorem witness_StepKeepsInv :
    StateOk ({ (busy .dec .c).setPort .dec .c { rx := [0x31#8], tx := [] } with inputs := [.serve .dec .c none] } : State) ∧
    ∃ t, step { (busy .dec .c).setPort .dec .c { rx := [0x31#8], tx := [] } with inputs := [.serve .dec .c none] } =
      .next t := ⟨(busy_ok .dec .c).setPort _ _ _, _, rfl⟩

theorem witness_StepNeverStops : StateOk (busy .enc .c) ∧ busyEnc.base.ring.readPos ≠ busyEnc.base.ring.writePos :=
  ⟨busy_ok _ _, by decide⟩

/-- A turn of each port in a state of the invariant: a push into a ring with room, and a pop of the slot queued. -/
theorem witness_CursorOwnership :
    StateOk ({ (busy .rg .p).setPort .rg .p { rx := [0x20#8, 0x01#8], tx := [] } with
      inputs := [.serve .rg .p none] } : State) ∧
    (∃ t, step { (busy .rg .p).setPort .rg .p { rx := [0x20#8, 0x01#8], tx := [] } with
      inputs := [.serve .rg .p none] } = .next t ∧ queueSize t.rg.base = 2) ∧
    StateOk ({ (busy .rg .c).setPort .rg .c { rx := [0x21#8], tx := [] } with inputs := [.serve .rg .c none] } : State) ∧
    (∃ t, step { (busy .rg .c).setPort .rg .c { rx := [0x21#8], tx := [] } with
      inputs := [.serve .rg .c none] } = .next t ∧ queueSize t.rg.base = 0) :=
  ⟨(busy_ok .rg .p).setPort _ _ _, ⟨_, rfl, by decide +kernel⟩, (busy_ok .rg .c).setPort _ _ _, _, rfl, by decide +kernel⟩

/-- A turn of each port, with a slot committed in every ring and one that is not. -/
theorem witness_ExclusiveAccess :
    StateOk ({ busy .rg .p with inputs := [.serve .dec .p none] } : State) ∧
    (∃ t, step { busy .rg .p with inputs := [.serve .dec .p none] } = .next t) ∧
    StateOk ({ busy .rg .p with inputs := [.serve .dec .c none] } : State) ∧
    (∃ t, step { busy .rg .p with inputs := [.serve .dec .c none] } = .next t) ∧
    Committed busyRg.base 0 ∧ Committed busyPool.base 0 ∧ Committed busyDec.base 0 ∧ Committed busyEnc.base 0 ∧
    ¬Committed busyRg.base 1 :=
  ⟨busy_ok .rg .p, ⟨_, rfl⟩, busy_ok .rg .p, ⟨_, rfl⟩, by unfold Committed; decide +kernel⟩

theorem witness_InstancesShareNothing :
    (asking .enc .c Config.straps [0x44#8]).inputs = .serve .enc .c none :: [] ∧
    ∃ t, step (asking .enc .c Config.straps [0x44#8]) = .next t := ⟨rfl, _, rfl⟩

/-- Two states that agree on the pool and on the counter of free values, and on nothing else, and an `SB_ALLOC`. -/
theorem witness_InstancesShareNothing_two (s s' : State) (h : s = { (busy .pool .p).setPort .pool .p
      { rx := [0x13#8, 0x05#8, 0x00#8, 0x00#8, 0x00#8], tx := [] } with inputs := [.serve .pool .p none] })
    (h' : s' = { State.reset with pool := s.pool, inputs := [.serve .pool .p none, .serve .dec .p none] }) :
    s.inputs = .serve .pool .p none :: [] ∧ s'.inputs = .serve .pool .p none :: [.serve .dec .p none] ∧
    SameInstance .pool s s' ∧ s.freeIdx = s'.freeIdx ∧ ¬SameInstance .rg s s' ∧ ∃ t, step s = .next t := by
  subst h'; subst h; exact ⟨rfl, rfl, rfl, rfl, by unfold SameInstance; decide +kernel, _, rfl⟩

theorem witness_WakeTracksQueue : StateOk (busy .rg .p) ∧ ((busy .rg .p).base .rg).configured = true ∧
    ((busy .rg .p).base .rg).straps.hasNotifier = true ∧ wake ((busy .rg .p).base .rg) = true :=
  ⟨busy_ok _ _, by decide +kernel⟩

/-- The straps of 95_test_vectors 2.12 that construction refuses and accepts. -/
theorem test_ConstructionChecks : strapsLegal Config.straps = true ∧ strapsLegal dead = false ∧
    strapsLegal { Config.straps with s8Etx := 0xC5#8 } = false ∧ strapsLegal { Config.straps with s8Ntx := 0x90#8 } = true ∧
    strapsLegal { Config.straps with proto := .simple16, maxPayload := 65536 } = false := by decide

theorem witness_ResetValues : { busy .rg .p with inputs := [.reset .dec small] }.inputs = .reset .dec small :: [] ∧
    ∃ t, step { busy .rg .p with inputs := [.reset .dec small] } = .next t := ⟨rfl, _, rfl⟩

end Sys2Proof.Tests
end

section
/-! PROOF. The statements of 00_scope. First what one turn does: what it runs, that it touches one instance and depends on
no other, and what it does to the operations in progress. -/
namespace Sys2Proof.Machine

/-! ### Construction (00_scope R9, R10) -/

theorem controlBytesDistinct_iff (st : Straps) : controlBytesDistinct st = true ↔
    st.s8Stx &&& 0x7F#8 ≠ st.s8Etx &&& 0x7F#8 ∧ st.s8Stx &&& 0x7F#8 ≠ st.s8Ntx &&& 0x7F#8 ∧
      st.s8Etx &&& 0x7F#8 ≠ st.s8Ntx &&& 0x7F#8 := by
  simp [controlBytesDistinct, sameLow7, and_assoc]

theorem le_payloadBound_iff (p : Proto) (m : Nat) : m ≤ payloadBound p ↔
    (p = .simple8 → m ≤ 2147483645) ∧ (p = .simple16 → m ≤ 65535) ∧
      (p = .packet ∨ p = .seqpacket → m ≤ 16777215) := by
  cases p <;> simp [payloadBound]

/-- Settles O59: `strapsLegal` is the conjunction of its checks, each read as its bound. -/
theorem constructionChecks : Obligations.ConstructionChecks := by
  intro st
  simp only [strapsLegal, Bool.and_eq_true, Bool.or_eq_true, decide_eq_true_eq, ne_eq, ← imp_iff_not_or,
    controlBytesDistinct_iff, le_payloadBound_iff, and_assoc, Nat.reducePow]

/-! ### What a turn runs -/

/-- A step whose first input is a turn is that turn. -/
theorem step_serve {s : State} {k : Kind} {q : PortId} {quantum : Option Nat} {rest : List Input}
    (h : s.inputs = .serve k q quantum :: rest) : step s = turn (beginTurn s k q quantum rest) := by
  simp [step, h]

/-- A port goes on with an operation exactly when it has one in progress (00_scope R7). -/
theorem resume_eq_none_iff (s : State) : resume s = none ↔ PortIdle s s.sel.kind s.sel.port := by
  unfold resume
  cases s.sel.kind <;> cases s.sel.port <;> simp [PortIdle]

/-- The three operations a turn can go on with. -/
theorem resume_some_cases {s : State} {o : Host.Outcome State Fault Refusal} (h : resume s = some o) :
    (s.sel.kind = .dec ∧ s.sel.port = .p ∧ ∃ op, s.dec.pushing = some op ∧ runPush s op = o) ∨
    (s.sel.kind = .dec ∧ s.sel.port = .c ∧ ∃ w, s.dec.clearing = some w ∧ runDecClear s w = o) ∨
    (s.sel.kind = .enc ∧ s.sel.port = .c ∧ ∃ op, s.enc.pulling = some op ∧ runPull s op = o) := by
  unfold resume at h
  split at h
  · next hk hq => exact .inl ⟨hk, hq, Option.map_eq_some_iff.1 h⟩
  · next hk hq => exact .inr (.inl ⟨hk, hq, Option.map_eq_some_iff.1 h⟩)
  · next hk hq => exact .inr (.inr ⟨hk, hq, Option.map_eq_some_iff.1 h⟩)
  · cases h

theorem turn_busy {s : State} {o : Host.Outcome State Fault Refusal} (h : resume s = some o) : turn s = o := by
  simp [turn, h]

theorem turn_command {s : State} {i : Instr} {bytes : List Byte} (h : resume s = none)
    (hd : decode (s.base s.sel.kind).straps.elemW (servedRx s) = .ok (i, bytes)) :
    turn s = exec i (setServedRx s bytes) := by simp [turn, h, fetch, hd]

theorem turn_incomplete {s : State} (h : resume s = none)
    (hd : decode (s.base s.sel.kind).straps.elemW (servedRx s) = .error .incomplete) : turn s = .next s := by
  simp [turn, h, fetch, hd]

theorem turn_reserved {s : State} {op : Byte} {bytes : List Byte} (h : resume s = none)
    (hd : decode (s.base s.sel.kind).straps.elemW (servedRx s) = .error (.reserved op bytes)) :
    turn s = .next (rejectCommand (setServedRx s bytes)) := by simp [turn, h, fetch, hd]

theorem turn_overwide {s : State} {bytes : List Byte} (h : resume s = none)
    (hd : decode (s.base s.sel.kind).straps.elemW (servedRx s) = .error (.overwide bytes)) :
    turn s = .next (rejectCommand (setServedRx s bytes)) := by simp [turn, h, fetch, hd]

/-- Everything a turn can do: go on with an operation, run a command, wait, or reject bytes that are no command. -/
theorem turn_cases (s : State) :
    (∃ o, resume s = some o ∧ turn s = o) ∨
    (resume s = none ∧ ∃ i bytes, decode (s.base s.sel.kind).straps.elemW (servedRx s) = .ok (i, bytes) ∧
      turn s = exec i (setServedRx s bytes)) ∨
    turn s = .next s ∨ ∃ bytes, turn s = .next (rejectCommand (setServedRx s bytes)) := by
  rcases hr : resume s with _ | o
  · rcases hd : decode (s.base s.sel.kind).straps.elemW (servedRx s) with e | ⟨i, bytes⟩
    · cases e with
      | incomplete => exact .inr (.inr (.inl (turn_incomplete hr hd)))
      | reserved op bytes => exact .inr (.inr (.inr ⟨bytes, turn_reserved hr hd⟩))
      | overwide bytes => exact .inr (.inr (.inr ⟨bytes, turn_overwide hr hd⟩))
    · exact .inr (.inl ⟨rfl, i, bytes, rfl, turn_command hr hd⟩)
  · exact .inl ⟨o, rfl, turn_busy hr⟩

/-! ### One instance put in place of another (00_scope R12)

`graft k s u` is `u` with the instance of kind `k` as it is in `s`. That an operation of `s` commutes with `graft` says at
once that it changes no other instance (take `u = s`) and that it depends on none (`u` is arbitrary). -/

/-- `u`, with the instance of kind `k` and the turn of `s`; the counter of free values goes with the pool (log 7). -/
def graft (k : Kind) (s u : State) : State :=
  match k with
  | .rg => { u with rg := s.rg, sel := s.sel }
  | .pool => { u with pool := s.pool, sel := s.sel, freeIdx := s.freeIdx }
  | .dec => { u with dec := s.dec, sel := s.sel }
  | .enc => { u with enc := s.enc, sel := s.sel }

@[simp] theorem graft_sel (k : Kind) (s u : State) : (graft k s u).sel = s.sel := by cases k <;> rfl
@[simp] theorem graft_inputs (k : Kind) (s u : State) : (graft k s u).inputs = u.inputs := by cases k <;> rfl
@[simp] theorem graft_base (k : Kind) (s u : State) : (graft k s u).base k = s.base k := by cases k <;> rfl
@[simp] theorem graft_self (k : Kind) (s : State) : graft k s s = s := by cases k <;> rfl
@[simp] theorem graft_port (k : Kind) (s u : State) (q : PortId) : (graft k s u).port k q = s.port k q := by
  simp [State.port]

theorem graft_setPort (k : Kind) (s u : State) (q : PortId) (x : Port) :
    (graft k s u).setPort k q x = graft k (s.setPort k q x) u := by cases k <;> rfl

theorem sameInstance_graft (k : Kind) (s u : State) : SameInstance k s (graft k s u) := by cases k <;> rfl

theorem graft_freeIdx_pool {k : Kind} (h : k = .pool) (s u : State) : (graft k s u).freeIdx = s.freeIdx := by
  subst h; rfl

/-- A graft of what the state already holds changes nothing. -/
theorem graft_eq_self {k : Kind} {s u : State} (hi : SameInstance k s u) (hsel : s.sel = u.sel)
    (hf : k = .pool → s.freeIdx = u.freeIdx) : graft k s u = u := by
  cases k <;> simp_all [graft, SameInstance]

/-- A function of the next state, on outcomes. -/
def mapNext (f : State → State) : Host.Outcome State Fault Refusal → Host.Outcome State Fault Refusal
  | .next s => .next (f s)
  | .fault e => .fault e
  | .refused r => .refused r

theorem mapNext_next_iff {f : State → State} {o : Host.Outcome State Fault Refusal} {t : State} :
    mapNext f o = .next t ↔ ∃ s, o = .next s ∧ f s = t := by
  cases o <;> simp [mapNext]

/-- When the instance of kind `k` is served, `f` acts on it alone and reads nothing of the others. -/
def LocalAt (k : Kind) (f : State → Host.Outcome State Fault Refusal) : Prop :=
  ∀ s u, s.sel.kind = k → f (graft k s u) = mapNext (graft k · u) (f s)

theorem graft_answer {k : Kind} {s : State} (u : State) (r : Response) (h : s.sel.kind = k) :
    (graft k s u).answer r = graft k (s.answer r) u := by
  subst h; simp only [State.answer, graft_sel, graft_port, graft_setPort]

theorem LocalAt.answer {k : Kind} (r : State → Response) (hr : ∀ s u, r (graft k s u) = r s) :
    LocalAt k fun s => .next (s.answer (r s)) := by
  intro s u h; simp only [hr, graft_answer u _ h, mapNext]

/-- The entry of a command is local, since the command runs on its own kind of instance only (30_encoding R112, R113). -/
theorem LocalAt.accept {j : Kind} {f : State → Host.Outcome State Fault Refusal} (hf : LocalAt j f) (ps : List PortId)
    (k : Kind) : LocalAt k fun s => accept j ps s (f s) := by
  rintro s u rfl
  unfold Machine.accept
  simp only [graft_sel, graft_base]
  split
  · simp only [graft_answer u _ rfl, mapNext]
  · split
    · simp only [graft_answer u _ rfl, mapNext]
    · next h =>
      obtain ⟨hk, -⟩ := not_or.1 h
      have hj : s.sel.kind = j := not_not.1 hk
      rw [hj]; exact hf s u hj

/-! Endings: an operation on the instance itself, whatever it computes. -/

theorem finishRg_graft {s : State} (u : State) (x : Except Fault (RgInst × Response)) (h : s.sel.kind = .rg) :
    finishRg (graft .rg s u) x = mapNext (graft .rg · u) (finishRg s x) := by
  rcases x with f | ⟨i, r⟩
  · rfl
  · exact congrArg Host.Outcome.next (graft_answer (s := { s with rg := i }) u r h)

theorem finishPool_graft {s : State} (u : State) (x : Except Fault (PoolInst × Response)) (h : s.sel.kind = .pool) :
    finishPool (graft .pool s u) x = mapNext (graft .pool · u) (finishPool s x) := by
  rcases x with f | ⟨i, r⟩
  · rfl
  · exact congrArg Host.Outcome.next (graft_answer (s := { s with pool := i }) u r h)

theorem finishDec_graft {s : State} (u : State) (x : Except Fault (DecInst × Response)) (h : s.sel.kind = .dec) :
    finishDec (graft .dec s u) x = mapNext (graft .dec · u) (finishDec s x) := by
  rcases x with f | ⟨i, r⟩
  · rfl
  · exact congrArg Host.Outcome.next (graft_answer (s := { s with dec := i }) u r h)

theorem finishEnc_graft {s : State} (u : State) (x : Except Fault (EncInst × Response)) (h : s.sel.kind = .enc) :
    finishEnc (graft .enc s u) x = mapNext (graft .enc · u) (finishEnc s x) := by
  rcases x with f | ⟨i, r⟩
  · rfl
  · exact congrArg Host.Outcome.next (graft_answer (s := { s with enc := i }) u r h)

theorem LocalAt.finishRg (op : RgInst → Except Fault (RgInst × Response)) :
    LocalAt .rg fun s => finishRg s (op s.rg) := fun _ u h => finishRg_graft u _ h
theorem LocalAt.finishPool (op : PoolInst → Except Fault (PoolInst × Response)) :
    LocalAt .pool fun s => finishPool s (op s.pool) := fun _ u h => finishPool_graft u _ h
theorem LocalAt.finishDec (op : DecInst → Except Fault (DecInst × Response)) :
    LocalAt .dec fun s => finishDec s (op s.dec) := fun _ u h => finishDec_graft u _ h
theorem LocalAt.finishEnc (op : EncInst → Except Fault (EncInst × Response)) :
    LocalAt .enc fun s => finishEnc s (op s.enc) := fun _ u h => finishEnc_graft u _ h

theorem countAlloc_graft (s u : State) (x : Except Fault (PoolInst × Response)) :
    countAlloc (graft .pool s u) x = graft .pool (countAlloc s x) u := by
  unfold countAlloc; split <;> rfl

@[simp] theorem countAlloc_sel (s : State) (x : Except Fault (PoolInst × Response)) : (countAlloc s x).sel = s.sel := by
  unfold countAlloc; split <;> rfl

/-- `SB_ALLOC` reads and moves the counter of free values, which goes with the pool. -/
theorem LocalAt.finishAlloc (n : Nat) : LocalAt .pool fun s =>
    Machine.finishPool (countAlloc s (poolAlloc s.freeIdx s.pool n)) (poolAlloc s.freeIdx s.pool n) := by
  intro s u h
  show Machine.finishPool (countAlloc (graft .pool s u) (poolAlloc s.freeIdx s.pool n)) _ = _
  rw [countAlloc_graft]
  exact finishPool_graft u _ (by rw [countAlloc_sel, h])

/-! Operations in atomic steps. -/

theorem finishPush_graft {s : State} (u : State) (x : Except Fault (DecInst × Progress PushOp))
    (h : s.sel.kind = .dec) : finishPush (graft .dec s u) x = mapNext (graft .dec · u) (finishPush s x) := by
  rcases x with f | ⟨d, op | r⟩
  · rfl
  · rfl
  · exact congrArg Host.Outcome.next (graft_answer (s := { s with dec := { d with pushing := none } }) u r h)

theorem finishDecClear_graft {s : State} (u : State) (x : Except Fault (DecInst × Progress Nat))
    (h : s.sel.kind = .dec) : finishDecClear (graft .dec s u) x = mapNext (graft .dec · u) (finishDecClear s x) := by
  rcases x with f | ⟨d, w | r⟩
  · rfl
  · rfl
  · exact congrArg Host.Outcome.next (graft_answer (s := { s with dec := { d with clearing := none } }) u r h)

theorem finishPull_graft {s : State} (u : State) (x : Except Fault (EncInst × Progress PullOp))
    (h : s.sel.kind = .enc) : finishPull (graft .enc s u) x = mapNext (graft .enc · u) (finishPull s x) := by
  rcases x with f | ⟨e, op | r⟩
  · rfl
  · rfl
  · exact congrArg Host.Outcome.next (graft_answer (s := { s with enc := { e with pulling := none } }) u r h)

theorem runPush_graft {s : State} (u : State) (op : PushOp) (h : s.sel.kind = .dec) :
    runPush (graft .dec s u) op = mapNext (graft .dec · u) (runPush s op) := finishPush_graft u _ h

theorem runDecClear_graft {s : State} (u : State) (w : Nat) (h : s.sel.kind = .dec) :
    runDecClear (graft .dec s u) w = mapNext (graft .dec · u) (runDecClear s w) := finishDecClear_graft u _ h

theorem runPull_graft {s : State} (u : State) (op : PullOp) (h : s.sel.kind = .enc) :
    runPull (graft .enc s u) op = mapNext (graft .enc · u) (runPull s op) := finishPull_graft u _ h

theorem encMoveStream_graft {s : State} (u : State) (len : Nat) (h : s.sel.kind = .enc) :
    encMoveStream (graft .enc s u) len = mapNext (graft .enc · u) (encMoveStream s len) := by
  have henc : (graft .enc s u).enc = s.enc := rfl
  unfold encMoveStream
  rw [henc]
  rcases encQueue s.enc with f | queue
  · rfl
  · simp only
    split
    · simp only [graft_answer u _ h, mapNext]
    · exact runPull_graft u _ h

theorem LocalAt.encMove (len : Nat) : LocalAt .enc fun s =>
    if isDatagram s.enc.base.straps then Machine.finishEnc s (encMoveDatagram s.enc len)
    else encMoveStream s len := by
  intro s u h
  have henc : (graft .enc s u).enc = s.enc := rfl
  simp only [henc]
  split
  · exact finishEnc_graft u _ h
  · exact encMoveStream_graft u len h

/-- Every command is local, on whatever instance it comes in. -/
theorem exec_localAt (i : Instr) (k : Kind) : LocalAt k (exec i) := by
  cases i with
  | sbSize => exact (LocalAt.finishPool poolSize).accept _ k
  | sbZero => exact (LocalAt.finishPool poolZero).accept _ k
  | sbAppend b => exact (LocalAt.finishPool (poolAppend · b)).accept _ k
  | sbAlloc n => exact (LocalAt.finishAlloc n.toNat).accept _ k
  | rgPush v => exact (LocalAt.finishRg (rgPush · v)).accept _ k
  | rgPop => exact (LocalAt.finishRg rgPop).accept _ k
  | rgFront => exact (LocalAt.finishRg rgFront).accept _ k
  | rgEmpty | rgFull | rgSize => exact (LocalAt.answer (k := .rg) _ fun _ _ => rfl).accept _ k
  | rpPush => exact (LocalAt.finishPool poolPush).accept _ k
  | rpPop => exact (LocalAt.finishPool poolPop).accept _ k
  | rpFront => exact (LocalAt.finishPool poolFront).accept _ k
  | rpEmpty | rpFull | rpSize => exact (LocalAt.answer (k := .pool) _ fun _ _ => rfl).accept _ k
  | decPush buf => exact LocalAt.accept (j := .dec) (fun _ u h => runPush_graft u _ h) _ k
  | decPop => exact (LocalAt.finishDec decPop).accept _ k
  | decPeek => exact (LocalAt.finishDec decPeek).accept _ k
  | decEmpty | decErrcnt => exact (LocalAt.answer (k := .dec) _ fun _ _ => rfl).accept _ k
  | decClear => exact LocalAt.accept (j := .dec) (fun _ u h => runDecClear_graft u _ h) _ k
  | decErrcntRst =>
    exact (LocalAt.finishDec fun d => .ok ({ d with errCount := 0#32 }, okay (fieldU32 d.errCount.toNat))).accept _ k
  | encPush msg => exact (LocalAt.finishEnc (encPush · msg)).accept _ k
  | encEmpty => exact (LocalAt.answer (k := .enc) _ fun _ _ => rfl).accept _ k
  | encFill m => exact (LocalAt.finishEnc (encFill · m.toNat)).accept _ k
  | encMove len => exact (LocalAt.encMove len.toNat).accept _ k
  | encClear =>
    exact LocalAt.accept (j := .enc)
      (fun s u h => runPull_graft (s := { s with enc := { s.enc with frontOff := 0 } }) u _ h) _ k
  | encGather => exact (LocalAt.finishEnc encGather).accept _ k

/-! A whole turn. -/

theorem setServedRx_graft {k : Kind} {s : State} (u : State) (bytes : List Byte) (h : s.sel.kind = k) :
    setServedRx (graft k s u) bytes = graft k (setServedRx s bytes) u := by
  subst h; simp only [setServedRx, graft_sel, graft_port, graft_setPort]

@[simp] theorem setServedRx_sel (s : State) (bytes : List Byte) : (setServedRx s bytes).sel = s.sel := setBase_sel _ _ _

theorem rejectCommand_graft {k : Kind} {s : State} (u : State) (h : s.sel.kind = k) :
    rejectCommand (graft k s u) = graft k (rejectCommand s) u := by
  subst h; simp only [rejectCommand, graft_sel, graft_base, graft_answer u _ rfl]

theorem resume_graft {k : Kind} {s : State} (u : State) (h : s.sel.kind = k) :
    resume (graft k s u) = (resume s).map (mapNext (graft k · u)) := by
  cases k with
  | rg => simp [resume, h]
  | pool => simp [resume, h]
  | dec =>
    have hdec : (graft .dec s u).dec = s.dec := rfl
    have hpush : runPush (graft .dec s u) = mapNext (graft .dec · u) ∘ runPush s :=
      funext fun op => runPush_graft u op h
    have hclear : runDecClear (graft .dec s u) = mapNext (graft .dec · u) ∘ runDecClear s :=
      funext fun w => runDecClear_graft u w h
    cases hq : s.sel.port <;> simp only [resume, graft_sel, h, hq, hdec, hpush, hclear, Option.map_map]
  | enc =>
    have henc : (graft .enc s u).enc = s.enc := rfl
    have hpull : runPull (graft .enc s u) = mapNext (graft .enc · u) ∘ runPull s :=
      funext fun op => runPull_graft u op h
    cases hq : s.sel.port <;> simp only [resume, graft_sel, h, hq, henc, hpull, Option.map_map, Option.map_none]

/-- A turn is local to the instance it serves (00_scope R12). -/
theorem turn_localAt (k : Kind) : LocalAt k turn := by
  rintro s u rfl
  have hres := resume_graft u (s := s) rfl
  rcases hr : resume s with _ | o
  · rw [hr] at hres
    have hdec : decode ((graft s.sel.kind s u).base (graft s.sel.kind s u).sel.kind).straps.elemW
        (servedRx (graft s.sel.kind s u)) = decode (s.base s.sel.kind).straps.elemW (servedRx s) := by
      simp only [servedRx, graft_sel, graft_base, graft_port]
    have hreject (bytes : List Byte) : rejectCommand (setServedRx (graft s.sel.kind s u) bytes) =
        graft s.sel.kind (rejectCommand (setServedRx s bytes)) u := by
      rw [setServedRx_graft u _ rfl, rejectCommand_graft u (by rw [setServedRx_sel])]
    rcases hd : decode (s.base s.sel.kind).straps.elemW (servedRx s) with e | ⟨i, bytes⟩ <;> rw [hd] at hdec
    · cases e with
      | incomplete => rw [turn_incomplete hres hdec, turn_incomplete hr hd, mapNext]
      | reserved op bytes => rw [turn_reserved hres hdec, turn_reserved hr hd, mapNext, hreject]
      | overwide bytes => rw [turn_overwide hres hdec, turn_overwide hr hd, mapNext, hreject]
    · rw [turn_command hres hdec, turn_command hr hd, setServedRx_graft u _ rfl]
      exact exec_localAt i _ _ u (by rw [setServedRx_sel])
  · rw [hr] at hres
    rw [turn_busy hres, turn_busy hr]

/-- A turn leaves the state as it was but for the instance served, the turn and the pool's counter. -/
theorem turn_frame {s t : State} (h : turn s = .next t) : t = graft s.sel.kind t s := by
  have hl := turn_localAt s.sel.kind s s rfl
  rw [graft_self, h] at hl
  exact Host.Outcome.next.inj hl

/-- Settles O57: both parts are `turn_localAt`, grafting the served part into the state itself and into the other state. -/
theorem instancesShareNothing : Obligations.InstancesShareNothing := by
  refine ⟨fun s t k q quantum rest hin hstep => ?_, fun s s' t k q quantum rest rest' hin hin' hi hf hstep => ?_⟩
  · rw [step_serve hin] at hstep
    have ht : t = graft k t (beginTurn s k q quantum rest) := turn_frame hstep
    rw [ht]
    cases k <;> simp [graft, beginTurn]
  · rw [step_serve hin] at hstep
    have hsame : SameInstance k (beginTurn s k q quantum rest) (beginTurn s' k q quantum rest') := by
      cases k <;> exact hi
    have hl := turn_localAt k (beginTurn s k q quantum rest) (beginTurn s' k q quantum rest') rfl
    rw [graft_eq_self hsame rfl hf, hstep] at hl
    exact ⟨_, (step_serve hin').trans hl, sameInstance_graft k t _, fun hk => (graft_freeIdx_pool hk t _).symm⟩

/-! ### Operations in progress (00_scope R7, 20_memory R75) -/

@[simp] theorem answer_pushing (s : State) (r : Response) : (s.answer r).dec.pushing = s.dec.pushing := by
  unfold State.answer State.setPort; cases s.sel.kind <;> rfl
@[simp] theorem answer_clearing (s : State) (r : Response) : (s.answer r).dec.clearing = s.dec.clearing := by
  unfold State.answer State.setPort; cases s.sel.kind <;> rfl
@[simp] theorem answer_pulling (s : State) (r : Response) : (s.answer r).enc.pulling = s.enc.pulling := by
  unfold State.answer State.setPort; cases s.sel.kind <;> rfl

theorem answer_served_port (s : State) (r : Response) :
    (s.answer r).port s.sel.kind s.sel.port =
      { s.port s.sel.kind s.sel.port with tx := (s.port s.sel.kind s.sel.port).tx ++ responseBytes r } := by
  simp [State.answer, State.setPort, State.port]

@[simp] theorem setServedRx_pushing (s : State) (bytes : List Byte) :
    (setServedRx s bytes).dec.pushing = s.dec.pushing := by
  unfold setServedRx State.setPort; cases s.sel.kind <;> rfl
@[simp] theorem setServedRx_clearing (s : State) (bytes : List Byte) :
    (setServedRx s bytes).dec.clearing = s.dec.clearing := by
  unfold setServedRx State.setPort; cases s.sel.kind <;> rfl
@[simp] theorem setServedRx_pulling (s : State) (bytes : List Byte) :
    (setServedRx s bytes).enc.pulling = s.enc.pulling := by
  unfold setServedRx State.setPort; cases s.sel.kind <;> rfl

/-- What relates each atomic step's start to its end relates those of the run, where the relation is a preorder. -/
theorem drive_rel {ω α : Type} {atom : ω → α → Except Fault (α × Progress ω)} {R : α → α → Prop}
    (hrefl : ∀ a, R a a) (htrans : ∀ a b c, R a b → R b c → R a c)
    (hatom : ∀ op a a' pr, atom op a = .ok (a', pr) → R a a') {k : Nat} {op : ω} {a a' : α} {pr : Progress ω}
    (h : drive atom k op a = .ok (a', pr)) : R a a' := by
  obtain ⟨hmore, hdone⟩ := drive_keeps (P := R a) (Q := fun _ _ => True)
    (fun op b b' op' hb _ hs => ⟨htrans _ _ _ hb (hatom op b b' _ hs), trivial⟩)
    (fun op b b' r hb _ hs => htrans _ _ _ hb (hatom op b b' _ hs)) k op a (hrefl a) trivial
  cases pr with
  | more op' => exact (hmore a' op' h).1
  | done r => exact hdone a' r h

/-- The ports of a decoder and the operations in progress on them are the same. -/
def DecPortsKept (d d' : DecInst) : Prop :=
  d'.base.p = d.base.p ∧ d'.base.c = d.base.c ∧ d'.pushing = d.pushing ∧ d'.clearing = d.clearing

/-- The ports of an encoder and the operation in progress are the same. -/
def EncPortsKept (e e' : EncInst) : Prop :=
  e'.base.p = e.base.p ∧ e'.base.c = e.base.c ∧ e'.pulling = e.pulling

theorem DecPortsKept.refl (d : DecInst) : DecPortsKept d d := ⟨rfl, rfl, rfl, rfl⟩

theorem DecPortsKept.trans (d e f : DecInst) (h : DecPortsKept d e) (k : DecPortsKept e f) : DecPortsKept d f := by
  obtain ⟨h1, h2, h3, h4⟩ := h
  obtain ⟨k1, k2, k3, k4⟩ := k
  exact ⟨k1.trans h1, k2.trans h2, k3.trans h3, k4.trans h4⟩

theorem EncPortsKept.refl (e : EncInst) : EncPortsKept e e := ⟨rfl, rfl, rfl⟩

theorem EncPortsKept.trans (e f g : EncInst) (h : EncPortsKept e f) (k : EncPortsKept f g) : EncPortsKept e g := by
  obtain ⟨h1, h2, h3⟩ := h
  obtain ⟨k1, k2, k3⟩ := k
  exact ⟨k1.trans h1, k2.trans h2, k3.trans h3⟩

theorem FeedFrame.portsKept {d : DecInst} {r : DecInst × FrameEvent} (h : FeedFrame d r) : DecPortsKept d r.1 := by
  obtain ⟨hb, -, hp, hc, -⟩ := h
  refine ⟨?_, ?_, hp, hc⟩ <;> rw [hb] <;> split <;> rfl

theorem pushAtom_portsKept (op : PushOp) (d d' : DecInst) (pr : Progress PushOp) (h : pushAtom op d = .ok (d', pr)) :
    DecPortsKept d d' := by
  unfold pushAtom at h
  split at h
  · split at h
    · cases h
    · next cur _ => cases h; exact (decodeSeq_frame d cur op.rest).portsKept
  · split at h
    · cases h; exact .refl d
    · next b bs _ =>
      split at h
      · cases h
      · next cur _ =>
        have hk := (feedByte_frame d cur b).portsKept
        simp only at h
        split at h <;> cases h <;> exact hk

theorem decClearAtom_portsKept (w : Nat) (d d' : DecInst) (pr : Progress Nat) (h : decClearAtom w d = .ok (d', pr)) :
    DecPortsKept d d' := by
  unfold decClearAtom at h
  split at h <;> cases h
  · exact .refl d
  · exact ⟨rfl, rfl, rfl, rfl⟩

theorem pullAtom_portsKept (op : PullOp) (e e' : EncInst) (pr : Progress PullOp) (h : pullAtom op e = .ok (e', pr)) :
    EncPortsKept e e' := by
  cases op with
  | clear w =>
    simp only [pullAtom] at h
    split at h <;> cases h <;> exact ⟨rfl, rfl, rfl⟩
  | move rem =>
    simp only [pullAtom] at h
    split at h
    · cases h; exact .refl e
    · split at h
      · cases h
      · split at h <;> cases h <;> exact ⟨rfl, rfl, rfl⟩

/-- How a turn of a `DEC_PUSH` ends: still in progress, or with its response. -/
theorem runPush_next {s t : State} {op : PushOp} (h : runPush s op = .next t) : ∃ d, DecPortsKept s.dec d ∧
    ((∃ op', t = { s with dec := { d with pushing := some op' } }) ∨
      ∃ r, t = State.answer { s with dec := { d with pushing := none } } r) := by
  unfold runPush at h
  rcases hd : drive pushAtom (turnSteps s (op.rest.length + 1)) op s.dec with f | ⟨d, op' | r⟩ <;>
    rw [hd] at h <;> cases h
  · exact ⟨d, drive_rel .refl .trans pushAtom_portsKept hd, .inl ⟨op', rfl⟩⟩
  · exact ⟨d, drive_rel .refl .trans pushAtom_portsKept hd, .inr ⟨r, rfl⟩⟩

/-- How a turn of a `DEC_CLEAR` ends. -/
theorem runDecClear_next {s t : State} {w : Nat} (h : runDecClear s w = .next t) : ∃ d, DecPortsKept s.dec d ∧
    ((∃ w', t = { s with dec := { d with clearing := some w' } }) ∨
      ∃ r, t = State.answer { s with dec := { d with clearing := none } } r) := by
  unfold runDecClear at h
  rcases hd : drive decClearAtom (turnSteps s (s.dec.base.straps.n + 1)) w s.dec with f | ⟨d, w' | r⟩ <;>
    rw [hd] at h <;> cases h
  · exact ⟨d, drive_rel .refl .trans decClearAtom_portsKept hd, .inl ⟨w', rfl⟩⟩
  · exact ⟨d, drive_rel .refl .trans decClearAtom_portsKept hd, .inr ⟨r, rfl⟩⟩

/-- How a turn of an `ENC_CLEAR` or a stream `ENC_MOVE` ends. -/
theorem runPull_next {s t : State} {op : PullOp} (h : runPull s op = .next t) : ∃ e, EncPortsKept s.enc e ∧
    ((∃ op', t = { s with enc := { e with pulling := some op' } }) ∨
      ∃ r, t = State.answer { s with enc := { e with pulling := none } } r) := by
  unfold runPull at h
  rcases hd : drive pullAtom (turnSteps s (s.enc.base.straps.n + 1)) op s.enc with f | ⟨e, op' | r⟩ <;>
    rw [hd] at h <;> cases h
  · exact ⟨e, drive_rel .refl .trans pullAtom_portsKept hd, .inl ⟨op', rfl⟩⟩
  · exact ⟨e, drive_rel .refl .trans pullAtom_portsKept hd, .inr ⟨r, rfl⟩⟩

/-- The served port is still busy and untouched, or idle with one response sent. -/
def GoesOnOrAnswers (s t : State) : Prop :=
  (¬PortIdle t s.sel.kind s.sel.port ∧ t.port s.sel.kind s.sel.port = s.port s.sel.kind s.sel.port) ∨
  (PortIdle t s.sel.kind s.sel.port ∧ ∃ r : Response, t.port s.sel.kind s.sel.port =
    { rx := (s.port s.sel.kind s.sel.port).rx
      tx := (s.port s.sel.kind s.sel.port).tx ++ statusCode r.status :: r.fields })

/-- An answer to a state `s'` in which the served port is that of `s` and idle. -/
theorem GoesOnOrAnswers.answer {s s' : State} (r : Response) (hsel : s'.sel = s.sel)
    (hport : s'.port s.sel.kind s.sel.port = s.port s.sel.kind s.sel.port)
    (hidle : PortIdle (s'.answer r) s.sel.kind s.sel.port) : GoesOnOrAnswers s (s'.answer r) := by
  have ha := answer_served_port s' r
  rw [hsel, hport] at ha
  exact .inr ⟨hidle, r, ha⟩

/-- A busy port goes on with its operation or answers it, and takes no bytes (00_scope R7). -/
theorem resume_goesOnOrAnswers {s t : State} (h : resume s = some (.next t)) : GoesOnOrAnswers s t := by
  rcases resume_some_cases h with ⟨hk, hq, op, -, hrun⟩ | ⟨hk, hq, w, -, hrun⟩ | ⟨hk, hq, op, -, hrun⟩
  · obtain ⟨d, ⟨hp, -⟩, ⟨op', rfl⟩ | ⟨r, rfl⟩⟩ := runPush_next hrun
    · left; simp [hk, hq, PortIdle, State.port, hp]
    · exact .answer r rfl (by simp [hk, hq, State.port, hp]) (by simp [hk, hq, PortIdle])
  · obtain ⟨d, ⟨-, hc, -⟩, ⟨w', rfl⟩ | ⟨r, rfl⟩⟩ := runDecClear_next hrun
    · left; simp [hk, hq, PortIdle, State.port, hc]
    · exact .answer r rfl (by simp [hk, hq, State.port, hc]) (by simp [hk, hq, PortIdle])
  · obtain ⟨e, ⟨-, hc, -⟩, ⟨op', rfl⟩ | ⟨r, rfl⟩⟩ := runPull_next hrun
    · left; simp [hk, hq, PortIdle, State.port, hc]
    · exact .answer r rfl (by simp [hk, hq, State.port, hc]) (by simp [hk, hq, PortIdle])

/-- The operations in progress on the ports that are not served are the same. -/
def KeepsOtherOps (s t : State) : Prop :=
  (¬(s.sel.kind = .dec ∧ s.sel.port = .p) → t.dec.pushing = s.dec.pushing) ∧
  (¬(s.sel.kind = .dec ∧ s.sel.port = .c) → t.dec.clearing = s.dec.clearing) ∧
  (¬(s.sel.kind = .enc ∧ s.sel.port = .c) → t.enc.pulling = s.enc.pulling)

section
variable {s t : State}

theorem KeepsOtherOps.of_eq (h1 : t.dec.pushing = s.dec.pushing) (h2 : t.dec.clearing = s.dec.clearing)
    (h3 : t.enc.pulling = s.enc.pulling) : KeepsOtherOps s t := ⟨fun _ => h1, fun _ => h2, fun _ => h3⟩

theorem KeepsOtherOps.answer (h : KeepsOtherOps s t) (r : Response) : KeepsOtherOps s (t.answer r) := by
  simpa [KeepsOtherOps] using h

theorem accept_keepsOtherOps {k : Kind} {ps : List PortId} {o : Host.Outcome State Fault Refusal}
    (h : accept k ps s o = .next t) (hrun : s.sel.kind = k → s.sel.port ∈ ps → o = .next t → KeepsOtherOps s t) :
    KeepsOtherOps s t := by
  have hself (r : Response) : KeepsOtherOps s (s.answer r) := KeepsOtherOps.answer (.of_eq rfl rfl rfl) r
  rcases accept_cases k ps s o with ⟨-, ha⟩ | ⟨-, -, ha⟩ | ⟨-, hk, hq, ha⟩ <;> rw [ha] at h
  · cases h; exact hself _
  · cases h; exact hself _
  · exact hrun hk hq h

theorem query_keepsOtherOps {k : Kind} {ps : List PortId} {r : Response}
    (h : accept k ps s (.next (s.answer r)) = .next t) : KeepsOtherOps s t :=
  accept_keepsOtherOps h fun _ _ ho => by cases ho; exact KeepsOtherOps.answer (.of_eq rfl rfl rfl) r

theorem finishRg_keepsOtherOps {x : Except Fault (RgInst × Response)} (h : finishRg s x = .next t) :
    KeepsOtherOps s t := by
  rcases x with f | ⟨i, r⟩ <;> cases h
  refine KeepsOtherOps.answer ?_ r
  exact .of_eq rfl rfl rfl

theorem finishPool_keepsOtherOps {x : Except Fault (PoolInst × Response)} (h : finishPool s x = .next t) :
    KeepsOtherOps s t := by
  rcases x with f | ⟨i, r⟩ <;> cases h
  refine KeepsOtherOps.answer ?_ r
  exact .of_eq rfl rfl rfl

theorem countAlloc_keepsOtherOps {x y : Except Fault (PoolInst × Response)}
    (h : finishPool (countAlloc s y) x = .next t) : KeepsOtherOps s t := by
  have hk := finishPool_keepsOtherOps h
  unfold countAlloc at hk
  split at hk <;> exact hk

theorem finishDec_keepsOtherOps {x : Except Fault (DecInst × Response)}
    (hx : ∀ d r, x = .ok (d, r) → DecPortsKept s.dec d) (h : finishDec s x = .next t) : KeepsOtherOps s t := by
  rcases x with f | ⟨d, r⟩ <;> cases h
  obtain ⟨-, -, hp, hc⟩ := hx d r rfl
  refine KeepsOtherOps.answer ?_ r
  exact .of_eq hp hc rfl

theorem finishEnc_keepsOtherOps {x : Except Fault (EncInst × Response)}
    (hx : ∀ e r, x = .ok (e, r) → EncPortsKept s.enc e) (h : finishEnc s x = .next t) : KeepsOtherOps s t := by
  rcases x with f | ⟨e, r⟩ <;> cases h
  obtain ⟨-, -, hp⟩ := hx e r rfl
  refine KeepsOtherOps.answer ?_ r
  exact .of_eq rfl rfl hp

theorem runPush_keepsOtherOps {op : PushOp} (hk : s.sel.kind = .dec) (hq : s.sel.port = .p)
    (h : runPush s op = .next t) : KeepsOtherOps s t := by
  obtain ⟨d, ⟨-, -, -, hc⟩, ⟨op', rfl⟩ | ⟨r, rfl⟩⟩ := runPush_next h
  · exact ⟨fun hn => absurd ⟨hk, hq⟩ hn, fun _ => hc, fun _ => rfl⟩
  · refine KeepsOtherOps.answer ?_ r
    exact ⟨fun hn => absurd ⟨hk, hq⟩ hn, fun _ => hc, fun _ => rfl⟩

theorem runDecClear_keepsOtherOps {w : Nat} (hk : s.sel.kind = .dec) (hq : s.sel.port = .c)
    (h : runDecClear s w = .next t) : KeepsOtherOps s t := by
  obtain ⟨d, ⟨-, -, hp, -⟩, ⟨w', rfl⟩ | ⟨r, rfl⟩⟩ := runDecClear_next h
  · exact ⟨fun _ => hp, fun hn => absurd ⟨hk, hq⟩ hn, fun _ => rfl⟩
  · refine KeepsOtherOps.answer ?_ r
    exact ⟨fun _ => hp, fun hn => absurd ⟨hk, hq⟩ hn, fun _ => rfl⟩

theorem runPull_keepsOtherOps {op : PullOp} (hk : s.sel.kind = .enc) (hq : s.sel.port = .c)
    (h : runPull s op = .next t) : KeepsOtherOps s t := by
  obtain ⟨e, -, ⟨op', rfl⟩ | ⟨r, rfl⟩⟩ := runPull_next h
  · exact ⟨fun _ => rfl, fun _ => rfl, fun hn => absurd ⟨hk, hq⟩ hn⟩
  · refine KeepsOtherOps.answer ?_ r
    exact ⟨fun _ => rfl, fun _ => rfl, fun hn => absurd ⟨hk, hq⟩ hn⟩

end

theorem decPop_portsKept (d d' : DecInst) (r : Response) (h : decPop d = .ok (d', r)) : DecPortsKept d d' := by
  unfold decPop at h
  split at h
  · cases h; exact .refl d
  · split at h <;> cases h; exact ⟨rfl, rfl, rfl, rfl⟩

theorem decPeek_portsKept (d d' : DecInst) (r : Response) (h : decPeek d = .ok (d', r)) : DecPortsKept d d' := by
  unfold decPeek at h
  split at h
  · cases h; exact .refl d
  · split at h <;> cases h; exact .refl d

theorem encPush_portsKept (msg : List Byte) (e e' : EncInst) (r : Response) (h : encPush e msg = .ok (e', r)) :
    EncPortsKept e e' := by
  unfold encPush at h
  repeat' split at h
  all_goals cases h
  all_goals exact ⟨rfl, rfl, rfl⟩

theorem encFill_portsKept (n : Nat) (e e' : EncInst) (r : Response) (h : encFill e n = .ok (e', r)) :
    EncPortsKept e e' := by
  unfold encFill at h
  repeat' split at h
  all_goals cases h
  all_goals exact .refl e

theorem encMoveDatagram_portsKept (n : Nat) (e e' : EncInst) (r : Response) (h : encMoveDatagram e n = .ok (e', r)) :
    EncPortsKept e e' := by
  unfold encMoveDatagram at h
  repeat' split at h
  all_goals cases h
  all_goals exact ⟨rfl, rfl, rfl⟩

theorem encGather_portsKept (e e' : EncInst) (r : Response) (h : encGather e = .ok (e', r)) : EncPortsKept e e' := by
  unfold encGather at h
  split at h <;> cases h
  exact .refl e

theorem encMove_keepsOtherOps {s t : State} {len : Nat} (hk : s.sel.kind = .enc) (hq : s.sel.port = .c)
    (h : (if isDatagram s.enc.base.straps then finishEnc s (encMoveDatagram s.enc len) else encMoveStream s len) =
      .next t) : KeepsOtherOps s t := by
  split at h
  · exact finishEnc_keepsOtherOps (encMoveDatagram_portsKept len s.enc) h
  · unfold encMoveStream at h
    split at h
    · cases h
    · split at h
      · cases h; exact KeepsOtherOps.answer (.of_eq rfl rfl rfl) _
      · exact runPull_keepsOtherOps hk hq h

theorem exec_keepsOtherOps {i : Instr} {s t : State} (h : exec i s = .next t) : KeepsOtherOps s t := by
  cases i with
  | sbSize | sbZero | sbAppend | rpPush | rpPop | rpFront =>
    exact accept_keepsOtherOps h fun _ _ => finishPool_keepsOtherOps
  | sbAlloc => exact accept_keepsOtherOps h fun _ _ => countAlloc_keepsOtherOps
  | rgPush | rgPop | rgFront => exact accept_keepsOtherOps h fun _ _ => finishRg_keepsOtherOps
  | rgEmpty | rgFull | rgSize | rpEmpty | rpFull | rpSize | decEmpty | decErrcnt | encEmpty =>
    exact query_keepsOtherOps h
  | decPush =>
    exact accept_keepsOtherOps h fun hk hq => runPush_keepsOtherOps hk (List.mem_singleton.1 hq)
  | decPop => exact accept_keepsOtherOps h fun _ _ => finishDec_keepsOtherOps (decPop_portsKept s.dec)
  | decPeek => exact accept_keepsOtherOps h fun _ _ => finishDec_keepsOtherOps (decPeek_portsKept s.dec)
  | decClear =>
    exact accept_keepsOtherOps h fun hk hq => runDecClear_keepsOtherOps hk (List.mem_singleton.1 hq)
  | decErrcntRst =>
    exact accept_keepsOtherOps h fun _ _ => finishDec_keepsOtherOps fun d r he => by cases he; exact ⟨rfl, rfl, rfl, rfl⟩
  | encPush msg => exact accept_keepsOtherOps h fun _ _ => finishEnc_keepsOtherOps (encPush_portsKept msg s.enc)
  | encFill n => exact accept_keepsOtherOps h fun _ _ => finishEnc_keepsOtherOps (encFill_portsKept n.toNat s.enc)
  | encMove => exact accept_keepsOtherOps h fun hk hq => encMove_keepsOtherOps hk (List.mem_singleton.1 hq)
  | encClear =>
    exact accept_keepsOtherOps h fun hk hq =>
      runPull_keepsOtherOps (s := { s with enc := { s.enc with frontOff := 0 } }) hk (List.mem_singleton.1 hq)
  | encGather => exact accept_keepsOtherOps h fun _ _ => finishEnc_keepsOtherOps (encGather_portsKept s.enc)

/-- A turn leaves the operations in progress on the other ports as they are. -/
theorem turn_keepsOtherOps {s t : State} (h : turn s = .next t) : KeepsOtherOps s t := by
  rcases turn_cases s with ⟨o, hr, ht⟩ | ⟨-, i, bytes, -, ht⟩ | ht | ⟨bytes, ht⟩ <;> rw [ht] at h
  · subst h
    rcases resume_some_cases hr with ⟨hk, hq, op, -, hrun⟩ | ⟨hk, hq, w, -, hrun⟩ | ⟨hk, hq, op, -, hrun⟩
    · exact runPush_keepsOtherOps hk hq hrun
    · exact runDecClear_keepsOtherOps hk hq hrun
    · exact runPull_keepsOtherOps hk hq hrun
  · simpa [KeepsOtherOps] using exec_keepsOtherOps h
  · cases h; exact .of_eq rfl rfl rfl
  · cases h
    exact KeepsOtherOps.answer (.of_eq (setServedRx_pushing s bytes) (setServedRx_clearing s bytes)
      (setServedRx_pulling s bytes)) _

/-- The state a command runs in is the one `fetch` gives: the turn begun, the bytes taken. -/
theorem setServedRx_beginTurn (s : State) (k : Kind) (q : PortId) (quantum : Option Nat) (rest : List Input)
    (bytes : List Byte) : setServedRx (beginTurn s k q quantum rest) bytes = taken s k q quantum rest bytes := rfl

/-- The beginning of a turn changes nothing that tells whether a port is idle. -/
theorem portIdle_beginTurn (s : State) (k : Kind) (q : PortId) (quantum : Option Nat) (rest : List Input) (j : Kind)
    (port : PortId) : PortIdle (beginTurn s k q quantum rest) j port ↔ PortIdle s j port := by
  cases j <;> cases port <;> rfl

/-- Settles O5: by whether the port that has its turn has an operation in progress. -/
theorem stepRunsDecodedCommand : Obligations.StepRunsDecodedCommand := by
  refine ⟨fun s k q quantum rest i bytes hin hidle hdec => ?_, fun s t k q quantum rest hin hstep => ?_⟩
  · have hres := (resume_eq_none_iff (beginTurn s k q quantum rest)).2 ((portIdle_beginTurn ..).2 hidle)
    rw [step_serve hin, turn_command hres hdec, setServedRx_beginTurn]
  · rw [step_serve hin] at hstep
    refine ⟨fun hbusy => ?_, turn_keepsOtherOps hstep⟩
    have hres : resume (beginTurn s k q quantum rest) ≠ none := fun hn =>
      hbusy ((portIdle_beginTurn ..).1 ((resume_eq_none_iff _).1 hn))
    obtain ⟨o, ho⟩ := Option.ne_none_iff_exists'.1 hres
    rw [turn_busy ho] at hstep
    subst hstep
    exact resume_goesOnOrAnswers ho

end Sys2Proof.Machine
end

section
/-! PROOF. The statements of 10_state. One relation, `Kept`, says of an operation both that it moves the cursor of its port
only and that it keeps the invariant; it is proved of each operation once, and of a whole turn by the dispatch. -/
namespace Sys2Proof.Machine

/-! ### The cursor stores (41_ring R152) -/

/-- Settles O10: both stores are these records, `ringNext` being the next index of 41_ring R153. -/
theorem cursorStores : Obligations.CursorStores := fun _ => ⟨rfl, rfl⟩

/-! ### Reset (10_state R44, 70_reset R410) -/

/-- Settles O53: each instance is a fresh one. -/
theorem resetInv : Obligations.ResetInv :=
  ⟨RgOk.fresh _ _ _ _, PoolOk.fresh _ _ _ _ _, DecOk.fresh _ _ _ _ _ _, EncOk.fresh _ _ _ _ _⟩

/-- A step whose first input is a reset is that reset. -/
theorem step_reset {s : State} {k : Kind} {st : Straps} {rest : List Input} (h : s.inputs = .reset k st :: rest) :
    step s = .next (resetInstance { s with inputs := rest } k st) := by simp [step, h]

/-- The slots of a fresh ring of Slot Buffers: all of size zero, with the capacity of their variant (10_state R28). -/
theorem freshSlots_spec (n : Nat) (kind : SlotKind) (max fill : Nat) :
    (List.replicate n (freshSlot kind max fill)).length = n ∧
    ∀ sl ∈ List.replicate n (freshSlot kind max fill),
      sl.max = max ∧ sl.size = 0 ∧ sl.cap = if kind = .fixed then sl.max else 0 := by
  refine ⟨List.length_replicate, fun sl hsl => ?_⟩
  rw [(List.mem_replicate.1 hsl).2]
  exact ⟨rfl, rfl, by cases kind <;> rfl⟩

/-- What every instance has in common after its reset (70_reset R410). -/
theorem resetInstance_base (s : State) (k : Kind) (st : Straps) :
    ((resetInstance s k st).base k).straps = st ∧ ((resetInstance s k st).base k).configured = strapsLegal st ∧
    ((resetInstance s k st).base k).ring.readPos = 0 ∧ ((resetInstance s k st).base k).ring.writePos = 0 ∧
    ((resetInstance s k st).base k).ring.notifyCount = 0 ∧ wake ((resetInstance s k st).base k) = false := by
  have hwake (p c : List Byte) (n : Nat) : wake (freshBase st p c n) = false := Bool.and_false _
  cases k <;> exact ⟨rfl, rfl, rfl, rfl, rfl, hwake _ _ _⟩

/-- A reset leaves the other instances as they were (00_scope R12). -/
theorem resetInstance_base_ne (s : State) {k j : Kind} (st : Straps) (h : j ≠ k) :
    (resetInstance s k st).base j = s.base j := by
  cases k <;> cases j <;> first | rfl | exact absurd rfl h

@[simp] theorem resetInstance_inputs (s : State) (k : Kind) (st : Straps) :
    (resetInstance s k st).inputs = s.inputs := by cases k <;> rfl

/-- Settles O60: by the kind of instance reset. -/
theorem resetValues : Obligations.ResetValues := by
  intro s t k st rest hin hstep
  rw [step_reset hin] at hstep
  cases hstep
  refine ⟨resetInstance_base _ k st, fun j hj => resetInstance_base_ne _ st hj, resetInstance_inputs _ k st, ?_⟩
  have hslots (max fill : Nat) := freshSlots_spec st.n st.slotKind max fill
  cases k with
  | rg => exact ⟨rfl, rfl, rfl, rfl⟩
  | pool =>
    obtain ⟨hlen, hall⟩ := hslots st.maxPayload s.freeIdx
    exact ⟨rfl, ⟨hlen, fun sl hsl => (hall sl hsl).2⟩, rfl, rfl⟩
  | dec => exact ⟨rfl, rfl, ⟨hslots st.maxPayload s.freeIdx, rfl, rfl, rfl, rfl, rfl, rfl, rfl⟩, rfl⟩
  | enc => exact ⟨rfl, rfl, rfl, hslots (encSlotMax st) s.freeIdx, rfl⟩

/-! ### Where an event leaves the parse state (42_decoder_base R212) -/

theorem seekingSync_reseek (d : DecInst) : SeekingSync (reseek d) := by
  unfold SeekingSync
  rw [reseek_base]
  split
  · next h => simp [h]
  · next h => simp [h]
  · next h => simp [h]
  · trivial

/-- Seeking sync is the reset parse state, but for the noise counter of Simple16, which `reseek` keeps. -/
theorem resetParse_reseek {d : DecInst} (hnoise : d.base.straps.proto = .simple16 → d.s16.ignored = 0#32) :
    ResetParse (reseek d) := by
  unfold ResetParse
  rw [reseek_base]
  split
  · next h => simp [h]
  · next h => simp [h, hnoise h]
  · next h => simp [h]
  · trivial

/-- The machine is seeking sync; and its parse state is the reset one, if `clean` says there is no uncounted noise. -/
def Restarted (clean : Prop) (d : DecInst) : Prop := SeekingSync d ∧ (clean → ResetParse d)

/-- What ends at `reseek` restarts the machine: the errors are counted before it, a drop after it. -/
theorem restarted_reseek {clean : Prop} {d : DecInst}
    (hnoise : clean → d.base.straps.proto = .simple16 → d.s16.ignored = 0#32) : Restarted clean (reseek d) :=
  ⟨seekingSync_reseek d, fun h => resetParse_reseek (hnoise h)⟩

theorem Restarted.congr {clean : Prop} {d e : DecInst} (h : Restarted clean d) (h1 : e.base.straps = d.base.straps)
    (h2 : e.s8 = d.s8) (h3 : e.s16 = d.s16) (h4 : e.pkt = d.pkt) : Restarted clean e := by
  unfold Restarted SeekingSync ResetParse at h ⊢
  rw [h1, h2, h3, h4]
  exact h

theorem restarted_commit {clean : Prop} {d : DecInst}
    (hnoise : clean → d.base.straps.proto = .simple16 → d.s16.ignored = 0#32) : Restarted clean (commit d).1 := by
  rcases commit_cases d with ⟨-, h⟩ | ⟨-, h⟩ <;> rw [h] <;>
    exact (restarted_reseek hnoise).congr (by simp) rfl rfl rfl

/-- Where each event of a fed byte leaves the decoder, `stx` being the byte that starts a Simple8 frame. -/
def EventLeaves (clean : Prop) (stx : Byte) (r : DecInst × FrameEvent) : Prop :=
  match r.2 with
  | .none => True
  | .discarded .stxInFrame =>
    r.1.s8.inFrame = true ∧ r.1.s8.esc = false ∧ r.1.s8.holdValid = false ∧ r.1.s8.crc = stx
  | .discarded .badSync => r.1.s16.st = .lenLo ∧ r.1.s16.ignored = 0#32
  | _ => Restarted clean r.1

section
variable {clean : Prop} {stx : Byte} {d : DecInst}

theorem EventLeaves.none : EventLeaves clean stx (d, .none) := trivial

theorem EventLeaves.of_restarted {r : DecInst × FrameEvent} (h : Restarted clean r.1)
    (hs : r.2 ≠ .discarded .stxInFrame) (hb : r.2 ≠ .discarded .badSync) : EventLeaves clean stx r := by
  unfold EventLeaves
  split
  · trivial
  · next e => exact absurd e hs
  · next e => exact absurd e hb
  · exact h

theorem EventLeaves.error {c : Cause} (hs : c ≠ .stxInFrame) (hb : c ≠ .badSync)
    (hnoise : clean → d.base.straps.proto = .simple16 → d.s16.ignored = 0#32) :
    EventLeaves clean stx (framingError d c) :=
  .of_restarted (restarted_reseek hnoise) (by simpa using hs) (by simpa using hb)

theorem EventLeaves.commit (hnoise : clean → d.base.straps.proto = .simple16 → d.s16.ignored = 0#32) :
    EventLeaves clean stx (commit d) := by
  refine .of_restarted (restarted_commit hnoise) ?_ ?_ <;>
    rcases commit_cases d with ⟨-, h⟩ | ⟨-, h⟩ <;> simp [h]

end

theorem feedS8_leaves {d : DecInst} (clean : Prop) (cur : Slot) (b : Byte) (hproto : d.base.straps.proto = .simple8) :
    EventLeaves clean d.base.straps.s8Stx (feedS8 d cur b) := by
  have herror {e : DecInst} {c : Cause} (hb : e.base = d.base) (hs : c ≠ .stxInFrame) (hc : c ≠ .badSync) :
      EventLeaves clean d.base.straps.s8Stx (framingError e c) := .error hs hc (by simp [hb, hproto])
  have hcommit : EventLeaves clean d.base.straps.s8Stx (commit d) := .commit (by simp [hproto])
  have hend : EventLeaves clean d.base.straps.s8Stx (s8End d cur) := by
    unfold s8End
    split
    · split
      · exact herror rfl (by decide) (by decide)
      · split
        · exact herror rfl (by decide) (by decide)
        · exact hcommit
    · split
      · exact herror rfl (by decide) (by decide)
      · exact hcommit
  have hdata : EventLeaves clean d.base.straps.s8Stx (s8Data d cur b) := by
    simp only [s8Data]
    split
    · split
      · split
        · exact herror rfl (by decide) (by decide)
        · exact .none
      · exact .none
    · split
      · exact herror rfl (by decide) (by decide)
      · exact .none
  unfold feedS8
  split
  · split
    · exact ⟨rfl, rfl, rfl, by simp [s8Start]⟩
    · exact .none
  · split
    · exact .none
    · split
      · split
        · exact herror rfl (by decide) (by decide)
        · exact hend
      · split
        · split
          · exact herror rfl (by decide) (by decide)
          · exact .none
        · exact hdata

@[simp] theorem s16Take_ignored (d : DecInst) (cur : Slot) (b : Byte) :
    (s16Take d cur b).s16.ignored = d.s16.ignored := by
  unfold s16Take
  split
  · split <;> rfl
  · rfl

theorem feedS16_leaves {d : DecInst} {cur : Slot} (stx b : Byte) :
    EventLeaves (S16Ok d.base.straps d.s16 cur) stx (feedS16 d cur b) := by
  unfold feedS16
  split
  · unfold s16Sync0; split <;> exact .none
  · unfold s16Sync1
    split
    · split
      · exact ⟨rfl, rfl⟩
      · exact .none
    · split <;> exact .none
  · exact .none
  · next hst =>
    have hnoise (h : S16Ok d.base.straps d.s16 cur) : d.s16.ignored = 0#32 := h.1 (.inr (.inl hst))
    simp only [s16LenHi]
    split
    · exact .error (by decide) (by decide) fun h _ => hnoise h
    · split
      · exact .error (by decide) (by decide) fun h _ => hnoise h
      · exact .none
  · next hst =>
    have hnoise (h : S16Ok d.base.straps d.s16 cur) : (s16Take d cur b).s16.ignored = 0#32 := by
      rw [s16Take_ignored]; exact h.1 (.inr (.inr hst))
    simp only [s16Payload, s16End]
    split
    · split
      · exact .error (by decide) (by decide) fun h _ => hnoise h
      · exact .commit fun h _ => hnoise h
    · exact .none

theorem feedPkt_leaves {d : DecInst} (clean : Prop) (cur : Slot) (stx b : Byte)
    (hproto : d.base.straps.proto = .packet) : EventLeaves clean stx (feedPkt d cur b) := by
  have herror {e : DecInst} {c : Cause} (hb : e.base = d.base) (hs : c ≠ .stxInFrame) (hc : c ≠ .badSync) :
      EventLeaves clean stx (framingError e c) := .error hs hc (by simp [hb, hproto])
  have hcommit {e : DecInst} (hb : e.base = d.base) : EventLeaves clean stx (commit e) :=
    .commit (by simp [hb, hproto])
  unfold feedPkt
  split
  · split <;> exact .none
  · unfold pktMagic1
    split
    · exact .none
    · split <;> exact .none
  · exact .none
  · exact .none
  · exact .none
  · simp only [pktLen0]
    split
    · exact herror rfl (by decide) (by decide)
    · split
      · exact herror rfl (by decide) (by decide)
      · exact .none
  · simp only [pktPayload]
    split
    · split
      · exact herror rfl (by decide) (by decide)
      · split
        · exact hcommit rfl
        · exact .none
    · split
      · exact hcommit rfl
      · exact .none

/-- Where a fed byte leaves the decoder; only Simple16 keeps a counter that `reseek` does not clear. -/
theorem feedByte_leaves (d : DecInst) (cur : Slot) (b : Byte) :
    EventLeaves (d.base.straps.proto = .simple16 → ParseOk d cur) d.base.straps.s8Stx (feedByte d cur b) := by
  unfold feedByte
  split
  · next h => exact feedS8_leaves _ cur b h
  · next h =>
    have hok : (d.base.straps.proto = .simple16 → ParseOk d cur) = S16Ok d.base.straps d.s16 cur := by
      simp [h, ParseOk]
    rw [hok]
    exact feedS16_leaves _ b
  · next h => exact feedPkt_leaves _ cur _ b h
  · exact .none

/-- Settles O41: the clauses are the cases of `EventLeaves`. -/
theorem errorsDoNotLeak : Obligations.ErrorsDoNotLeak := by
  intro d d' cur b ev hfeed
  have h := feedByte_leaves d cur b
  rw [hfeed] at h
  refine ⟨?_, ?_, ?_⟩
  · rintro (rfl | rfl | ⟨c, rfl, hb, hs⟩)
    · exact h
    · exact h
    · cases c <;> first | exact h | contradiction
  · rintro rfl; exact h
  · rintro rfl; exact h

/-! ### The moves of a cursor (10_state R22, R23) -/

/-- The cursor that port `q` owns moves from `b` to `b'` by some number of single advances, the other cursor stays, and in
a state that is `ok` the number of queued slots tells how many advances they were. -/
def Moved (q : PortId) (ok : Prop) (b b' : Base) : Prop :=
  b'.straps = b.straps ∧ b'.configured = b.configured ∧ ∃ m : Nat,
    match q with
    | .p => b'.ring.readPos = b.ring.readPos ∧ b'.ring.writePos = (ringNext b.straps.n)^[m] b.ring.writePos ∧
        (ok → queueSize b' = queueSize b + m)
    | .c => b'.ring.writePos = b.ring.writePos ∧ b'.ring.readPos = (ringNext b.straps.n)^[m] b.ring.readPos ∧
        (ok → queueSize b' + m = queueSize b)

section
variable {q : PortId} {ok ok' : Prop} {b b' b'' : Base}

theorem Moved.ported (h : SamePorted b b') : Moved q ok b b' := by
  obtain ⟨hst, hcfg, hring⟩ := h
  have hsize : queueSize b' = queueSize b := by simp [queueSize, hst, hring]
  refine ⟨hst, hcfg, 0, ?_⟩
  cases q <;> simp [hring, hsize]

theorem Moved.refl (q : PortId) (ok : Prop) (b : Base) : Moved q ok b b := .ported ⟨rfl, rfl, rfl⟩

theorem Moved.mono (h : Moved q ok b b') (hi : ok' → ok) : Moved q ok' b b' := by
  obtain ⟨hst, hcfg, m, hm⟩ := h
  refine ⟨hst, hcfg, m, ?_⟩
  cases q <;> obtain ⟨hother, hown, hsize⟩ := hm <;> exact ⟨hother, hown, fun h => hsize (hi h)⟩

theorem Moved.trans (h : Moved q ok b b') (k : Moved q ok b' b'') : Moved q ok b b'' := by
  obtain ⟨hst, hcfg, m, hm⟩ := h
  obtain ⟨kst, kcfg, n, kn⟩ := k
  refine ⟨kst.trans hst, kcfg.trans hcfg, n + m, ?_⟩
  rw [hst] at kn
  cases q <;> obtain ⟨hother, hown, hsize⟩ := hm <;> obtain ⟨kother, kown, ksize⟩ := kn <;>
    refine ⟨kother.trans hother, by rw [kown, hown, Function.iterate_add_apply], fun h => ?_⟩
  · rw [ksize h, hsize h, Nat.add_assoc, Nat.add_comm m]
  · rw [← hsize h, ← ksize h, Nat.add_assoc]

/-- A publish is one advance of `write_pos`, and queues one slot where the ring is not full. -/
theorem Moved.published (hr : ok → RingOk b) (hf : isFull b = false) : Moved .p ok b (published b) := by
  refine ⟨rfl, rfl, 1, rfl, rfl, fun h => ?_⟩
  obtain ⟨hread, hwrite, -⟩ := hr h
  exact ringSize_next_write hread hwrite hf

/-- A release is one advance of `read_pos`, and takes one slot off the queue where there is one. -/
theorem Moved.released (hr : ok → RingOk b ∧ isEmpty b = false) : Moved .c ok b (released b) := by
  refine ⟨rfl, rfl, 1, rfl, rfl, fun h => ?_⟩
  obtain ⟨hring, he⟩ := hr h
  exact queueSize_released hring he

end

/-! ### What an operation of an instance keeps -/

/-- From `a` to `a'`, an operation on port `q` moves the cursor of its port only, and keeps the invariant `Ok`. -/
def Kept {α : Type} (base : α → Base) (Ok : α → Prop) (q : PortId) (a a' : α) : Prop :=
  Moved q (Ok a) (base a) (base a') ∧ (Ok a → Ok a')

theorem Kept.refl {α : Type} {base : α → Base} {Ok : α → Prop} {q : PortId} (a : α) : Kept base Ok q a a :=
  ⟨.refl _ _ _, id⟩

theorem InstOk.ring {b : Base} {rest idle : Prop} (h : InstOk b rest idle) (hc : b.configured = true) : RingOk b := by
  obtain ⟨-, hrun, -⟩ := h
  exact (hrun hc).1

section
variable {i i' : RgInst} {r : Response}

theorem rgPush_kept {v : Nat} (hc : i.base.configured = true) (h : rgPush i v = .ok (i', r)) :
    Kept RgInst.base RgOk .p i i' := by
  unfold rgPush at h
  split at h
  · cases h; exact .refl i
  · next hv =>
    split at h
    · cases h; exact .refl i
    · next hf =>
      have hf : isFull i.base = false := by simpa using hf
      split at h <;> cases h
      exact ⟨.published (fun hi => InstOk.ring hi hc) hf, fun hi => hi.push hc hf (Nat.not_le.1 hv)⟩

theorem rgPop_kept (hc : i.base.configured = true) (h : rgPop i = .ok (i', r)) : Kept RgInst.base RgOk .c i i' := by
  unfold rgPop at h
  split at h
  · cases h; exact .refl i
  · next he =>
    have he : isEmpty i.base = false := by simpa using he
    split at h <;> cases h
    exact ⟨.released fun hi => ⟨InstOk.ring hi hc, he⟩, fun hi => hi.pop hc he⟩

theorem rgFront_kept {q : PortId} (h : rgFront i = .ok (i', r)) : Kept RgInst.base RgOk q i i' := by
  unfold rgFront at h
  split at h
  · cases h; exact .refl i
  · split at h <;> cases h; exact .refl i

end

section
variable {i i' : PoolInst} {r : Response}

theorem poolPush_kept (hc : i.base.configured = true) (h : poolPush i = .ok (i', r)) :
    Kept PoolInst.base PoolOk .p i i' := by
  unfold poolPush at h
  split at h <;> cases h
  · exact .refl i
  · next hf =>
    have hf : isFull i.base = false := by simpa using hf
    exact ⟨.published (fun hi => InstOk.ring hi hc) hf,
      fun hi => hi.ring hc rfl rfl ((InstOk.ring hi hc).published hf)⟩

theorem poolPop_kept (hc : i.base.configured = true) (h : poolPop i = .ok (i', r)) :
    Kept PoolInst.base PoolOk .c i i' := by
  unfold poolPop at h
  split at h <;> cases h
  · exact .refl i
  · next he =>
    have he : isEmpty i.base = false := by simpa using he
    exact ⟨.released fun hi => ⟨InstOk.ring hi hc, he⟩,
      fun hi => hi.ring hc rfl rfl ((InstOk.ring hi hc).released (ringIsEmpty_false.1 he))⟩

theorem poolFront_kept {q : PortId} (h : poolFront i = .ok (i', r)) : Kept PoolInst.base PoolOk q i i' := by
  unfold poolFront at h
  split at h
  · cases h; exact .refl i
  · split at h <;> cases h; exact .refl i

theorem poolSize_kept {q : PortId} (h : poolSize i = .ok (i', r)) : Kept PoolInst.base PoolOk q i i' := by
  unfold poolSize at h
  split at h <;> cases h
  exact .refl i

/-- The current slot of a pool may be replaced by one that is as well-formed. -/
theorem setPoolCur_kept {q : PortId} {sl sl' : Slot} (hc : i.base.configured = true)
    (hsl : slotAt i.slots i.base.ring.writePos = .ok sl)
    (hok : ∀ max, SlotOk i.base.straps.slotKind max sl → SlotOk i.base.straps.slotKind max sl') :
    Kept PoolInst.base PoolOk q i (setPoolCur i sl') := by
  refine ⟨.refl _ _ _, fun hi => ?_⟩
  obtain ⟨cur, hcur, hslot⟩ := hi.cur hc
  rw [slotAt_ok, hcur] at hsl
  cases hsl
  exact hi.setCur hc (hok _ hslot)

theorem poolZero_kept (hc : i.base.configured = true) (h : poolZero i = .ok (i', r)) :
    Kept PoolInst.base PoolOk .p i i' := by
  unfold poolZero at h
  split at h
  · cases h
  · next hsl => cases h; exact setPoolCur_kept hc hsl fun _ => SlotOk.zero

theorem poolAppend_kept {b : Byte} (hc : i.base.configured = true) (h : poolAppend i b = .ok (i', r)) :
    Kept PoolInst.base PoolOk .p i i' := by
  unfold poolAppend at h
  split at h
  · cases h
  · next hsl =>
    split at h <;> cases h
    · exact .refl i
    · next ha => exact setPoolCur_kept hc hsl fun _ hok => hok.append ha

theorem poolAlloc_kept {fill n : Nat} (hc : i.base.configured = true) (h : poolAlloc fill i n = .ok (i', r)) :
    Kept PoolInst.base PoolOk .p i i' := by
  unfold poolAlloc at h
  split at h
  · cases h
  · next hsl =>
    split at h <;> cases h
    · exact .refl i
    · next ha => exact setPoolCur_kept hc hsl fun _ hok => hok.alloc ha

end

section
variable {d d' : DecInst} {r : Response}

/-- A decoder of the invariant that moved its cursor is one of the invariant if its running part still is. -/
theorem DecOk.moved {q : PortId} {ok : Prop} (h : DecOk d) (hc : d.base.configured = true)
    (hm : Moved q ok d.base d'.base) (hb : DecBody d') : DecOk d' := by
  obtain ⟨hst, hcfg, -⟩ := hm
  exact hb.ok (by rw [hcfg, hst]; exact h.1) (hcfg.trans hc)

theorem decPop_kept (hc : d.base.configured = true) (hidle : d.clearing = none) (h : decPop d = .ok (d', r)) :
    Kept DecInst.base DecOk .c d d' := by
  unfold decPop at h
  split at h
  · cases h; exact .refl d
  · next he =>
    have he : isEmpty d.base = false := by simpa using he
    split at h <;> cases h
    have hm : Moved .c (DecOk d) d.base (released d.base) := .released fun hd => ⟨InstOk.ring hd hc, he⟩
    exact ⟨hm, fun hd => hd.moved hc hm ((hd.body hc).release he (by simp [hidle]))⟩

theorem decPeek_kept {q : PortId} (h : decPeek d = .ok (d', r)) : Kept DecInst.base DecOk q d d' := by
  unfold decPeek at h
  split at h
  · cases h; exact .refl d
  · split at h <;> cases h; exact .refl d

/-- The error counter is no part of the invariant. -/
theorem errCount_kept {q : PortId} (c : U32) : Kept DecInst.base DecOk q d { d with errCount := c } := by
  refine ⟨.refl _ _ _, fun hd => ?_⟩
  exact ⟨hd.1, fun hc => (hd.body hc).congr rfl rfl rfl rfl rfl rfl (.inl rfl), hd.2.2⟩

end

/-! ### The frame of a message fits its slot (10_state R29, 43_encoder_base R231, 45_framing_encode R341) -/

theorem escByte_length (st : Straps) (b : Byte) : 1 ≤ (escByte st b).length ∧ (escByte st b).length ≤ 2 := by
  unfold escByte
  split <;> simp

theorem flatMap_escByte_length (st : Straps) (p : List Byte) :
    p.length ≤ (p.flatMap (escByte st)).length ∧ (p.flatMap (escByte st)).length ≤ 2 * p.length := by
  induction p with
  | nil => simp
  | cons b p ih =>
    obtain ⟨hlo, hhi⟩ := escByte_length st b
    simp only [List.flatMap_cons, List.length_append, List.length_cons]
    omega

theorem frame_length_bounds (st : Straps) (p : List Byte) (h1 : 1 ≤ p.length) (hmax : p.length ≤ st.maxPayload) :
    (frame st p).length ≤ encSlotMax st ∧ 3 ≤ (frame st p).length := by
  cases hproto : st.proto with
  | simple8 =>
    obtain ⟨hlo, hhi⟩ := flatMap_escByte_length st p
    obtain ⟨-, hcrc⟩ := escByte_length st (crc8 st st.s8Stx p)
    simp only [frame, encSlotMax, hproto, frameS8, List.length_append, List.length_singleton]
    cases st.s8CrcEn
    · simp only [Bool.false_eq_true, if_false, List.length_nil]; omega
    · simp only [if_true]; omega
  | simple16 =>
    simp only [frame, encSlotMax, hproto, frameS16, le16, List.length_append, List.length_cons, List.length_nil]
    cases st.s16CrcEn
    · simp only [Bool.false_eq_true, if_false, List.length_nil]; omega
    · simp only [if_true, List.length_cons, List.length_nil]; omega
  | packet =>
    simp only [frame, encSlotMax, hproto, framePkt, be24, List.length_append, List.length_cons, List.length_nil]
    omega
  | seqpacket =>
    simp only [frame, encSlotMax, hproto, frameSeq, be24, List.length_append, List.length_cons, List.length_nil]
    omega

section
variable {e e' : EncInst} {r : Response}

/-- As `DecOk.moved`, for an encoder. -/
theorem EncOk.moved {q : PortId} {ok : Prop} (h : EncOk e) (hc : e.base.configured = true)
    (hm : Moved q ok e.base e'.base) (hb : EncBody e') (hp : ∀ op, e'.pulling = some op → PullOk e' op) : EncOk e' := by
  obtain ⟨hst, hcfg, -⟩ := hm
  exact hb.ok (by rw [hcfg, hst]; exact h.1) (hcfg.trans hc) hp

theorem encPush_kept {msg : List Byte} (hc : e.base.configured = true) (h : encPush e msg = .ok (e', r)) :
    Kept EncInst.base EncOk .p e e' := by
  unfold encPush at h
  split at h
  · cases h; exact .refl e
  · next h1 =>
    split at h
    · cases h; exact .refl e
    · next hmax =>
      split at h
      · cases h; exact .refl e
      · next hf =>
        have hf : isFull e.base = false := by simpa using hf
        split at h
        · cases h
        · next sl hsl =>
          cases h
          have hm : Moved .p (EncOk e) e.base (published e.base) := .published (fun he => InstOk.ring he hc) hf
          refine ⟨hm, fun he => ?_⟩
          obtain ⟨hbody, hpull⟩ := he.body hc
          obtain ⟨-, -, hslots, -⟩ := id hbody
          have hold := hslots sl (List.mem_of_getElem? (slotAt_ok.1 hsl))
          obtain ⟨hle, h3⟩ := frame_length_bounds e.base.straps msg (by omega) (by omega)
          have hsize := slotFill_size (kind := e.base.straps.slotKind) (hle.trans hold.1.ge)
          obtain ⟨hbody', hpull'⟩ := hbody.push hf (hold.fill hle) (by rw [hsize]; exact h3)
          exact he.moved hc hm hbody' fun op hop => hpull' op (hpull op hop)

theorem encFill_kept {q : PortId} {n : Nat} (h : encFill e n = .ok (e', r)) : Kept EncInst.base EncOk q e e' := by
  unfold encFill at h
  repeat' split at h
  all_goals cases h
  all_goals exact .refl e

theorem encGather_kept {q : PortId} (h : encGather e = .ok (e', r)) : Kept EncInst.base EncOk q e e' := by
  unfold encGather at h
  split at h <;> cases h
  exact .refl e

/-- A datagram encoder has no `front_off`, so that a release leaves it as a release of a stream encoder does. -/
theorem encMoveDatagram_kept {n : Nat} (hc : e.base.configured = true) (hd : isDatagram e.base.straps = true)
    (hidle : e.pulling = none) (h : encMoveDatagram e n = .ok (e', r)) : Kept EncInst.base EncOk .c e e' := by
  unfold encMoveDatagram at h
  split at h
  · cases h; exact .refl e
  · next he =>
    have he : isEmpty e.base = false := by simpa using he
    split at h
    · cases h
    · split at h <;> cases h
      · exact .refl e
      · have hm : Moved .c (EncOk e) e.base (released e.base) := .released fun hok => ⟨InstOk.ring hok hc, he⟩
        refine ⟨hm, fun hok => ?_⟩
        obtain ⟨hbody, -⟩ := hok.body hc
        obtain ⟨-, -, -, -, -, -, hoff⟩ := id hbody
        have hrel : EncBody { e with base := released e.base } := (hbody.release he).congr rfl rfl rfl (hoff hd)
        exact hok.moved hc hm hrel (by simp [hidle])

end

/-! ### Operations in atomic steps (20_memory R75) -/

/-- Where an operation stands: `I` if it goes on, `D` if it is done. -/
def StopsIn {ω α : Type} (I : ω → α → Prop) (D : α → Prop) (a : α) : Progress ω → Prop
  | .more op => I op a
  | .done _ => D a

/-- Each step of an operation on port `q` moves the cursor of its port only, and keeps the invariant: `I` is the invariant
with the operation in progress, and `D` without it. -/
def AtomKept {ω α : Type} (q : PortId) (base : α → Base) (I : ω → α → Prop) (D : α → Prop)
    (atom : ω → α → Except Fault (α × Progress ω)) : Prop :=
  ∀ op a a' pr, atom op a = .ok (a', pr) → Moved q (I op a) (base a) (base a') ∧ (I op a → StopsIn I D a' pr)

/-- What the steps keep, any number of them keeps. -/
theorem AtomKept.drive {ω α : Type} {q : PortId} {base : α → Base} {I : ω → α → Prop} {D : α → Prop}
    {atom : ω → α → Except Fault (α × Progress ω)} (h : AtomKept q base I D atom) (k : Nat) :
    AtomKept q base I D (drive atom k) := by
  induction k with
  | zero => intro op a a' pr hd; cases hd; exact ⟨.refl _ _ _, id⟩
  | succ k ih =>
    intro op a a' pr hd
    rcases hatom : atom op a with f | ⟨a1, op1 | r⟩ <;> simp only [Machine.drive, hatom] at hd
    · cases hd
    · obtain ⟨hm, hi⟩ := h _ _ _ _ hatom
      obtain ⟨hm', hi'⟩ := ih _ _ _ _ hd
      exact ⟨hm.trans (hm'.mono hi), fun hop => hi' (hi hop)⟩
    · cases hd; exact h _ _ _ _ hatom

section
variable {d d' : DecInst}

/-- An operation is in progress on a configured decoder only (70_reset R414). -/
theorem DecOk.configured_of_busy (h : DecOk d) (hbusy : d.pushing ≠ none ∨ d.clearing ≠ none) :
    d.base.configured = true := by
  obtain ⟨-, -, hidle⟩ := h
  by_contra hc
  obtain ⟨-, -, -, hp, hcl⟩ := hidle (by simpa using hc)
  exact hbusy.elim (absurd hp) (absurd hcl)

/-- Which `DEC_PUSH` is in progress does not matter to a configured decoder. -/
theorem DecOk.setPushing (h : DecOk d) (hc : d.base.configured = true) (x : Option PushOp) :
    DecOk { d with pushing := x } :=
  DecBody.ok ((h.body hc).congr rfl rfl rfl rfl rfl rfl (.inl rfl)) h.1 hc

/-- A `DEC_CLEAR` begins with the current `write_pos`, or ends. -/
theorem DecOk.setClearing (h : DecOk d) (hc : d.base.configured = true) {x : Option Nat}
    (hx : ∀ w, x = some w → SnapshotOk d.base w) : DecOk { d with clearing := x } := by
  obtain ⟨hring, hlen, hslots, hcm, hparse, -⟩ := h.body hc
  have hbody : DecBody { d with clearing := x } :=
    ⟨hring, hlen, hslots, hcm, fun cur hcur => (hparse cur hcur).congr rfl rfl rfl rfl, hx⟩
  exact hbody.ok h.1 hc

theorem RingOk.snapshot {b : Base} (h : RingOk b) : SnapshotOk b b.ring.writePos := ⟨h.2.1, le_rfl⟩

theorem FeedFrame.moved {ok : Prop} {r : DecInst × FrameEvent} (h : FeedFrame d r) (hr : ok → RingOk d.base) :
    Moved .p ok d.base r.1.base := by
  obtain ⟨hbase, hfull, -⟩ := h
  rw [hbase]
  split
  · next hev => exact .published hr (hfull hev)
  · exact .refl _ _ _

/-- A step of a `DEC_PUSH` leaves the decoder alone or feeds its current slot. -/
theorem pushAtom_cases {op : PushOp} {pr : Progress PushOp} (h : pushAtom op d = .ok (d', pr)) :
    d' = d ∨ ∃ ev, FeedFrame d (d', ev) ∧ (DecBody d → FeedOk d (d', ev)) := by
  have hcurOf {cur : Slot} (hsl : slotAt d.slots d.base.ring.writePos = .ok cur) (hd : DecBody d) :
      d.slots[d.base.ring.writePos]? = some cur ∧
        SlotOk d.base.straps.slotKind d.base.straps.maxPayload cur ∧ ParseOk d cur := by
    obtain ⟨cur', hcur, hok, hp⟩ := hd.cur
    rw [slotAt_ok, hcur] at hsl
    cases hsl
    exact ⟨hcur, hok, hp⟩
  unfold pushAtom at h
  split at h
  · split at h
    · cases h
    · next cur hsl =>
      cases h
      refine .inr ⟨_, decodeSeq_frame d cur op.rest, fun hd => ?_⟩
      obtain ⟨hcur, hok, -⟩ := hcurOf hsl hd
      exact decodeSeq_ok _ hcur hok
  · split at h
    · cases h; exact .inl rfl
    · next b bs _ =>
      split at h
      · cases h
      · next cur hsl =>
        have hfed : FeedFrame d (feedByte d cur b) ∧ (DecBody d → FeedOk d (feedByte d cur b)) := by
          refine ⟨feedByte_frame d cur b, fun hd => ?_⟩
          obtain ⟨hcur, hok, hp⟩ := hcurOf hsl hd
          exact feedByte_ok b hcur hok hp
        simp only at h
        split at h <;> cases h <;> exact .inr ⟨_, hfed⟩

theorem pushAtom_kept : AtomKept .p DecInst.base (fun op d => DecOk { d with pushing := some op })
    (fun d => DecOk { d with pushing := none }) pushAtom := by
  intro op d d' pr h
  have hconf (hd : DecOk { d with pushing := some op }) : d.base.configured = true :=
    hd.configured_of_busy (.inl nofun)
  have hbody (hd : DecOk { d with pushing := some op }) : DecBody d :=
    (hd.body (hconf hd)).congr rfl rfl rfl rfl rfl rfl (.inl rfl)
  have key : Kept DecInst.base DecBody .p d d' := by
    rcases pushAtom_cases h with rfl | ⟨ev, hframe, hfeed⟩
    · exact .refl d'
    · exact ⟨hframe.moved fun hd => hd.1, fun hd => hd.feed hframe (hfeed hd)⟩
  obtain ⟨hm, hkeep⟩ := key
  refine ⟨hm.mono hbody, fun hd => ?_⟩
  have hd' (x : Option PushOp) : DecOk { d' with pushing := x } :=
    DecOk.moved hd (hconf hd) hm ((hkeep (hbody hd)).congr rfl rfl rfl rfl rfl rfl (.inl rfl))
  cases pr with
  | more op' => exact hd' _
  | done r => exact hd' _

theorem decClearAtom_kept : AtomKept .c DecInst.base (fun w d => DecOk { d with clearing := some w })
    (fun d => DecOk { d with clearing := none }) decClearAtom := by
  intro w d d' pr h
  have hconf (hd : DecOk { d with clearing := some w }) : d.base.configured = true :=
    hd.configured_of_busy (.inr nofun)
  unfold decClearAtom at h
  split at h <;> cases h
  · exact ⟨.refl _ _ _, fun hd => hd.setClearing (hconf hd) nofun⟩
  · next hne =>
    have hring (hd : DecOk { d with clearing := some w }) : RingOk d.base ∧ isEmpty d.base = false := by
      obtain ⟨hr, -, -, -, -, hsnap⟩ := hd.body (hconf hd)
      exact ⟨hr, (snapshot_release hr (hsnap w rfl) hne).1⟩
    have hm := Moved.released hring
    refine ⟨hm, fun hd => DecOk.moved hd (hconf hd) hm ?_⟩
    exact (hd.body (hconf hd)).release (hring hd).2 fun v hv => by cases hv; exact hne

end

section
variable {e e' : EncInst}

theorem EncOk.configured_of_busy (h : EncOk e) (hbusy : e.pulling ≠ none) : e.base.configured = true := by
  obtain ⟨-, -, hidle⟩ := h
  by_contra hc
  obtain ⟨-, -, -, hp⟩ := hidle (by simpa using hc)
  exact hbusy hp

/-- A pull operation that can be finished may begin, and any may end. -/
theorem EncOk.setPulling (h : EncOk e) (hc : e.base.configured = true) {x : Option PullOp}
    (hx : ∀ op, x = some op → PullOk e op) : EncOk { e with pulling := x } := by
  obtain ⟨hbody, -⟩ := h.body hc
  refine EncBody.ok (hbody.congr rfl rfl rfl rfl) h.1 hc fun op hop => ?_
  cases op <;> exact hx _ hop

/-- `ENC_CLEAR` begins by clearing `front_off` (43_encoder_base R248). -/
theorem EncOk.clearFront (h : EncOk e) (hidle : e.pulling = none) : EncOk { e with frontOff := 0 } := by
  refine ⟨h.1, fun hc => ?_, h.2.2⟩
  obtain ⟨hbody, -⟩ := h.body hc
  obtain ⟨hring, hlen, hslots, hcm, -, -, -⟩ := id hbody
  refine ⟨hring, hlen, hslots, hcm, fun _ => rfl, fun he sl hsl => ?_, fun _ => rfl, by simp [hidle]⟩
  obtain ⟨front, hfront, -, hoff, -⟩ := hbody.front he
  rw [show e.slots[e.base.ring.readPos]? = some sl from hsl] at hfront
  cases hfront
  exact Nat.zero_lt_of_lt hoff

/-- A step of a pull operation that does not end it finds a slot queued. -/
theorem pullOk_not_empty {op : PullOp} (h : EncBody e) (hp : PullOk e op) (h1 : op ≠ .clear e.base.ring.readPos)
    (h0 : op ≠ .move 0) : isEmpty e.base = false := by
  cases op with
  | clear w => exact (snapshot_release h.1 hp.1 fun hw => h1 (by rw [hw])).1
  | move rem =>
    have hle := (pullOk_move h hp.1).1 hp
    by_contra hc
    rw [pendingStream_empty (by simpa using hc)] at hle
    exact h0 (by rw [Nat.le_zero.1 hle])

theorem pullAtom_moved {op : PullOp} {pr : Progress PullOp} (h : pullAtom op e = .ok (e', pr)) :
    Moved .c (EncBody e ∧ PullOk e op) e.base e'.base := by
  have hrel (h1 : op ≠ .clear e.base.ring.readPos) (h0 : op ≠ .move 0) :
      Moved .c (EncBody e ∧ PullOk e op) e.base (released e.base) :=
    .released fun ⟨hb, hp⟩ => ⟨hb.1, pullOk_not_empty hb hp h1 h0⟩
  cases op with
  | clear w =>
    simp only [pullAtom] at h
    split at h <;> cases h
    · exact .refl _ _ _
    · next hne => exact hrel (fun hw => hne (PullOp.clear.inj hw).symm) nofun
  | move rem =>
    simp only [pullAtom] at h
    split at h
    · cases h; exact .refl _ _ _
    · next h0 =>
      split at h
      · cases h
      · split at h <;> cases h
        · exact .refl _ _ _
        · exact hrel nofun fun hr => h0 (PullOp.move.inj hr)

theorem pullAtom_kept : AtomKept .c EncInst.base (fun op e => EncOk { e with pulling := some op })
    (fun e => EncOk { e with pulling := none }) pullAtom := by
  intro op e e' pr h
  have hconf (he : EncOk { e with pulling := some op }) : e.base.configured = true :=
    he.configured_of_busy nofun
  have hbody (he : EncOk { e with pulling := some op }) : EncBody e ∧ PullOk e op := by
    obtain ⟨hb, hp⟩ := he.body (hconf he)
    exact ⟨hb.congr rfl rfl rfl rfl, by cases op <;> exact hp _ rfl⟩
  have hm := pullAtom_moved h
  refine ⟨hm.mono hbody, fun he => ?_⟩
  obtain ⟨hb, hp⟩ := hbody he
  rcases pullAtom_ok hb hp with hdone | ⟨e1, op1, hmore, hb1, hp1, -⟩
  · rw [hdone] at h
    cases h
    exact he.setPulling (hconf he) nofun
  · rw [hmore] at h
    cases h
    refine EncOk.moved he (hconf he) hm (hb1.congr rfl rfl rfl rfl) fun op' hop => ?_
    cases hop
    cases op1 <;> exact hp1

end

/-! ### A turn -/

/-- A turn moves no cursor of the instance served but that of its port, and keeps the invariant of the machine. -/
def TurnKept (s t : State) : Prop := Kept (fun u => u.base s.sel.kind) StateOk s.sel.port s t

section
variable {s t : State}

theorem TurnKept.refl (s : State) : TurnKept s s := Kept.refl s

theorem TurnKept.answer (h : TurnKept s t) (r : Response) : TurnKept s (t.answer r) := by
  obtain ⟨hm, hok⟩ := h
  refine ⟨hm.trans (.ported ?_), fun hs => (hok hs).answer r⟩
  exact ⟨answer_straps t r _, answer_configured t r _, answer_ring t r _⟩

/-- A turn may be taken from a state in which only the ports of the instance served differ. -/
theorem TurnKept.start {s' : State} (h : TurnKept s' t) (hsel : s'.sel = s.sel)
    (hb : SamePorted (s.base s.sel.kind) (s'.base s.sel.kind)) (hok : StateOk s → StateOk s') : TurnKept s t := by
  unfold TurnKept at h ⊢
  rw [hsel] at h
  obtain ⟨hm, hkeep⟩ := h
  exact ⟨(Moved.ported hb).trans (hm.mono hok), fun hs => hkeep (hok hs)⟩

theorem TurnKept.rg {q : PortId} {i : RgInst} (hk : s.sel.kind = .rg) (hq : s.sel.port = q)
    (h : Kept RgInst.base RgOk q s.rg i) : TurnKept s { s with rg := i } := by
  subst hq
  unfold TurnKept
  rw [hk]
  exact ⟨h.1.mono And.left, fun ⟨hrg, hrest⟩ => ⟨h.2 hrg, hrest⟩⟩

theorem TurnKept.pool {q : PortId} {i : PoolInst} {n : Nat} (hk : s.sel.kind = .pool) (hq : s.sel.port = q)
    (h : Kept PoolInst.base PoolOk q s.pool i) : TurnKept s { s with pool := i, freeIdx := n } := by
  subst hq
  unfold TurnKept
  rw [hk]
  exact ⟨h.1.mono fun ⟨_, hpool, _⟩ => hpool, fun ⟨hrg, hpool, hrest⟩ => ⟨hrg, h.2 hpool, hrest⟩⟩

theorem TurnKept.dec {q : PortId} {d : DecInst} (hk : s.sel.kind = .dec) (hq : s.sel.port = q)
    (hm : Moved q (DecOk s.dec) s.dec.base d.base) (hok : DecOk s.dec → DecOk d) :
    TurnKept s { s with dec := d } := by
  subst hq
  unfold TurnKept
  rw [hk]
  exact ⟨hm.mono fun ⟨_, _, hdec, _⟩ => hdec, fun ⟨hrg, hpool, hdec, henc⟩ => ⟨hrg, hpool, hok hdec, henc⟩⟩

theorem TurnKept.enc {q : PortId} {e : EncInst} (hk : s.sel.kind = .enc) (hq : s.sel.port = q)
    (hm : Moved q (EncOk s.enc) s.enc.base e.base) (hok : EncOk s.enc → EncOk e) :
    TurnKept s { s with enc := e } := by
  subst hq
  unfold TurnKept
  rw [hk]
  exact ⟨hm.mono fun ⟨_, _, _, henc⟩ => henc, fun ⟨hrg, hpool, hdec, henc⟩ => ⟨hrg, hpool, hdec, hok henc⟩⟩

/-! Endings. -/

theorem finishRg_kept {q : PortId} {x : Except Fault (RgInst × Response)} (hk : s.sel.kind = .rg)
    (hq : s.sel.port = q) (hx : ∀ i r, x = .ok (i, r) → Kept RgInst.base RgOk q s.rg i)
    (h : finishRg s x = .next t) : TurnKept s t := by
  rcases x with f | ⟨i, r⟩ <;> cases h
  exact (TurnKept.rg hk hq (hx i r rfl)).answer r

theorem finishPool_kept {q : PortId} {x : Except Fault (PoolInst × Response)} (hk : s.sel.kind = .pool)
    (hq : s.sel.port = q) (hx : ∀ i r, x = .ok (i, r) → Kept PoolInst.base PoolOk q s.pool i)
    (h : finishPool s x = .next t) : TurnKept s t := by
  rcases x with f | ⟨i, r⟩ <;> cases h
  exact (TurnKept.pool (n := s.freeIdx) hk hq (hx i r rfl)).answer r

theorem countAlloc_kept {q : PortId} {x : Except Fault (PoolInst × Response)} (hk : s.sel.kind = .pool)
    (hq : s.sel.port = q) (hx : ∀ i r, x = .ok (i, r) → Kept PoolInst.base PoolOk q s.pool i)
    (h : finishPool (countAlloc s x) x = .next t) : TurnKept s t := by
  rcases x with f | ⟨i, r⟩ <;> cases h
  have hcount : ∃ n, countAlloc s (.ok (i, r)) = { s with freeIdx := n } := by
    unfold countAlloc
    split
    · exact ⟨_, rfl⟩
    · exact ⟨s.freeIdx, rfl⟩
  obtain ⟨n, hn⟩ := hcount
  rw [hn]
  exact (TurnKept.pool (n := n) hk hq (hx i r rfl)).answer r

theorem finishDec_kept {q : PortId} {x : Except Fault (DecInst × Response)} (hk : s.sel.kind = .dec)
    (hq : s.sel.port = q) (hx : ∀ d r, x = .ok (d, r) → Kept DecInst.base DecOk q s.dec d)
    (h : finishDec s x = .next t) : TurnKept s t := by
  rcases x with f | ⟨d, r⟩ <;> cases h
  obtain ⟨hm, hok⟩ := hx d r rfl
  exact (TurnKept.dec hk hq hm hok).answer r

theorem finishEnc_kept {q : PortId} {x : Except Fault (EncInst × Response)} (hk : s.sel.kind = .enc)
    (hq : s.sel.port = q) (hx : ∀ e r, x = .ok (e, r) → Kept EncInst.base EncOk q s.enc e)
    (h : finishEnc s x = .next t) : TurnKept s t := by
  rcases x with f | ⟨e, r⟩ <;> cases h
  obtain ⟨hm, hok⟩ := hx e r rfl
  exact (TurnKept.enc hk hq hm hok).answer r

/-! Operations in atomic steps: `hop` says that the operation may be in progress. -/

theorem runPush_kept {op : PushOp} (hk : s.sel.kind = .dec) (hq : s.sel.port = .p)
    (hop : DecOk s.dec → DecOk { s.dec with pushing := some op }) (h : runPush s op = .next t) : TurnKept s t := by
  unfold runPush at h
  rcases hd : drive pushAtom (turnSteps s (op.rest.length + 1)) op s.dec with f | ⟨d, pr⟩ <;> rw [hd] at h
  · cases h
  · obtain ⟨hm, hok⟩ := pushAtom_kept.drive _ _ _ _ _ hd
    cases pr with
    | more op' => cases h; exact .dec hk hq (hm.mono hop) fun hs => hok (hop hs)
    | done r =>
      cases h
      exact (TurnKept.dec (d := { d with pushing := none }) hk hq (hm.mono hop) fun hs => hok (hop hs)).answer r

theorem runDecClear_kept {w : Nat} (hk : s.sel.kind = .dec) (hq : s.sel.port = .c)
    (hop : DecOk s.dec → DecOk { s.dec with clearing := some w }) (h : runDecClear s w = .next t) : TurnKept s t := by
  unfold runDecClear at h
  rcases hd : drive decClearAtom (turnSteps s (s.dec.base.straps.n + 1)) w s.dec with f | ⟨d, pr⟩ <;> rw [hd] at h
  · cases h
  · obtain ⟨hm, hok⟩ := decClearAtom_kept.drive _ _ _ _ _ hd
    cases pr with
    | more w' => cases h; exact .dec hk hq (hm.mono hop) fun hs => hok (hop hs)
    | done r =>
      cases h
      exact (TurnKept.dec (d := { d with clearing := none }) hk hq (hm.mono hop) fun hs => hok (hop hs)).answer r

theorem runPull_kept {op : PullOp} (hk : s.sel.kind = .enc) (hq : s.sel.port = .c)
    (hop : EncOk s.enc → EncOk { s.enc with pulling := some op }) (h : runPull s op = .next t) : TurnKept s t := by
  unfold runPull at h
  rcases hd : drive pullAtom (turnSteps s (s.enc.base.straps.n + 1)) op s.enc with f | ⟨e, pr⟩ <;> rw [hd] at h
  · cases h
  · obtain ⟨hm, hok⟩ := pullAtom_kept.drive _ _ _ _ _ hd
    cases pr with
    | more op' => cases h; exact .enc hk hq (hm.mono hop) fun hs => hok (hop hs)
    | done r =>
      cases h
      exact (TurnKept.enc (e := { e with pulling := none }) hk hq (hm.mono hop) fun hs => hok (hop hs)).answer r

/-- A busy port goes on with the operation that the invariant says can be finished. -/
theorem resume_kept (h : resume s = some (.next t)) : TurnKept s t := by
  rcases resume_some_cases h with ⟨hk, hq, op, hop, hrun⟩ | ⟨hk, hq, w, hop, hrun⟩ | ⟨hk, hq, op, hop, hrun⟩
  · exact runPush_kept hk hq (fun hd => by rw [← hop]; exact hd) hrun
  · exact runDecClear_kept hk hq (fun hd => by rw [← hop]; exact hd) hrun
  · exact runPull_kept hk hq (fun he => by rw [← hop]; exact he) hrun

/-! Commands. -/

theorem accept_kept {k : Kind} {ps : List PortId} {o : Host.Outcome State Fault Refusal}
    (h : accept k ps s o = .next t)
    (hrun : (s.base k).configured = true → s.sel.kind = k → s.sel.port ∈ ps → o = .next t → TurnKept s t) :
    TurnKept s t := by
  rcases accept_cases k ps s o with ⟨-, ha⟩ | ⟨-, -, ha⟩ | ⟨hc, hk, hq, ha⟩ <;> rw [ha] at h
  · cases h; exact (TurnKept.refl s).answer _
  · cases h; exact (TurnKept.refl s).answer _
  · exact hrun hc hk hq h

theorem query_kept {k : Kind} {ps : List PortId} {r : Response}
    (h : accept k ps s (.next (s.answer r)) = .next t) : TurnKept s t :=
  accept_kept h fun _ _ _ ho => by cases ho; exact (TurnKept.refl s).answer r

/-- A command of one port. -/
theorem accept_port_kept {k : Kind} {q : PortId} {o : Host.Outcome State Fault Refusal}
    (h : accept k [q] s o = .next t)
    (hrun : (s.base k).configured = true → s.sel.kind = k → s.sel.port = q → o = .next t → TurnKept s t) :
    TurnKept s t :=
  accept_kept h fun hc hk hq => hrun hc hk (List.mem_singleton.1 hq)

theorem encMove_kept {len : Nat} (hc : s.enc.base.configured = true) (hk : s.sel.kind = .enc) (hq : s.sel.port = .c)
    (hidle : s.enc.pulling = none)
    (h : (if isDatagram s.enc.base.straps then finishEnc s (encMoveDatagram s.enc len) else encMoveStream s len) =
      .next t) : TurnKept s t := by
  split at h
  · next hd => exact finishEnc_kept hk hq (fun _ _ => encMoveDatagram_kept hc hd hidle) h
  · next hd =>
    unfold encMoveStream at h
    split at h
    · cases h
    · next queue hqueue =>
      split at h
      · cases h; exact (TurnKept.refl s).answer _
      · next hlen =>
        have hpull : PullOk s.enc (.move len) := ⟨by simpa using hd, queue, hqueue, Nat.not_lt.1 hlen⟩
        exact runPull_kept hk hq (fun he => he.setPulling hc fun op hop => by cases hop; exact hpull) h

theorem encClear_kept (hc : s.enc.base.configured = true) (hk : s.sel.kind = .enc) (hq : s.sel.port = .c)
    (hidle : s.enc.pulling = none)
    (h : runPull { s with enc := { s.enc with frontOff := 0 } } (.clear s.enc.base.ring.writePos) = .next t) :
    TurnKept s t := by
  have hrun : TurnKept { s with enc := { s.enc with frontOff := 0 } } t := by
    refine runPull_kept hk hq (fun he => he.setPulling hc fun op hop => ?_) h
    cases hop
    exact ⟨(InstOk.ring he hc).snapshot, rfl⟩
  refine hrun.start rfl ?_ fun ⟨hrg, hpool, hdec, henc⟩ => ⟨hrg, hpool, hdec, henc.clearFront hidle⟩
  rw [hk]
  exact ⟨rfl, rfl, rfl⟩

theorem exec_kept {i : Instr} (hidle : PortIdle s s.sel.kind s.sel.port) (h : exec i s = .next t) : TurnKept s t := by
  have hclearing (hk : s.sel.kind = .dec) (hq : s.sel.port = .c) : s.dec.clearing = none := by
    rw [hk, hq] at hidle; exact hidle
  have hpulling (hk : s.sel.kind = .enc) (hq : s.sel.port = .c) : s.enc.pulling = none := by
    rw [hk, hq] at hidle; exact hidle
  cases i with
  | sbSize => exact accept_port_kept h fun _ hk hq => finishPool_kept hk hq fun _ _ => poolSize_kept
  | sbZero => exact accept_port_kept h fun hc hk hq => finishPool_kept hk hq fun _ _ => poolZero_kept hc
  | sbAppend => exact accept_port_kept h fun hc hk hq => finishPool_kept hk hq fun _ _ => poolAppend_kept hc
  | sbAlloc => exact accept_port_kept h fun hc hk hq => countAlloc_kept hk hq fun _ _ => poolAlloc_kept hc
  | rgPush => exact accept_port_kept h fun hc hk hq => finishRg_kept hk hq fun _ _ => rgPush_kept hc
  | rgPop => exact accept_port_kept h fun hc hk hq => finishRg_kept hk hq fun _ _ => rgPop_kept hc
  | rgFront => exact accept_port_kept h fun _ hk hq => finishRg_kept hk hq fun _ _ => rgFront_kept
  | rpPush => exact accept_port_kept h fun hc hk hq => finishPool_kept hk hq fun _ _ => poolPush_kept hc
  | rpPop => exact accept_port_kept h fun hc hk hq => finishPool_kept hk hq fun _ _ => poolPop_kept hc
  | rpFront => exact accept_port_kept h fun _ hk hq => finishPool_kept hk hq fun _ _ => poolFront_kept
  | rgEmpty | rgFull | rgSize | rpEmpty | rpFull | rpSize | decEmpty | decErrcnt | encEmpty => exact query_kept h
  | decPush =>
    exact accept_port_kept h fun hc hk hq => runPush_kept hk hq fun hd => hd.setPushing hc _
  | decPop =>
    exact accept_port_kept h fun hc hk hq => finishDec_kept hk hq fun _ _ => decPop_kept hc (hclearing hk hq)
  | decPeek => exact accept_port_kept h fun _ hk hq => finishDec_kept hk hq fun _ _ => decPeek_kept
  | decClear =>
    exact accept_port_kept h fun hc hk hq => runDecClear_kept hk hq fun hd =>
      hd.setClearing hc fun w hw => by cases hw; exact (InstOk.ring hd hc).snapshot
  | decErrcntRst =>
    exact accept_kept h fun _ hk _ => finishDec_kept hk rfl fun d r he => by cases he; exact errCount_kept _
  | encPush => exact accept_port_kept h fun hc hk hq => finishEnc_kept hk hq fun _ _ => encPush_kept hc
  | encFill => exact accept_port_kept h fun _ hk hq => finishEnc_kept hk hq fun _ _ => encFill_kept
  | encMove => exact accept_port_kept h fun hc hk hq => encMove_kept hc hk hq (hpulling hk hq)
  | encClear => exact accept_port_kept h fun hc hk hq => encClear_kept hc hk hq (hpulling hk hq)
  | encGather => exact accept_port_kept h fun _ hk hq => finishEnc_kept hk hq fun _ _ => encGather_kept

theorem portIdle_setServedRx (s : State) (bytes : List Byte) (k : Kind) (q : PortId) :
    PortIdle (setServedRx s bytes) k q ↔ PortIdle s k q := by
  cases k <;> cases q <;> simp [PortIdle]

/-- The bytes taken are the port's, and no part of the invariant. -/
theorem TurnKept.of_taken {bytes : List Byte} (h : TurnKept (setServedRx s bytes) t) : TurnKept s t := by
  refine h.start (setServedRx_sel s bytes) ?_ fun hs => hs.setPort _ _ _
  rw [show (setServedRx s bytes).base s.sel.kind = setBasePort (s.base s.sel.kind) s.sel.port _ from base_setBase _ _ _]
  exact samePorted_setBasePort _ _ _

theorem turn_kept (h : turn s = .next t) : TurnKept s t := by
  rcases turn_cases s with ⟨o, hr, ht⟩ | ⟨hr, i, bytes, -, ht⟩ | ht | ⟨bytes, ht⟩ <;> rw [ht] at h
  · subst h; exact resume_kept hr
  · have hidle := (resume_eq_none_iff s).1 hr
    exact (exec_kept (by rw [setServedRx_sel, portIdle_setServedRx]; exact hidle) h).of_taken
  · cases h; exact .refl s
  · cases h
    exact ((TurnKept.refl (setServedRx s bytes)).answer _).of_taken

end

/-! ### The whole machine -/

theorem StateOk.resetInstance {s : State} (h : StateOk s) (k : Kind) (st : Straps) :
    StateOk (resetInstance s k st) := by
  obtain ⟨hrg, hpool, hdec, henc⟩ := h
  cases k with
  | rg => exact ⟨.fresh _ _ _ _, hpool, hdec, henc⟩
  | pool => exact ⟨hrg, .fresh _ _ _ _ _, hdec, henc⟩
  | dec => exact ⟨hrg, hpool, .fresh _ _ _ _ _ _, henc⟩
  | enc => exact ⟨hrg, hpool, hdec, .fresh _ _ _ _ _⟩

/-- Settles O52: by what the drivers do, a turn being `turn_kept`. -/
theorem stepKeepsInv : Obligations.StepKeepsInv := by
  intro s t hs hstep
  rcases hin : s.inputs with _ | ⟨⟨k, q, bs⟩ | ⟨k, q, quantum⟩ | ⟨k, st⟩, rest⟩
  · simp only [step, hin] at hstep
    cases hstep
    exact hs
  · simp only [step, hin] at hstep
    cases hstep
    exact StateOk.setPort (s := { s with inputs := rest }) hs _ _ _
  · rw [step_serve hin] at hstep
    exact (turn_kept hstep).2 hs
  · rw [step_reset hin] at hstep
    cases hstep
    exact StateOk.resetInstance (s := { s with inputs := rest }) hs k st

/-- What the invariant says of the ring of any instance (10_state R21, 70_reset R414). -/
theorem StateOk.ring {s : State} (h : StateOk s) (k : Kind) :
    RingOk (s.base k) ∨ (s.base k).ring.readPos = 0 ∧ (s.base k).ring.writePos = 0 := by
  have hinst {b : Base} {rest idle : Prop} (hb : InstOk b rest idle) :
      RingOk b ∨ b.ring.readPos = 0 ∧ b.ring.writePos = 0 := by
    obtain ⟨-, hrun, hidle⟩ := hb
    cases hc : b.configured
    · obtain ⟨hr, hw, -⟩ := hidle hc; exact .inr ⟨hr, hw⟩
    · exact .inl (hrun hc).1
  obtain ⟨hrg, hpool, hdec, henc⟩ := h
  cases k with
  | rg => exact hinst hrg
  | pool => exact hinst hpool
  | dec => exact hinst hdec
  | enc => exact hinst henc

/-- At most `N - 1` slots are queued (41_ring R153). -/
theorem StateOk.queueSize_le {s : State} (h : StateOk s) (k : Kind) :
    queueSize (s.base k) ≤ (s.base k).straps.n - 1 := by
  rcases h.ring k with ⟨hr, hw, -⟩ | ⟨hr, hw⟩
  · have hlt := ringSize_lt hr hw
    unfold queueSize
    omega
  · simp [queueSize, hr, hw]

/-- Settles O55: the moves are those of `turn_kept`; that they never pass the other cursor is the bound on the queue in
the state after the turn, which is one of the invariant. -/
theorem cursorOwnership : Obligations.CursorOwnership := by
  intro s t k q quantum rest hin hstep
  rw [step_serve hin] at hstep
  obtain ⟨⟨hst, -, m, hm⟩, hok⟩ :
      Kept (fun u : State => u.base k) StateOk q (beginTurn s k q quantum rest) t := turn_kept hstep
  refine ⟨?_, ?_⟩
  · rintro rfl
    obtain ⟨hread, hwrite, hsize⟩ := hm
    refine ⟨hread, m, hwrite, fun hs => ?_⟩
    have hgrow : queueSize (t.base k) = queueSize (s.base k) + m := hsize hs
    have hle := (hok hs).queueSize_le k
    rw [hst, hgrow] at hle
    exact ⟨Nat.le_sub_of_add_le' hle, hgrow⟩
  · rintro rfl
    obtain ⟨hwrite, hread, hsize⟩ := hm
    refine ⟨hwrite, m, hread, fun hs => ?_⟩
    have hshrink : queueSize (t.base k) + m = queueSize (s.base k) := hsize hs
    exact ⟨hshrink ▸ Nat.le_add_left _ _, hshrink⟩

end Sys2Proof.Machine
end

section
/-! PROOF. The statements of 20_memory. First that nothing stops the machine: on an instance of the invariant every slot index
an operation asks for exists, so that no operation raises `noSlot`, the only fault (log 15). Then what a turn of each
operation in atomic steps does, whole, cut off and resumed; and last which slots a turn leaves alone. -/
namespace Sys2Proof.Machine

/-! ### No fault and no refusal (20_memory R60, R68) -/

/-- An operation of an instance, or one step of it, raises no fault. -/
def Answers {α : Type} (x : Except Fault α) : Prop := ∃ a, x = .ok a

/-- A command, or a turn, ends in a next state. -/
def GoesOn (o : Host.Outcome State Fault Refusal) : Prop := ∃ t, o = .next t

theorem Answers.ok {α : Type} {a : α} : Answers (.ok a) := ⟨a, rfl⟩

theorem Answers.ite {α : Type} {c : Prop} [Decidable c] {x y : Except Fault α} (hx : Answers x) (hy : Answers y) :
    Answers (if c then x else y) := by
  split
  · exact hx
  · exact hy

theorem GoesOn.next {t : State} : GoesOn (.next t) := ⟨t, rfl⟩

/-- The slots at the two cursors of a configured instance exist (10_state R21). -/
theorem InstOk.slotAt_cursors {α : Type} {b : Base} {slots : List α} {rest idle : Prop}
    (h : InstOk b (slots.length = b.straps.n ∧ rest) idle) (hc : b.configured = true) :
    (∃ x, slotAt slots b.ring.readPos = .ok x) ∧ ∃ x, slotAt slots b.ring.writePos = .ok x := by
  obtain ⟨-, hrun, -⟩ := h
  obtain ⟨⟨hr, hw, -⟩, hlen, -⟩ := hrun hc
  rw [← hlen] at hr hw
  exact ⟨⟨_, slotAt_lt hr⟩, _, slotAt_lt hw⟩

section
variable {i : RgInst}

theorem rgPush_answers (v : Nat) (h : RgOk i) (hc : i.base.configured = true) : Answers (rgPush i v) := by
  obtain ⟨-, x, hx⟩ := InstOk.slotAt_cursors h hc
  simp only [rgPush, hx]
  exact .ite .ok (.ite .ok .ok)

theorem rgPop_answers (h : RgOk i) (hc : i.base.configured = true) : Answers (rgPop i) := by
  obtain ⟨⟨x, hx⟩, -⟩ := InstOk.slotAt_cursors h hc
  simp only [rgPop, hx]
  exact .ite .ok .ok

theorem rgFront_answers (h : RgOk i) (hc : i.base.configured = true) : Answers (rgFront i) := by
  obtain ⟨⟨x, hx⟩, -⟩ := InstOk.slotAt_cursors h hc
  simp only [rgFront, hx]
  exact .ite .ok .ok

end

section
variable {i : PoolInst}

theorem poolPush_answers (i : PoolInst) : Answers (poolPush i) := .ite .ok .ok

theorem poolPop_answers (i : PoolInst) : Answers (poolPop i) := .ite .ok .ok

theorem poolFront_answers (h : PoolOk i) (hc : i.base.configured = true) : Answers (poolFront i) := by
  obtain ⟨⟨x, hx⟩, -⟩ := InstOk.slotAt_cursors h hc
  simp only [poolFront, hx]
  exact .ite .ok .ok

theorem poolSize_answers (h : PoolOk i) (hc : i.base.configured = true) : Answers (poolSize i) := by
  obtain ⟨-, x, hx⟩ := InstOk.slotAt_cursors h hc
  simp only [poolSize, hx]
  exact .ok

theorem poolZero_answers (h : PoolOk i) (hc : i.base.configured = true) : Answers (poolZero i) := by
  obtain ⟨-, x, hx⟩ := InstOk.slotAt_cursors h hc
  simp only [poolZero, hx]
  exact .ok

theorem poolAppend_answers (b : Byte) (h : PoolOk i) (hc : i.base.configured = true) : Answers (poolAppend i b) := by
  obtain ⟨-, x, hx⟩ := InstOk.slotAt_cursors h hc
  simp only [poolAppend, hx]
  split
  · exact .ok
  · exact .ok

theorem poolAlloc_answers (fill n : Nat) (h : PoolOk i) (hc : i.base.configured = true) :
    Answers (poolAlloc fill i n) := by
  obtain ⟨-, x, hx⟩ := InstOk.slotAt_cursors h hc
  simp only [poolAlloc, hx]
  split
  · exact .ok
  · exact .ok

end

section
variable {d : DecInst}

theorem decPop_answers (h : DecOk d) (hc : d.base.configured = true) : Answers (decPop d) := by
  obtain ⟨⟨x, hx⟩, -⟩ := InstOk.slotAt_cursors h hc
  simp only [decPop, decFront, hx]
  exact .ite .ok .ok

theorem decPeek_answers (h : DecOk d) (hc : d.base.configured = true) : Answers (decPeek d) := by
  obtain ⟨⟨x, hx⟩, -⟩ := InstOk.slotAt_cursors h hc
  simp only [decPeek, decFront, hx]
  exact .ite .ok .ok

end

section
variable {e : EncInst}

theorem encPush_answers (msg : List Byte) (h : EncOk e) (hc : e.base.configured = true) : Answers (encPush e msg) := by
  obtain ⟨-, x, hx⟩ := InstOk.slotAt_cursors h hc
  simp only [encPush, hx]
  exact .ite .ok (.ite .ok (.ite .ok .ok))

theorem encFill_answers (n : Nat) (h : EncOk e) (hc : e.base.configured = true) : Answers (encFill e n) := by
  obtain ⟨⟨x, hx⟩, -⟩ := InstOk.slotAt_cursors h hc
  obtain ⟨queue, hqueue, -⟩ := (h.body hc).1.queue
  simp only [encFill, hx, hqueue]
  exact .ite (.ite .ok (.ite .ok .ok)) .ok

theorem encMoveDatagram_answers (n : Nat) (h : EncOk e) (hc : e.base.configured = true) :
    Answers (encMoveDatagram e n) := by
  obtain ⟨⟨x, hx⟩, -⟩ := InstOk.slotAt_cursors h hc
  simp only [encMoveDatagram, hx]
  exact .ite .ok (.ite .ok .ok)

theorem encGather_answers (h : EncOk e) (hc : e.base.configured = true) : Answers (encGather e) := by
  obtain ⟨queue, hqueue, -⟩ := (h.body hc).1.queue
  simp only [encGather, hqueue]
  exact .ok

end

/-! Operations in atomic steps: a turn of any number of steps raises no fault where no step does. -/

theorem drive_answers {ω α : Type} {atom : ω → α → Except Fault (α × Progress ω)} {P : ω → α → Prop}
    (hstep : ∀ op a, P op a → ∃ a' pr, atom op a = .ok (a', pr) ∧ ∀ op', pr = .more op' → P op' a') (k : Nat) {op : ω}
    {a : α} (h : P op a) : Answers (drive atom k op a) := by
  obtain ⟨a', pr, hd, -⟩ := drive_total (P := P) (D := fun _ => True)
    (fun op a ha => by
      obtain ⟨a', pr, hatom, hmore⟩ := hstep op a ha
      exact ⟨a', pr, hatom, fun _ _ => trivial, hmore⟩) k op a h
  exact ⟨_, hd⟩

theorem drive_pushAtom_answers (k : Nat) (op : PushOp) {d : DecInst} (h : DecBody d) : Answers (drive pushAtom k op d) :=
  drive_answers (P := fun _ d => DecBody d) (fun op d hd => by
    obtain ⟨d', pr, hatom, hd', -⟩ := pushAtom_ok op hd
    exact ⟨d', pr, hatom, fun _ _ => hd'⟩) k h

theorem drive_decClearAtom_answers (k w : Nat) (d : DecInst) : Answers (drive decClearAtom k w d) :=
  drive_answers (P := fun _ _ => True) (fun w d _ => by
    obtain ⟨⟨d', pr⟩, hatom⟩ : Answers (decClearAtom w d) := .ite .ok .ok
    exact ⟨d', pr, hatom, fun _ _ => trivial⟩) k trivial

theorem drive_pullAtom_answers (k : Nat) {op : PullOp} {e : EncInst} (h : EncBody e) (hp : PullOk e op) :
    Answers (drive pullAtom k op e) :=
  drive_answers (P := fun op e => EncBody e ∧ PullOk e op) (fun op e ⟨hb, hop⟩ => by
    rcases pullAtom_ok hb hop with hdone | ⟨e', op', hmore, hb', hop', -⟩
    · exact ⟨_, _, hdone, nofun⟩
    · exact ⟨_, _, hmore, fun op'' heq => by cases heq; exact ⟨hb', hop'⟩⟩) k ⟨h, hp⟩

section
variable {s : State}

theorem finishRg_goesOn {x : Except Fault (RgInst × Response)} (h : Answers x) : GoesOn (finishRg s x) := by
  obtain ⟨a, rfl⟩ := h
  exact .next

theorem finishPool_goesOn {x : Except Fault (PoolInst × Response)} (h : Answers x) : GoesOn (finishPool s x) := by
  obtain ⟨a, rfl⟩ := h
  exact .next

theorem finishDec_goesOn {x : Except Fault (DecInst × Response)} (h : Answers x) : GoesOn (finishDec s x) := by
  obtain ⟨a, rfl⟩ := h
  exact .next

theorem finishEnc_goesOn {x : Except Fault (EncInst × Response)} (h : Answers x) : GoesOn (finishEnc s x) := by
  obtain ⟨a, rfl⟩ := h
  exact .next

theorem runPush_goesOn (op : PushOp) (h : DecBody s.dec) : GoesOn (runPush s op) := by
  obtain ⟨⟨d, pr⟩, hd⟩ := drive_pushAtom_answers (turnSteps s (op.rest.length + 1)) op h
  rw [runPush, hd]
  cases pr with
  | more op' => exact .next
  | done r => exact .next

theorem runDecClear_goesOn (s : State) (w : Nat) : GoesOn (runDecClear s w) := by
  obtain ⟨⟨d, pr⟩, hd⟩ := drive_decClearAtom_answers (turnSteps s (s.dec.base.straps.n + 1)) w s.dec
  rw [runDecClear, hd]
  cases pr with
  | more w' => exact .next
  | done r => exact .next

theorem runPull_goesOn {op : PullOp} (h : EncBody s.enc) (hp : PullOk s.enc op) : GoesOn (runPull s op) := by
  obtain ⟨⟨e, pr⟩, hd⟩ := drive_pullAtom_answers (turnSteps s (s.enc.base.straps.n + 1)) h hp
  rw [runPull, hd]
  cases pr with
  | more op' => exact .next
  | done r => exact .next

/-- A stream `ENC_MOVE` is refused, or acknowledges no more than is pending. -/
theorem encMoveStream_goesOn (len : Nat) (hd : isDatagram s.enc.base.straps = false) (h : EncBody s.enc) :
    GoesOn (encMoveStream s len) := by
  obtain ⟨queue, hqueue, -⟩ := h.queue
  simp only [encMoveStream, hqueue]
  split
  · exact .next
  · next hlen => exact runPull_goesOn h ⟨hd, queue, hqueue, Nat.not_lt.1 hlen⟩

/-- An `ENC_CLEAR` begins with `front_off` cleared and a snapshot that is not ahead of `write_pos`. -/
theorem encClear_goesOn (h : EncOk s.enc) (hc : s.enc.base.configured = true) (hidle : s.enc.pulling = none) :
    GoesOn (runPull { s with enc := { s.enc with frontOff := 0 } } (.clear s.enc.base.ring.writePos)) := by
  obtain ⟨hbody, -⟩ := (h.clearFront hidle).body hc
  exact runPull_goesOn hbody ⟨hbody.1.snapshot, rfl⟩

theorem accept_goesOn {k : Kind} {ps : List PortId} {o : Host.Outcome State Fault Refusal}
    (h : (s.base k).configured = true → s.sel.kind = k → s.sel.port ∈ ps → GoesOn o) : GoesOn (accept k ps s o) := by
  rcases accept_cases k ps s o with ⟨-, ha⟩ | ⟨-, -, ha⟩ | ⟨hc, hk, hq, ha⟩ <;> rw [ha]
  · exact .next
  · exact .next
  · exact h hc hk hq

/-- Every command ends in a next state: it is refused at its entry, or its own operation answers. -/
theorem exec_goesOn (i : Instr) (hs : StateOk s) (hidle : PortIdle s s.sel.kind s.sel.port) : GoesOn (exec i s) := by
  obtain ⟨hrg, hpool, hdec, henc⟩ := hs
  cases i with
  | sbSize => exact accept_goesOn fun hc _ _ => finishPool_goesOn (poolSize_answers hpool hc)
  | sbZero => exact accept_goesOn fun hc _ _ => finishPool_goesOn (poolZero_answers hpool hc)
  | sbAppend b => exact accept_goesOn fun hc _ _ => finishPool_goesOn (poolAppend_answers b hpool hc)
  | sbAlloc n => exact accept_goesOn fun hc _ _ => finishPool_goesOn (poolAlloc_answers _ _ hpool hc)
  | rgPush v => exact accept_goesOn fun hc _ _ => finishRg_goesOn (rgPush_answers v hrg hc)
  | rgPop => exact accept_goesOn fun hc _ _ => finishRg_goesOn (rgPop_answers hrg hc)
  | rgFront => exact accept_goesOn fun hc _ _ => finishRg_goesOn (rgFront_answers hrg hc)
  | rpPush => exact accept_goesOn fun _ _ _ => finishPool_goesOn (poolPush_answers s.pool)
  | rpPop => exact accept_goesOn fun _ _ _ => finishPool_goesOn (poolPop_answers s.pool)
  | rpFront => exact accept_goesOn fun hc _ _ => finishPool_goesOn (poolFront_answers hpool hc)
  | rgEmpty | rgFull | rgSize | rpEmpty | rpFull | rpSize | decEmpty | decErrcnt | encEmpty =>
    exact accept_goesOn fun _ _ _ => .next
  | decPush buf => exact accept_goesOn fun hc _ _ => runPush_goesOn _ (hdec.body hc)
  | decPop => exact accept_goesOn fun hc _ _ => finishDec_goesOn (decPop_answers hdec hc)
  | decPeek => exact accept_goesOn fun hc _ _ => finishDec_goesOn (decPeek_answers hdec hc)
  | decClear => exact accept_goesOn fun _ _ _ => runDecClear_goesOn s _
  | decErrcntRst => exact accept_goesOn fun _ _ _ => finishDec_goesOn .ok
  | encPush msg => exact accept_goesOn fun hc _ _ => finishEnc_goesOn (encPush_answers msg henc hc)
  | encFill n => exact accept_goesOn fun hc _ _ => finishEnc_goesOn (encFill_answers n.toNat henc hc)
  | encMove len =>
    refine accept_goesOn fun hc _ _ => ?_
    split
    · exact finishEnc_goesOn (encMoveDatagram_answers len.toNat henc hc)
    · next hd => exact encMoveStream_goesOn len.toNat (by simpa using hd) (henc.body hc).1
  | encClear =>
    refine accept_goesOn fun hc hk hq => encClear_goesOn henc hc ?_
    rw [hk, List.mem_singleton.1 hq] at hidle
    exact hidle
  | encGather => exact accept_goesOn fun hc _ _ => finishEnc_goesOn (encGather_answers henc hc)

/-- An operation in progress goes on: the invariant says that it can be finished. -/
theorem resume_goesOn {o : Host.Outcome State Fault Refusal} (hs : StateOk s) (h : resume s = some o) : GoesOn o := by
  obtain ⟨-, -, hdec, henc⟩ := hs
  rcases resume_some_cases h with ⟨-, -, op, hop, rfl⟩ | ⟨-, -, w, -, rfl⟩ | ⟨-, -, op, hop, rfl⟩
  · exact runPush_goesOn op (hdec.body (hdec.configured_of_busy (.inl (by simp [hop]))))
  · exact runDecClear_goesOn s w
  · obtain ⟨hbody, hpull⟩ := henc.body (henc.configured_of_busy (by simp [hop]))
    exact runPull_goesOn hbody (hpull op hop)

theorem turn_goesOn (hs : StateOk s) : GoesOn (turn s) := by
  rcases turn_cases s with ⟨o, hr, ht⟩ | ⟨hr, i, bytes, -, ht⟩ | ht | ⟨bytes, ht⟩ <;> rw [ht]
  · exact resume_goesOn hs hr
  · refine exec_goesOn i (hs.setPort _ _ _) ?_
    rw [setServedRx_sel, portIdle_setServedRx]
    exact (resume_eq_none_iff s).1 hr
  · exact .next
  · exact .next

end

/-- Settles O54: by what the drivers do, a turn being `turn_goesOn`. -/
theorem stepNeverStops : Obligations.StepNeverStops := by
  intro s hs
  show GoesOn (step s)
  rcases hin : s.inputs with _ | ⟨⟨k, q, bs⟩ | ⟨k, q, quantum⟩ | ⟨k, st⟩, rest⟩
  · simp only [step, hin]
    exact .next
  · simp only [step, hin]
    exact .next
  · rw [step_serve hin]
    exact turn_goesOn (s := beginTurn s k q quantum rest) hs
  · rw [step_reset hin]
    exact .next

/-! ### A turn of `DEC_PUSH` on a stream protocol (42_decoder_base R192, 20_memory R75) -/

/-- A decoder that feeds bytes: its protocol is a stream protocol, and its current slot exists. -/
def Feedable (d : DecInst) : Prop :=
  d.base.straps.proto ≠ .seqpacket ∧ d.slots.length = d.base.straps.n ∧ d.base.ring.writePos < d.base.straps.n

section
variable {d : DecInst}

theorem Feedable.cur (h : Feedable d) : ∃ cur, d.slots[d.base.ring.writePos]? = some cur := by
  obtain ⟨-, hlen, hw⟩ := h
  rw [← hlen] at hw
  exact ⟨_, List.getElem?_eq_getElem hw⟩

theorem Feedable.feed {r : DecInst × FrameEvent} (h : Feedable d) (hf : FeedFrame d r) : Feedable r.1 := by
  obtain ⟨hproto, hlen, hw⟩ := h
  obtain ⟨hst, -⟩ := hf.straps
  refine ⟨by rw [hst]; exact hproto, by rw [hf.length, hst, hlen], ?_⟩
  obtain ⟨hbase, -⟩ := hf
  rw [hbase]
  split
  · exact ringNext_lt hw
  · exact hw

/-- With no byte left the step is the response. -/
theorem pushAtom_nil (consumed : Nat) (h : Feedable d) :
    pushAtom { rest := [], consumed := consumed } d = .ok (d, .done (okay (pushFields consumed 0#8))) := by
  obtain ⟨hproto, -⟩ := h
  simp [pushAtom, hproto]

/-- With a byte left the step feeds it, and the event says whether the call ends. -/
theorem pushAtom_cons {cur : Slot} (b : Byte) (bs : List Byte) (consumed : Nat) (h : Feedable d)
    (hcur : d.slots[d.base.ring.writePos]? = some cur) :
    pushAtom { rest := b :: bs, consumed := consumed } d = .ok ((feedByte d cur b).1,
      (eventEnds d.base.straps.errFatal (consumed + 1) (feedByte d cur b).2).elim
        (.more { rest := bs, consumed := consumed + 1 }) .done) := by
  obtain ⟨hproto, -⟩ := h
  simp only [pushAtom, hproto, if_false, slotAt_ok.2 hcur]
  rcases eventEnds d.base.straps.errFatal (consumed + 1) (feedByte d cur b).2 with _ | r <;> rfl

/-- One round of the loop is one step: it feeds a byte, and the same events end it. -/
theorem pushLoop_cons {cur : Slot} (b : Byte) (bs : List Byte) (consumed : Nat)
    (hcur : d.slots[d.base.ring.writePos]? = some cur) :
    pushLoop d consumed (b :: bs) =
      (eventEnds d.base.straps.errFatal (consumed + 1) (feedByte d cur b).2).elim
        (pushLoop (feedByte d cur b).1 (consumed + 1) bs) fun r => ((feedByte d cur b).1, r) := by
  simp only [pushLoop, hcur]
  rcases feedByte d cur b with ⟨d', _ | _ | c | _⟩
  · rfl
  · rfl
  · cases hfatal : d.base.straps.errFatal <;> rfl
  · rfl

/-- No event ends a push with `ST_OK`. -/
theorem eventEnds_status {errFatal : Bool} {consumed : Nat} {ev : FrameEvent} {r : Response}
    (h : eventEnds errFatal consumed ev = some r) : r.status ≠ .ok := by
  cases ev with
  | none => cases h
  | committed => cases h
  | discarded c => cases errFatal <;> cases h; exact nofun
  | ringFull => cases h; exact nofun

theorem pushLoop_feedable (consumed : Nat) (bs : List Byte) (h : Feedable d) :
    Feedable (pushLoop d consumed bs).1 := by
  induction bs generalizing d consumed with
  | nil => exact h
  | cons b bs ih =>
    obtain ⟨cur, hcur⟩ := h.cur
    have hfed := h.feed (feedByte_frame d cur b)
    rw [pushLoop_cons b bs consumed hcur]
    rcases eventEnds d.base.straps.errFatal (consumed + 1) (feedByte d cur b).2 with _ | r
    · exact ih _ hfed
    · exact hfed

/-- A loop that no event ended has absorbed all its bytes. -/
theorem pushLoop_ok {consumed : Nat} {bs : List Byte} (h : Feedable d) (hok : (pushLoop d consumed bs).2.status = .ok) :
    (pushLoop d consumed bs).2 = okay (pushFields (consumed + bs.length) 0#8) := by
  induction bs generalizing d consumed with
  | nil => rfl
  | cons b bs ih =>
    obtain ⟨cur, hcur⟩ := h.cur
    rw [pushLoop_cons b bs consumed hcur] at hok ⊢
    rcases hev : eventEnds d.base.straps.errFatal (consumed + 1) (feedByte d cur b).2 with _ | r <;> rw [hev] at hok
    · rw [List.length_cons, Nat.add_comm bs.length, ← Nat.add_assoc]
      exact ih (h.feed (feedByte_frame d cur b)) hok
    · exact absurd hok (eventEnds_status hev)

/-- `j` steps of a push run the loop over the first `j` bytes, and keep the others unless one of these ended the call. -/
theorem drive_pushAtom {j consumed : Nat} {bs : List Byte} (h : Feedable d) (hj : j ≤ bs.length) :
    drive pushAtom j { rest := bs, consumed := consumed } d = .ok ((pushLoop d consumed (bs.take j)).1,
      if (pushLoop d consumed (bs.take j)).2.status = .ok then
        .more { rest := bs.drop j, consumed := consumed + j }
      else .done (pushLoop d consumed (bs.take j)).2) := by
  induction bs generalizing d consumed j with
  | nil => obtain rfl : j = 0 := Nat.le_zero.1 hj; rfl
  | cons b bs ih =>
    cases j with
    | zero => rfl
    | succ j =>
      obtain ⟨cur, hcur⟩ := h.cur
      rw [List.take_succ_cons, List.drop_succ_cons, pushLoop_cons b _ consumed hcur, drive,
        pushAtom_cons b bs consumed h hcur]
      rcases hev : eventEnds d.base.straps.errFatal (consumed + 1) (feedByte d cur b).2 with _ | r
      · rw [Nat.add_comm j, ← Nat.add_assoc]
        exact ih (h.feed (feedByte_frame d cur b)) (Nat.le_of_succ_le_succ hj)
      · simp [eventEnds_status hev]

/-- One step a byte and one for the response run a push to its end. -/
theorem drive_pushAtom_whole (op : PushOp) (h : Feedable d) :
    drive pushAtom (op.rest.length + 1) op d =
      .ok ((pushLoop d op.consumed op.rest).1, .done (pushLoop d op.consumed op.rest).2) := by
  obtain ⟨bs, consumed⟩ := op
  have hbytes := drive_pushAtom (consumed := consumed) h (le_refl bs.length)
  rw [List.take_length, List.drop_length] at hbytes
  by_cases hok : (pushLoop d consumed bs).2.status = .ok
  · rw [if_pos hok] at hbytes
    rw [drive_add, hbytes]
    simp only [drive, pushAtom_nil _ (pushLoop_feedable consumed bs h), pushLoop_ok h hok]
  · rw [if_neg hok] at hbytes
    rw [drive_add, hbytes]

end

/-- A push whose turn lasts to its end answers as the loop over its bytes does. -/
theorem runPush_whole {s : State} (op : PushOp) (hw : WholeTurn s) (h : Feedable s.dec) :
    runPush s op = .next (State.answer
      { s with dec := { (pushLoop s.dec op.consumed op.rest).1 with pushing := none } }
      (pushLoop s.dec op.consumed op.rest).2) := by
  rw [runPush, turnSteps, show s.sel.quantum = none from hw, Option.getD_none, drive_pushAtom_whole op h]
  rfl

/-- A push whose turn ends after `j` bytes. -/
theorem runPush_cut {s : State} {j : Nat} {buf : List Byte} (hq : s.sel.quantum = some j) (hj : j ≤ buf.length)
    (h : Feedable s.dec) :
    runPush s { rest := buf, consumed := 0 } = .next (
      if (pushLoop s.dec 0 (buf.take j)).2.status = .ok then
        { s with dec := { (pushLoop s.dec 0 (buf.take j)).1 with pushing := some { rest := buf.drop j, consumed := j } } }
      else State.answer { s with dec := { (pushLoop s.dec 0 (buf.take j)).1 with pushing := none } }
        (pushLoop s.dec 0 (buf.take j)).2) := by
  rw [runPush, turnSteps, hq, Option.getD_some, drive_pushAtom h hj]
  split
  · rw [Nat.zero_add]; rfl
  · rfl

/-- A step that serves a busy port is what that port goes on with. -/
theorem step_resumes {s : State} {k : Kind} {q : PortId} {quantum : Option Nat} {rest : List Input}
    {o : Host.Outcome State Fault Refusal} (hin : s.inputs = .serve k q quantum :: rest)
    (h : resume (beginTurn s k q quantum rest) = some o) : step s = o := by
  rw [step_serve hin, turn_busy h]

theorem resume_pushing {s : State} {op : PushOp} (hk : s.sel.kind = .dec) (hq : s.sel.port = .p)
    (hop : s.dec.pushing = some op) : resume s = some (runPush s op) := by
  simp only [resume, hk, hq, hop, Option.map_some]

/-- Settles O22: the loop and the steps take the same bytes, by `drive_pushAtom`. -/
theorem decPushStream : Obligations.DecPushStream := by
  refine ⟨fun s buf hserve hproto hlen hw => ⟨fun hwhole => ?_, fun j d r hq hj hloop => ?_⟩,
    fun s rest op hin hop hproto hlen hw => ?_⟩
  · exact (accept_run _ hserve (List.mem_singleton_self _)).trans (runPush_whole _ hwhole ⟨hproto, hlen, hw⟩)
  · have hcut := runPush_cut hq hj ⟨hproto, hlen, hw⟩
    rw [hloop] at hcut
    exact (accept_run _ hserve (List.mem_singleton_self _)).trans hcut
  · exact (step_resumes hin (resume_pushing rfl rfl hop)).trans (runPush_whole op rfl ⟨hproto, hlen, hw⟩)

/-! ### A turn of `DEC_CLEAR` and of `ENC_CLEAR` (42_decoder_base R207, 43_encoder_base R248)

Both clears release slots up to a snapshot `v`, one a step, and answer where `read_pos` is `v`. `rel` is the release of one
slot on the instance. -/

/-- `j` releases move `read_pos` by `j` and take `j` off the notifier. -/
theorem released_iterate {b : Base} (hr : b.ring.readPos < b.straps.n) (j : Nat) :
    released^[j] b = { b with ring := { b.ring with
      readPos := (b.ring.readPos + j) % b.straps.n
      notifyCount := if b.straps.hasNotifier then b.ring.notifyCount - j else b.ring.notifyCount } } := by
  induction j with
  | zero => simp [Nat.mod_eq_of_lt hr]
  | succ j ih =>
    rw [Function.iterate_succ_apply', ih]
    simp only [released, ringNext, Nat.mod_add_mod, Nat.add_assoc]
    split
    · rw [Nat.sub_sub]
    · rfl

/-- All slots up to a snapshot released: `read_pos` is the snapshot. -/
theorem released_iterate_all {b : Base} {v : Nat} (hr : b.ring.readPos < b.straps.n) (hv : v < b.straps.n) :
    released^[ringSize b.straps.n b.ring.readPos v] b = { b with ring := { b.ring with
      readPos := v
      notifyCount :=
        if b.straps.hasNotifier then b.ring.notifyCount - ringSize b.straps.n b.ring.readPos v
        else b.ring.notifyCount } } := by
  rw [released_iterate hr, add_ringSize_mod hr hv]

section
variable {ω α : Type} {base : α → Base} {rel : α → α} {atom : ω → α → Except Fault (α × Progress ω)} {op : ω}
  {r : Response} {v : Nat}

/-- `j` steps of a clear, with that many slots up to its snapshot, release `j` slots. -/
theorem drive_releases (hatom : ∀ a, atom op a =
      if (base a).ring.readPos = v then .ok (a, .done r) else .ok (rel a, .more op))
    (hrel : ∀ a, base (rel a) = released (base a)) {j : Nat} {a : α} (hr : (base a).ring.readPos < (base a).straps.n)
    (hv : v < (base a).straps.n) (hj : j ≤ ringSize (base a).straps.n (base a).ring.readPos v) :
    drive atom j op a = .ok (rel^[j] a, .more op) := by
  induction j generalizing a with
  | zero => rfl
  | succ j ih =>
    have hne : (base a).ring.readPos ≠ v := fun he => by
      rw [(ringSize_eq_zero hr).2 he] at hj
      exact absurd hj (Nat.not_succ_le_zero j)
    have hsize := ringSize_next_read hr hv hne
    rw [drive, hatom, if_neg hne, Function.iterate_succ_apply]
    apply ih <;> rw [hrel]
    · exact ringNext_lt hr
    · exact hv
    · rw [released_straps, released_readPos]
      omega

/-- A clear that has its whole turn releases every slot up to its snapshot, and answers. -/
theorem drive_releases_all (hatom : ∀ a, atom op a =
      if (base a).ring.readPos = v then .ok (a, .done r) else .ok (rel a, .more op))
    (hrel : ∀ a, base (rel a) = released (base a)) {a : α} (hr : (base a).ring.readPos < (base a).straps.n)
    (hv : v < (base a).straps.n) :
    drive atom ((base a).straps.n + 1) op a =
      .ok (rel^[ringSize (base a).straps.n (base a).ring.readPos v] a, .done r) := by
  have hiter (j : Nat) : base (rel^[j] a) = released^[j] (base a) := (Function.Semiconj.iterate_right hrel j).eq a
  have hend : (base (rel^[ringSize (base a).straps.n (base a).ring.readPos v] a)).ring.readPos = v := by
    rw [hiter, released_iterate hr]
    exact add_ringSize_mod hr hv
  obtain ⟨m, hm⟩ := Nat.exists_eq_add_of_lt (ringSize_lt hr hv)
  have hsteps : (base a).straps.n + 1 = ringSize (base a).straps.n (base a).ring.readPos v + (m + 1 + 1) := by omega
  rw [hsteps, drive_add, drive_releases hatom hrel hr hv le_rfl]
  simp only [drive, hatom, hend, if_true]

end

/-- One slot of a decoder released by a `DEC_CLEAR`. -/
def DecInst.release (d : DecInst) : DecInst := { d with base := released d.base }

/-- One slot of an encoder released by an `ENC_CLEAR`, which has cleared `front_off` before. -/
def EncInst.release (e : EncInst) : EncInst := { e with base := released e.base }

theorem DecInst.release_iterate (d : DecInst) (j : Nat) :
    DecInst.release^[j] d = { d with base := released^[j] d.base } := by
  induction j with
  | zero => rfl
  | succ j ih => rw [Function.iterate_succ_apply', ih, Function.iterate_succ_apply']; rfl

theorem EncInst.release_iterate (e : EncInst) (j : Nat) :
    EncInst.release^[j] e = { e with base := released^[j] e.base } := by
  induction j with
  | zero => rfl
  | succ j ih => rw [Function.iterate_succ_apply', ih, Function.iterate_succ_apply']; rfl

/-! The four turns: `j` slots released and the snapshot kept, or all of them and the answer. -/

theorem runDecClear_cut {s : State} {j v : Nat} (hq : s.sel.quantum = some j)
    (hr : s.dec.base.ring.readPos < s.dec.base.straps.n) (hv : v < s.dec.base.straps.n)
    (hj : j ≤ ringSize s.dec.base.straps.n s.dec.base.ring.readPos v) :
    runDecClear s v = .next { s with dec := { s.dec with base := released^[j] s.dec.base, clearing := some v } } := by
  rw [runDecClear, turnSteps, hq, Option.getD_some,
    drive_releases (base := DecInst.base) (rel := DecInst.release) (fun _ => rfl) (fun _ => rfl) hr hv hj,
    DecInst.release_iterate]
  rfl

theorem runDecClear_whole {s : State} {v : Nat} (hw : WholeTurn s)
    (hr : s.dec.base.ring.readPos < s.dec.base.straps.n) (hv : v < s.dec.base.straps.n) :
    runDecClear s v = .next (State.answer
      { s with dec := { s.dec with
          base := released^[ringSize s.dec.base.straps.n s.dec.base.ring.readPos v] s.dec.base
          clearing := none } } (okay [])) := by
  rw [runDecClear, turnSteps, show s.sel.quantum = none from hw, Option.getD_none,
    drive_releases_all (base := DecInst.base) (rel := DecInst.release) (fun _ => rfl) (fun _ => rfl) hr hv,
    DecInst.release_iterate]
  rfl

theorem runPull_clear_cut {s : State} {j v : Nat} (hq : s.sel.quantum = some j)
    (hr : s.enc.base.ring.readPos < s.enc.base.straps.n) (hv : v < s.enc.base.straps.n)
    (hj : j ≤ ringSize s.enc.base.straps.n s.enc.base.ring.readPos v) :
    runPull s (.clear v) = .next
      { s with enc := { s.enc with base := released^[j] s.enc.base, pulling := some (.clear v) } } := by
  rw [runPull, turnSteps, hq, Option.getD_some,
    drive_releases (base := EncInst.base) (rel := EncInst.release) (fun _ => rfl) (fun _ => rfl) hr hv hj,
    EncInst.release_iterate]
  rfl

theorem runPull_clear_whole {s : State} {v : Nat} (hw : WholeTurn s)
    (hr : s.enc.base.ring.readPos < s.enc.base.straps.n) (hv : v < s.enc.base.straps.n) :
    runPull s (.clear v) = .next (State.answer
      { s with enc := { s.enc with
          base := released^[ringSize s.enc.base.straps.n s.enc.base.ring.readPos v] s.enc.base
          pulling := none } } (okay [])) := by
  rw [runPull, turnSteps, show s.sel.quantum = none from hw, Option.getD_none,
    drive_releases_all (base := EncInst.base) (rel := EncInst.release) (fun _ => rfl) (fun _ => rfl) hr hv,
    EncInst.release_iterate]
  rfl

theorem resume_clearing {s : State} {w : Nat} (hk : s.sel.kind = .dec) (hq : s.sel.port = .c)
    (hop : s.dec.clearing = some w) : resume s = some (runDecClear s w) := by
  simp only [resume, hk, hq, hop, Option.map_some]

theorem resume_pulling {s : State} {op : PullOp} (hk : s.sel.kind = .enc) (hq : s.sel.port = .c)
    (hop : s.enc.pulling = some op) : resume s = some (runPull s op) := by
  simp only [resume, hk, hq, hop, Option.map_some]

/-- Settles O28: the turn that is cut off releases `j` slots, and the one that is not all up to the snapshot. -/
theorem decClearInTurns : Obligations.DecClearInTurns := by
  refine ⟨fun s j hserve hq hr hw hj => ?_, fun s rest v hin hop hr hv => ?_⟩
  · rw [← released_iterate hr]
    exact (accept_run _ hserve (List.mem_singleton_self _)).trans (runDecClear_cut hq hr hw hj)
  · rw [← released_iterate_all hr hv]
    exact (step_resumes hin (resume_clearing rfl rfl hop)).trans (runDecClear_whole rfl hr hv)

/-- Settles O49: as `decClearInTurns`, on the encoder with `front_off` cleared. -/
theorem encClear : Obligations.EncClear := by
  refine ⟨fun s hserve hr hw => ⟨fun hwhole => ?_, fun j hq hj => ?_⟩, fun s rest v hin hop hr hv => ?_⟩
  · rw [queueSize, ← released_iterate_all hr hw]
    exact (accept_run _ hserve (List.mem_singleton_self _)).trans
      (runPull_clear_whole (s := { s with enc := { s.enc with frontOff := 0 } }) hwhole hr hw)
  · rw [← released_iterate hr]
    exact (accept_run _ hserve (List.mem_singleton_self _)).trans
      (runPull_clear_cut (s := { s with enc := { s.enc with frontOff := 0 } }) hq hr hw hj)
  · rw [← released_iterate_all hr hv]
    exact (step_resumes hin (resume_pulling rfl rfl hop)).trans (runPull_clear_whole rfl hr hv)

/-! ### A turn of a stream `ENC_MOVE` (43_encoder_base R244) -/

/-- `n` pending bytes were acknowledged: the invariant without the operation in progress is kept, and nothing changed but
`read_pos`, the notifier and `front_off`. -/
def FrontMoved (n : Nat) (e e' : EncInst) : Prop :=
  EncBody e' ∧ pendingStream e' = (pendingStream e).drop n ∧
  e' = { e with
    base := { e.base with ring := { e.base.ring with
      readPos := e'.base.ring.readPos, notifyCount := e'.base.ring.notifyCount } }
    frontOff := e'.frontOff }

section
variable {e e' e'' : EncInst}

theorem FrontMoved.refl (h : EncBody e) : FrontMoved 0 e e := ⟨h, rfl, rfl⟩

theorem FrontMoved.trans {m n : Nat} (h : FrontMoved m e e') (k : FrontMoved n e' e'') : FrontMoved (m + n) e e'' := by
  obtain ⟨-, hpend, heq⟩ := h
  obtain ⟨hbody, hpend', heq'⟩ := k
  refine ⟨hbody, by rw [hpend', hpend, List.drop_drop], ?_⟩
  rw [heq] at heq'
  exact heq'

theorem FrontMoved.body {n : Nat} (h : FrontMoved n e e') : EncBody e' := h.1

/-- The bytes still pending. -/
theorem FrontMoved.length {n : Nat} (h : FrontMoved n e e') :
    (pendingStream e').length = (pendingStream e).length - n := by
  obtain ⟨-, hpend, -⟩ := h
  rw [hpend, List.length_drop]

theorem FrontMoved.straps {n : Nat} (h : FrontMoved n e e') : e'.base.straps = e.base.straps := by
  obtain ⟨-, -, heq⟩ := h
  rw [heq]

/-- With what the move still has to acknowledge as the operation in progress, or none, this is `Acknowledged`. -/
theorem FrontMoved.acknowledged {n : Nat} {x : Option PullOp} (h : FrontMoved n e e') (he : EncOk e)
    (hc : e.base.configured = true) (hx : ∀ op, x = some op → PullOk e' op) :
    Acknowledged n e { e' with pulling := x } := by
  obtain ⟨hbody, hpend, heq⟩ := h
  have hbase : e'.base.straps = e.base.straps ∧ e'.base.configured = e.base.configured := by
    rw [heq]
    exact ⟨rfl, rfl⟩
  obtain ⟨hst, hcfg⟩ := hbase
  obtain ⟨⟨-, -, hnotify⟩, -⟩ := id hbody
  refine ⟨?_, hpend, ?_⟩
  · refine EncBody.ok (hbody.congr rfl rfl rfl rfl) ?_ (hcfg.trans hc) fun op hop => ?_
    · show e'.base.configured = strapsLegal e'.base.straps
      rw [hcfg, hst]
      exact he.1
    · cases op <;> exact hx _ hop
  · rw [hst] at hnotify
    show ({ e' with pulling := x } : EncInst) = _
    rw [← hnotify]
    conv_lhs => rw [heq]

/-- One step of a move that has bytes to acknowledge: part of the front slot, which ends the move, or all that is left of
it, which releases the slot. -/
theorem pullAtom_move {rem : Nat} (h : EncBody e) (hd : isDatagram e.base.straps = false)
    (hle : rem ≤ (pendingStream e).length) (hrem : rem ≠ 0) :
    ∃ e' rem', pullAtom (.move rem) e = .ok (e', .more (.move rem')) ∧ rem' ≤ rem ∧ FrontMoved (rem - rem') e e' ∧
      (0 < rem' → queueSize e'.base + 1 = queueSize e.base) := by
  have hne : isEmpty e.base = false :=
    pullOk_not_empty h ((pullOk_move h hd).2 hle) nofun fun hmove => hrem (PullOp.move.inj hmove)
  obtain ⟨sl, hsl, -, hoff, -⟩ := h.front hne
  by_cases hpart : rem < sl.size - e.frontOff
  · have hatom : pullAtom (.move rem) e = .ok ({ e with frontOff := e.frontOff + rem }, .more (.move 0)) := by
      simp only [pullAtom, hrem, if_false, slotAt_ok.2 hsl, hpart, if_true]
    refine ⟨_, 0, hatom, Nat.zero_le _, ⟨?_, (List.drop_drop ..).symm, rfl⟩, nofun⟩
    rcases pullAtom_ok h ((pullOk_move h hd).2 hle) with hdone | ⟨e', op', hmore, hbody, -⟩
    · simp [hatom] at hdone
    · rw [hatom] at hmore; cases hmore; exact hbody
  · have hatom : pullAtom (.move rem) e = .ok ({ e with base := released e.base, frontOff := 0 },
        .more (.move (rem - (sl.size - e.frontOff)))) := by
      simp only [pullAtom, hrem, if_false, slotAt_ok.2 hsl, hpart]
    refine ⟨_, _, hatom, Nat.sub_le _ _, ⟨h.release hne, ?_, rfl⟩, fun _ => queueSize_released h.1 hne⟩
    rw [Nat.sub_sub_self (Nat.not_lt.1 hpart)]
    exact (h.pending_release hne hsl).symm

/-- Where `k` steps of a move of `rem` bytes stand: `rem'` bytes are left, in which case each step has released a slot, or
the move has answered. -/
def MoveStands (k rem : Nat) (e : EncInst) (r : Except Fault (EncInst × Progress PullOp)) : Prop :=
  ∃ e' rem' pr, r = .ok (e', pr) ∧ rem' ≤ rem ∧ FrontMoved (rem - rem') e e' ∧
    (0 < rem' → queueSize e'.base + k = queueSize e.base) ∧
    (pr = .more (.move rem') ∨ rem' = 0 ∧ pr = .done (okay []))

theorem drive_move {rem : Nat} (k : Nat) (h : EncBody e) (hd : isDatagram e.base.straps = false)
    (hle : rem ≤ (pendingStream e).length) : MoveStands k rem e (drive pullAtom k (.move rem) e) := by
  induction k generalizing e rem with
  | zero => exact ⟨e, rem, _, rfl, le_rfl, by rw [Nat.sub_self]; exact .refl h, fun _ => rfl, .inl rfl⟩
  | succ k ih =>
    by_cases hrem : rem = 0
    · subst hrem
      exact ⟨e, 0, _, rfl, le_rfl, .refl h, nofun, .inr ⟨rfl, rfl⟩⟩
    · obtain ⟨e1, rem1, hatom, hle1, hmoved, hsize⟩ := pullAtom_move h hd hle hrem
      have hpend : rem1 ≤ (pendingStream e1).length := by
        rw [hmoved.length]
        omega
      obtain ⟨e', rem', pr, hdrive, hle', hmoved', hsize', hpr⟩ := ih hmoved.body (by rw [hmoved.straps]; exact hd) hpend
      refine ⟨e', rem', pr, by rw [drive, hatom]; exact hdrive, hle'.trans hle1, ?_, fun hpos => ?_, hpr⟩
      · have hsum : rem - rem' = rem - rem1 + (rem1 - rem') := by omega
        rw [hsum]
        exact hmoved.trans hmoved'
      · have := hsize (hpos.trans_le hle')
        have := hsize' hpos
        omega

/-- `N + 1` steps end a move: `N` leave no byte, since no more than `N - 1` slots are queued, and one answers. -/
theorem drive_move_whole {rem : Nat} (h : EncBody e) (hd : isDatagram e.base.straps = false)
    (hle : rem ≤ (pendingStream e).length) :
    ∃ e', drive pullAtom (e.base.straps.n + 1) (.move rem) e = .ok (e', .done (okay [])) ∧ FrontMoved rem e e' := by
  obtain ⟨e', rem', pr, hdrive, -, hmoved, hsize, hpr⟩ := drive_move e.base.straps.n h hd hle
  obtain ⟨⟨hr, hw, -⟩, -⟩ := h
  have hlt : queueSize e.base < e.base.straps.n := ringSize_lt hr hw
  obtain rfl : rem' = 0 := by
    by_contra hne
    have := hsize (Nat.pos_of_ne_zero hne)
    omega
  refine ⟨e', ?_, hmoved⟩
  rw [drive_add, hdrive]
  rcases hpr with rfl | ⟨-, rfl⟩
  · simp only [drive, pullAtom, if_true]
  · rfl

end

section
variable {s : State} {rem : Nat}

/-- A move whose turn lasts to its end acknowledges all its bytes and answers. -/
theorem runPull_move_whole (hw : WholeTurn s) (he : EncOk s.enc) (hc : s.enc.base.configured = true)
    (hd : isDatagram s.enc.base.straps = false) (hle : rem ≤ (pendingStream s.enc).length) :
    ∃ e, Acknowledged rem s.enc e ∧ e.pulling = none ∧
      runPull s (.move rem) = .next (State.answer { s with enc := e } (okay [])) := by
  obtain ⟨hbody, -⟩ := he.body hc
  obtain ⟨e, hdrive, hmoved⟩ := drive_move_whole hbody hd hle
  refine ⟨_, hmoved.acknowledged (x := none) he hc nofun, rfl, ?_⟩
  rw [runPull, turnSteps, show s.sel.quantum = none from hw, Option.getD_none, hdrive]
  rfl

/-- A move whose turn ends after `j` steps keeps what it has left to acknowledge, or has answered. -/
theorem runPull_move_cut {j : Nat} (hq : s.sel.quantum = some j) (he : EncOk s.enc)
    (hc : s.enc.base.configured = true) (hd : isDatagram s.enc.base.straps = false)
    (hle : rem ≤ (pendingStream s.enc).length) :
    ∃ e rem', rem' ≤ rem ∧ Acknowledged (rem - rem') s.enc e ∧
      (0 < rem' → queueSize e.base + j = queueSize s.enc.base) ∧
      ((e.pulling = some (.move rem') ∧ runPull s (.move rem) = .next { s with enc := e }) ∨
        (rem' = 0 ∧ e.pulling = none ∧
          runPull s (.move rem) = .next (State.answer { s with enc := e } (okay [])))) := by
  obtain ⟨hbody, -⟩ := he.body hc
  obtain ⟨e, rem', pr, hdrive, hle', hmoved, hsize, hpr⟩ := drive_move j hbody hd hle
  have hrun : runPull s (.move rem) = finishPull s (.ok (e, pr)) := by
    rw [runPull, turnSteps, hq, Option.getD_some, hdrive]
  rcases hpr with rfl | ⟨rfl, rfl⟩
  · have hpull : PullOk e (.move rem') := by
      refine (pullOk_move hmoved.body (by rw [hmoved.straps]; exact hd)).2 ?_
      rw [hmoved.length]
      omega
    have hack : Acknowledged (rem - rem') s.enc { e with pulling := some (.move rem') } :=
      hmoved.acknowledged he hc fun op hop => by cases hop; exact hpull
    exact ⟨_, rem', hle', hack, hsize, .inl ⟨rfl, hrun⟩⟩
  · exact ⟨_, 0, hle', hmoved.acknowledged (x := none) he hc nofun, hsize, .inr ⟨rfl, rfl, hrun⟩⟩

/-- A stream `ENC_MOVE` is checked against what is pending (43_encoder_base R244). -/
theorem exec_encMove_stream {len : U32} (h : EncBody s.enc) (hserve : Serves s .enc .c)
    (hd : isDatagram s.enc.base.straps = false) : exec (.encMove len) s =
      if (pendingStream s.enc).length < len.toNat then .next (s.answer (bare .badLen))
      else runPull s (.move len.toNat) := by
  obtain ⟨queue, hqueue, -⟩ := h.queue
  refine (accept_run _ hserve (List.mem_singleton_self _)).trans ?_
  simp only [hd, Bool.false_eq_true, if_false, encMoveStream, hqueue, pendingBytes_eq hqueue]

end

/-- Settles O47: by the check of `exec_encMove_stream` and the steps of `drive_move`. -/
theorem encMoveStream_acknowledges : Obligations.EncMoveStream := by
  refine ⟨fun s len he hserve hproto => ?_, fun s rest rem he hc hin hop => ?_⟩
  · have hd : isDatagram s.enc.base.straps = false := by simpa [isDatagram] using hproto
    have hc : s.enc.base.configured = true := hserve.1
    obtain ⟨hbody, -⟩ := he.body hc
    have hrun := exec_encMove_stream (len := len) hbody hserve hd
    refine ⟨fun hlt => by rw [hrun, if_pos hlt]; rfl, fun hle hw => ?_, fun j hle hq => ?_⟩
    · rw [hrun, if_neg (Nat.not_lt.2 hle)]
      exact runPull_move_whole hw he hc hd hle
    · rw [hrun, if_neg (Nat.not_lt.2 hle)]
      exact runPull_move_cut hq he hc hd hle
  · obtain ⟨hbody, hpull⟩ := he.body hc
    have hmove := hpull _ hop
    obtain ⟨hd, -⟩ := id hmove
    rw [step_resumes hin (resume_pulling rfl rfl hop)]
    exact runPull_move_whole (s := beginTurn s .enc .c none rest) rfl he hc hd ((pullOk_move hbody hd).1 hmove)

/-! ### Which slots a turn leaves alone (20_memory R61, R70) -/

/-- The slots of a general ring that port `q` must not change: the committed ones for `P`, the others for `C`. -/
def ElemBarred (q : PortId) (b : Base) (i : Nat) : Prop := q = .p ↔ Committed b i

/-- The Slot Buffers of a ring that port `q` must not change: the committed ones for `P`, all for `C`. -/
def BufferBarred (q : PortId) (b : Base) (i : Nat) : Prop := q = .p → Committed b i

/-- The barred slots are the same afterwards. -/
def SlotsKept {α : Type} (barred : Nat → Prop) (slots slots' : List α) : Prop :=
  ∀ i, barred i → slots'[i]? = slots[i]?

theorem SlotsKept.refl {α : Type} (barred : Nat → Prop) (slots : List α) : SlotsKept barred slots slots :=
  fun _ _ => rfl

theorem SlotsKept.of_eq {α : Type} {barred : Nat → Prop} {slots slots' : List α} (h : slots' = slots) :
    SlotsKept barred slots slots' := by
  rw [h]
  exact .refl _ _

theorem SlotsKept.set {α : Type} {barred : Nat → Prop} (slots : List α) {k : Nat} (x : α) (h : ¬barred k) :
    SlotsKept barred slots (slots.set k x) :=
  fun _ hi => List.getElem?_set_ne (by rintro rfl; exact h hi)

theorem RingOk.writePos_not_committed {b : Base} (h : RingOk b) : ¬Committed b b.ring.writePos := by
  obtain ⟨hr, hw, -⟩ := h
  exact writePos_not_queued hr hw

theorem RingOk.readPos_committed {b : Base} (h : RingOk b) (he : isEmpty b = false) : Committed b b.ring.readPos := by
  obtain ⟨hr, hw, -⟩ := h
  unfold Committed
  rw [queuedIdx_released hr hw (ringIsEmpty_false.1 he)]
  exact List.mem_cons_self

/-! Operations on an instance. -/

section
variable {i i' : RgInst} {r : Response}

theorem rgPush_slotsKept {v : Nat} (hr : RingOk i.base) (h : rgPush i v = .ok (i', r)) :
    SlotsKept (ElemBarred .p i.base) i.slots i'.slots := by
  unfold rgPush at h
  split at h
  · cases h; exact .refl _ _
  · split at h
    · cases h; exact .refl _ _
    · split at h <;> cases h
      exact .set _ _ fun hbar => hr.writePos_not_committed (hbar.1 rfl)

theorem rgPop_slotsKept (hr : RingOk i.base) (h : rgPop i = .ok (i', r)) :
    SlotsKept (ElemBarred .c i.base) i.slots i'.slots := by
  unfold rgPop at h
  split at h
  · cases h; exact .refl _ _
  · next he =>
    split at h <;> cases h
    exact .set _ _ fun hbar => nomatch hbar.2 (hr.readPos_committed (by simpa using he))

theorem rgFront_slots (h : rgFront i = .ok (i', r)) : i'.slots = i.slots := by
  unfold rgFront at h
  split at h
  · cases h; rfl
  · split at h <;> cases h; rfl

end

section
variable {i i' : PoolInst} {r : Response}

theorem poolPush_slots (h : poolPush i = .ok (i', r)) : i'.slots = i.slots := by
  unfold poolPush at h
  split at h <;> cases h <;> rfl

theorem poolPop_slots (h : poolPop i = .ok (i', r)) : i'.slots = i.slots := by
  unfold poolPop at h
  split at h <;> cases h <;> rfl

theorem poolFront_slots (h : poolFront i = .ok (i', r)) : i'.slots = i.slots := by
  unfold poolFront at h
  split at h
  · cases h; rfl
  · split at h <;> cases h; rfl

theorem poolSize_slots (h : poolSize i = .ok (i', r)) : i'.slots = i.slots := by
  unfold poolSize at h
  split at h <;> cases h
  rfl

theorem setPoolCur_slotsKept (sl : Slot) (hr : RingOk i.base) :
    SlotsKept (BufferBarred .p i.base) i.slots (setPoolCur i sl).slots :=
  .set _ _ fun hbar => hr.writePos_not_committed (hbar rfl)

theorem poolZero_slotsKept (hr : RingOk i.base) (h : poolZero i = .ok (i', r)) :
    SlotsKept (BufferBarred .p i.base) i.slots i'.slots := by
  unfold poolZero at h
  split at h <;> cases h
  exact setPoolCur_slotsKept _ hr

theorem poolAppend_slotsKept {b : Byte} (hr : RingOk i.base) (h : poolAppend i b = .ok (i', r)) :
    SlotsKept (BufferBarred .p i.base) i.slots i'.slots := by
  unfold poolAppend at h
  split at h
  · cases h
  · split at h <;> cases h
    · exact .refl _ _
    · exact setPoolCur_slotsKept _ hr

theorem poolAlloc_slotsKept {fill n : Nat} (hr : RingOk i.base) (h : poolAlloc fill i n = .ok (i', r)) :
    SlotsKept (BufferBarred .p i.base) i.slots i'.slots := by
  unfold poolAlloc at h
  split at h
  · cases h
  · split at h <;> cases h
    · exact .refl _ _
    · exact setPoolCur_slotsKept _ hr

end

section
variable {d d' : DecInst} {r : Response}

theorem decPop_slots (h : decPop d = .ok (d', r)) : d'.slots = d.slots := by
  unfold decPop at h
  split at h
  · cases h; rfl
  · split at h <;> cases h; rfl

theorem decPeek_slots (h : decPeek d = .ok (d', r)) : d'.slots = d.slots := by
  unfold decPeek at h
  split at h
  · cases h; rfl
  · split at h <;> cases h; rfl

theorem decClearAtom_slots (w : Nat) (d d' : DecInst) (pr : Progress Nat) (h : decClearAtom w d = .ok (d', pr)) :
    d'.slots = d.slots := by
  unfold decClearAtom at h
  split at h <;> cases h <;> rfl

/-- The committed slots of a decoder stay committed and the same: what a push does, step after step. -/
def CommittedKept (d d' : DecInst) : Prop :=
  RingOk d.base → RingOk d'.base ∧ ∀ i, Committed d.base i → Committed d'.base i ∧ d'.slots[i]? = d.slots[i]?

theorem CommittedKept.refl (d : DecInst) : CommittedKept d d := fun hr => ⟨hr, fun _ hi => ⟨hi, rfl⟩⟩

theorem CommittedKept.trans (d e f : DecInst) (h : CommittedKept d e) (k : CommittedKept e f) : CommittedKept d f := by
  intro hr
  obtain ⟨hr', hslots⟩ := h hr
  obtain ⟨hr'', hslots'⟩ := k hr'
  refine ⟨hr'', fun i hi => ?_⟩
  obtain ⟨hi', heq⟩ := hslots i hi
  obtain ⟨hi'', heq'⟩ := hslots' i hi'
  exact ⟨hi'', heq'.trans heq⟩

/-- A fed byte or a datagram writes the current slot, and commits at most that one. -/
theorem FeedFrame.committedKept {f : DecInst × FrameEvent} (h : FeedFrame d f) : CommittedKept d f.1 := by
  intro hr
  have hslots (i : Nat) (hi : Committed d.base i) : f.1.slots[i]? = d.slots[i]? :=
    h.slots fun he => hr.writePos_not_committed (he ▸ hi)
  obtain ⟨hbase, hfull, -⟩ := h
  by_cases hev : f.2 = .committed
  · rw [if_pos hev] at hbase
    rw [hbase]
    exact ⟨hr.published (hfull hev), fun i hi => ⟨(Committed.published_iff hr (hfull hev)).2 (.inl hi), hslots i hi⟩⟩
  · rw [if_neg hev] at hbase
    rw [hbase]
    exact ⟨hr, fun i hi => ⟨hi, hslots i hi⟩⟩

theorem pushAtom_committedKept (op : PushOp) (d d' : DecInst) (pr : Progress PushOp)
    (h : pushAtom op d = .ok (d', pr)) : CommittedKept d d' := by
  rcases pushAtom_cases h with rfl | ⟨ev, hframe, -⟩
  · exact .refl d'
  · exact hframe.committedKept

end

section
variable {e e' : EncInst} {r : Response}

theorem encPush_slotsKept {msg : List Byte} (hr : RingOk e.base) (h : encPush e msg = .ok (e', r)) :
    SlotsKept (BufferBarred .p e.base) e.slots e'.slots := by
  unfold encPush at h
  repeat' split at h
  all_goals cases h
  · exact .refl _ _
  · exact .refl _ _
  · exact .refl _ _
  · exact .set _ _ fun hbar => hr.writePos_not_committed (hbar rfl)

theorem encFill_slots {n : Nat} (h : encFill e n = .ok (e', r)) : e'.slots = e.slots := by
  unfold encFill at h
  repeat' split at h
  all_goals cases h
  all_goals rfl

theorem encMoveDatagram_slots {n : Nat} (h : encMoveDatagram e n = .ok (e', r)) : e'.slots = e.slots := by
  unfold encMoveDatagram at h
  repeat' split at h
  all_goals cases h
  all_goals rfl

theorem encGather_slots (h : encGather e = .ok (e', r)) : e'.slots = e.slots := by
  unfold encGather at h
  split at h <;> cases h
  rfl

theorem pullAtom_slots (op : PullOp) (e e' : EncInst) (pr : Progress PullOp) (h : pullAtom op e = .ok (e', pr)) :
    e'.slots = e.slots := by
  cases op with
  | clear w =>
    simp only [pullAtom] at h
    split at h <;> cases h <;> rfl
  | move rem =>
    simp only [pullAtom] at h
    repeat' split at h
    all_goals cases h
    all_goals rfl

end

/-! A turn. -/

/-- A turn from `s` to `t` changes no slot that the port served must not change, of any instance. -/
def TurnAccess (s t : State) : Prop :=
  SlotsKept (ElemBarred s.sel.port s.rg.base) s.rg.slots t.rg.slots ∧
  SlotsKept (BufferBarred s.sel.port s.pool.base) s.pool.slots t.pool.slots ∧
  SlotsKept (BufferBarred s.sel.port s.dec.base) s.dec.slots t.dec.slots ∧
  SlotsKept (BufferBarred s.sel.port s.enc.base) s.enc.slots t.enc.slots

theorem setPort_slots (s : State) (k : Kind) (q : PortId) (x : Port) :
    (s.setPort k q x).rg.slots = s.rg.slots ∧ (s.setPort k q x).pool.slots = s.pool.slots ∧
      (s.setPort k q x).dec.slots = s.dec.slots ∧ (s.setPort k q x).enc.slots = s.enc.slots := by
  cases k <;> exact ⟨rfl, rfl, rfl, rfl⟩

theorem samePorted_setPort (s : State) (k : Kind) (q : PortId) (x : Port) (j : Kind) :
    SamePorted (s.base j) ((s.setPort k q x).base j) := by
  by_cases hj : j = k
  · subst hj
    rw [State.setPort, base_setBase]
    exact samePorted_setBasePort _ _ _
  · rw [State.setPort, base_setBase_ne _ _ hj]
    exact ⟨rfl, rfl, rfl⟩

section
variable {s t : State}

theorem TurnAccess.refl (s : State) : TurnAccess s s := ⟨.refl _ _, .refl _ _, .refl _ _, .refl _ _⟩

theorem TurnAccess.setPort (h : TurnAccess s t) (k : Kind) (q : PortId) (x : Port) : TurnAccess s (t.setPort k q x) := by
  obtain ⟨hrg, hpool, hdec, henc⟩ := setPort_slots t k q x
  unfold TurnAccess
  rw [hrg, hpool, hdec, henc]
  exact h

theorem TurnAccess.answer (h : TurnAccess s t) (r : Response) : TurnAccess s (t.answer r) := h.setPort _ _ _

/-- The bytes taken are the port's: no slot, and nothing that tells which are committed. -/
theorem TurnAccess.of_taken {bytes : List Byte} (h : TurnAccess (setServedRx s bytes) t) : TurnAccess s t := by
  have hcomm (k : Kind) (i : Nat) : Committed ((setServedRx s bytes).base k) i ↔ Committed (s.base k) i :=
    Committed.ported (samePorted_setPort s _ _ _ k)
  obtain ⟨hrg, hpool, hdec, henc⟩ : (setServedRx s bytes).rg.slots = s.rg.slots ∧
      (setServedRx s bytes).pool.slots = s.pool.slots ∧ (setServedRx s bytes).dec.slots = s.dec.slots ∧
      (setServedRx s bytes).enc.slots = s.enc.slots := setPort_slots s _ _ _
  unfold TurnAccess SlotsKept ElemBarred BufferBarred at h ⊢
  simpa only [← base_rg, ← base_pool, ← base_dec, ← base_enc, hcomm, hrg, hpool, hdec, henc, setServedRx_sel] using h

theorem finishRg_access {q : PortId} {x : Except Fault (RgInst × Response)} (hq : s.sel.port = q)
    (hx : ∀ i r, x = .ok (i, r) → SlotsKept (ElemBarred q s.rg.base) s.rg.slots i.slots)
    (h : finishRg s x = .next t) : TurnAccess s t := by
  subst hq
  rcases x with f | ⟨i, r⟩ <;> cases h
  have hacc : TurnAccess s { s with rg := i } := ⟨hx i r rfl, .refl _ _, .refl _ _, .refl _ _⟩
  exact hacc.answer r

theorem finishPool_access {q : PortId} {x : Except Fault (PoolInst × Response)} (hq : s.sel.port = q)
    (hx : ∀ i r, x = .ok (i, r) → SlotsKept (BufferBarred q s.pool.base) s.pool.slots i.slots)
    (h : finishPool s x = .next t) : TurnAccess s t := by
  subst hq
  rcases x with f | ⟨i, r⟩ <;> cases h
  have hacc : TurnAccess s { s with pool := i } := ⟨.refl _ _, hx i r rfl, .refl _ _, .refl _ _⟩
  exact hacc.answer r

/-- The counter of free values is no slot. -/
theorem countAlloc_access {q : PortId} {x y : Except Fault (PoolInst × Response)} (hq : s.sel.port = q)
    (hx : ∀ i r, x = .ok (i, r) → SlotsKept (BufferBarred q s.pool.base) s.pool.slots i.slots)
    (h : finishPool (countAlloc s y) x = .next t) : TurnAccess s t := by
  unfold countAlloc at h
  split at h
  · exact finishPool_access (s := { s with freeIdx := s.freeIdx + 1 }) hq hx h
  · exact finishPool_access hq hx h

theorem finishDec_access {x : Except Fault (DecInst × Response)}
    (hx : ∀ d r, x = .ok (d, r) → d.slots = s.dec.slots) (h : finishDec s x = .next t) : TurnAccess s t := by
  rcases x with f | ⟨d, r⟩ <;> cases h
  have hacc : TurnAccess s { s with dec := d } :=
    ⟨.refl _ _, .refl _ _, .of_eq (hx d r rfl), .refl _ _⟩
  exact hacc.answer r

theorem finishEnc_access {q : PortId} {x : Except Fault (EncInst × Response)} (hq : s.sel.port = q)
    (hx : ∀ e r, x = .ok (e, r) → SlotsKept (BufferBarred q s.enc.base) s.enc.slots e.slots)
    (h : finishEnc s x = .next t) : TurnAccess s t := by
  subst hq
  rcases x with f | ⟨e, r⟩ <;> cases h
  have hacc : TurnAccess s { s with enc := e } := ⟨.refl _ _, .refl _ _, .refl _ _, hx e r rfl⟩
  exact hacc.answer r

theorem runPush_access {op : PushOp} (hq : s.sel.port = .p) (hr : RingOk s.dec.base) (h : runPush s op = .next t) :
    TurnAccess s t := by
  unfold runPush at h
  rcases hd : drive pushAtom (turnSteps s (op.rest.length + 1)) op s.dec with f | ⟨d, pr⟩ <;> rw [hd] at h
  · cases h
  · obtain ⟨-, hslots⟩ := drive_rel CommittedKept.refl CommittedKept.trans pushAtom_committedKept hd hr
    have hacc (x : Option PushOp) : TurnAccess s { s with dec := { d with pushing := x } } :=
      ⟨.refl _ _, .refl _ _, fun i hi => (hslots i (hi hq)).2, .refl _ _⟩
    cases pr with
    | more op' => cases h; exact hacc _
    | done r => cases h; exact (hacc none).answer r

theorem runDecClear_access {w : Nat} (h : runDecClear s w = .next t) : TurnAccess s t := by
  unfold runDecClear at h
  rcases hd : drive decClearAtom (turnSteps s (s.dec.base.straps.n + 1)) w s.dec with f | ⟨d, pr⟩ <;> rw [hd] at h
  · cases h
  · have hslots : d.slots = s.dec.slots :=
      drive_rel (R := fun d d' : DecInst => d'.slots = d.slots) (fun _ => rfl) (fun _ _ _ h k => k.trans h)
        decClearAtom_slots hd
    have hacc (x : Option Nat) : TurnAccess s { s with dec := { d with clearing := x } } :=
      ⟨.refl _ _, .refl _ _, .of_eq hslots, .refl _ _⟩
    cases pr with
    | more w' => cases h; exact hacc _
    | done r => cases h; exact (hacc none).answer r

theorem runPull_access {op : PullOp} (h : runPull s op = .next t) : TurnAccess s t := by
  unfold runPull at h
  rcases hd : drive pullAtom (turnSteps s (s.enc.base.straps.n + 1)) op s.enc with f | ⟨e, pr⟩ <;> rw [hd] at h
  · cases h
  · have hslots : e.slots = s.enc.slots :=
      drive_rel (R := fun e e' : EncInst => e'.slots = e.slots) (fun _ => rfl) (fun _ _ _ h k => k.trans h)
        pullAtom_slots hd
    have hacc (x : Option PullOp) : TurnAccess s { s with enc := { e with pulling := x } } :=
      ⟨.refl _ _, .refl _ _, .refl _ _, .of_eq hslots⟩
    cases pr with
    | more op' => cases h; exact hacc _
    | done r => cases h; exact (hacc none).answer r

theorem encMove_access {len : Nat}
    (h : (if isDatagram s.enc.base.straps then finishEnc s (encMoveDatagram s.enc len) else encMoveStream s len) =
      .next t) : TurnAccess s t := by
  split at h
  · exact finishEnc_access rfl (fun _ _ hx => .of_eq (encMoveDatagram_slots hx)) h
  · unfold encMoveStream at h
    split at h
    · cases h
    · split at h
      · cases h; exact (TurnAccess.refl s).answer _
      · exact runPull_access h

theorem accept_access {k : Kind} {ps : List PortId} {o : Host.Outcome State Fault Refusal}
    (h : accept k ps s o = .next t)
    (hrun : (s.base k).configured = true → s.sel.port ∈ ps → o = .next t → TurnAccess s t) : TurnAccess s t := by
  rcases accept_cases k ps s o with ⟨-, ha⟩ | ⟨-, -, ha⟩ | ⟨hc, -, hq, ha⟩ <;> rw [ha] at h
  · cases h; exact (TurnAccess.refl s).answer _
  · cases h; exact (TurnAccess.refl s).answer _
  · exact hrun hc hq h

theorem query_access {k : Kind} {ps : List PortId} {r : Response}
    (h : accept k ps s (.next (s.answer r)) = .next t) : TurnAccess s t :=
  accept_access h fun _ _ ho => by cases ho; exact (TurnAccess.refl s).answer r

theorem exec_access {i : Instr} (hs : StateOk s) (h : exec i s = .next t) : TurnAccess s t := by
  obtain ⟨hrg, hpool, hdec, henc⟩ := hs
  cases i with
  | sbSize => exact accept_access h fun _ _ => finishPool_access rfl fun _ _ hx => .of_eq (poolSize_slots hx)
  | sbZero =>
    exact accept_access h fun hc hq => finishPool_access (List.mem_singleton.1 hq) fun _ _ =>
      poolZero_slotsKept (InstOk.ring hpool hc)
  | sbAppend =>
    exact accept_access h fun hc hq => finishPool_access (List.mem_singleton.1 hq) fun _ _ =>
      poolAppend_slotsKept (InstOk.ring hpool hc)
  | sbAlloc =>
    exact accept_access h fun hc hq => countAlloc_access (List.mem_singleton.1 hq) fun _ _ =>
      poolAlloc_slotsKept (InstOk.ring hpool hc)
  | rgPush =>
    exact accept_access h fun hc hq => finishRg_access (List.mem_singleton.1 hq) fun _ _ =>
      rgPush_slotsKept (InstOk.ring hrg hc)
  | rgPop =>
    exact accept_access h fun hc hq => finishRg_access (List.mem_singleton.1 hq) fun _ _ =>
      rgPop_slotsKept (InstOk.ring hrg hc)
  | rgFront => exact accept_access h fun _ _ => finishRg_access rfl fun _ _ hx => .of_eq (rgFront_slots hx)
  | rpPush => exact accept_access h fun _ _ => finishPool_access rfl fun _ _ hx => .of_eq (poolPush_slots hx)
  | rpPop => exact accept_access h fun _ _ => finishPool_access rfl fun _ _ hx => .of_eq (poolPop_slots hx)
  | rpFront => exact accept_access h fun _ _ => finishPool_access rfl fun _ _ hx => .of_eq (poolFront_slots hx)
  | rgEmpty | rgFull | rgSize | rpEmpty | rpFull | rpSize | decEmpty | decErrcnt | encEmpty => exact query_access h
  | decPush =>
    exact accept_access h fun hc hq => runPush_access (List.mem_singleton.1 hq) (InstOk.ring hdec hc)
  | decPop => exact accept_access h fun _ _ => finishDec_access fun _ _ => decPop_slots
  | decPeek => exact accept_access h fun _ _ => finishDec_access fun _ _ => decPeek_slots
  | decClear => exact accept_access h fun _ _ => runDecClear_access
  | decErrcntRst => exact accept_access h fun _ _ => finishDec_access fun d r he => by cases he; rfl
  | encPush =>
    exact accept_access h fun hc hq => finishEnc_access (List.mem_singleton.1 hq) fun _ _ =>
      encPush_slotsKept (InstOk.ring henc hc)
  | encFill => exact accept_access h fun _ _ => finishEnc_access rfl fun _ _ hx => .of_eq (encFill_slots hx)
  | encMove => exact accept_access h fun _ _ => encMove_access
  | encClear =>
    exact accept_access h fun _ _ => runPull_access (s := { s with enc := { s.enc with frontOff := 0 } })
  | encGather => exact accept_access h fun _ _ => finishEnc_access rfl fun _ _ hx => .of_eq (encGather_slots hx)

theorem resume_access (hs : StateOk s) (h : resume s = some (.next t)) : TurnAccess s t := by
  obtain ⟨-, -, hdec, -⟩ := hs
  rcases resume_some_cases h with ⟨-, hq, op, hop, hrun⟩ | ⟨-, -, w, -, hrun⟩ | ⟨-, -, op, -, hrun⟩
  · exact runPush_access hq (InstOk.ring hdec (hdec.configured_of_busy (.inl (by simp [hop])))) hrun
  · exact runDecClear_access hrun
  · exact runPull_access hrun

theorem turn_access (hs : StateOk s) (h : turn s = .next t) : TurnAccess s t := by
  rcases turn_cases s with ⟨o, hr, ht⟩ | ⟨-, i, bytes, -, ht⟩ | ht | ⟨bytes, ht⟩ <;> rw [ht] at h
  · subst h; exact resume_access hs hr
  · exact (exec_access (hs.setPort _ _ _) h).of_taken
  · cases h; exact .refl s
  · cases h
    exact ((TurnAccess.refl (setServedRx s bytes)).answer _).of_taken

end

/-- Settles O56: what `turn_access` bars from each port is what the statement says of it. -/
theorem exclusiveAccess : Obligations.ExclusiveAccess := by
  intro s t k q quantum rest hs hin hstep
  rw [step_serve hin] at hstep
  obtain ⟨hrg, hpool, hdec, henc⟩ := turn_access (s := beginTurn s k q quantum rest) hs hstep
  refine ⟨?_, ?_⟩
  · rintro rfl
    exact ⟨fun i hi => hrg i (iff_of_true rfl hi), fun i hi => hpool i fun _ => hi, fun i hi => hdec i fun _ => hi,
      fun i hi => henc i fun _ => hi⟩
  · rintro rfl
    exact ⟨List.ext_getElem? fun i => hpool i nofun, List.ext_getElem? fun i => hdec i nofun,
      List.ext_getElem? fun i => henc i nofun, fun i hi => hrg i (iff_of_false nofun hi)⟩

end Sys2Proof.Machine
end

section
/-! PROOF. The statements of 30_encoding: that decoder and encoder are inverse, the field assemblies, the markers of a
Simple8 frame, and what the machine answers to bytes it does not run. -/
namespace Sys2Proof.Machine

/-! ### Decoder and encoder (30_encoding R108, R109, R110) -/

/-- Settles O1: by the operand format of the command, each read back by the lemma of its format. -/
theorem decodeEncode : Obligations.DecodeEncode := by
  intro W i rest hwf
  cases i with
  | sbAlloc n => exact operandA_leBytes .sbAlloc n rest
  | encFill n => exact operandA_leBytes .encFill n rest
  | encMove n => exact operandA_leBytes .encMove n rest
  | rgPush v => exact operandV_leBytes W .rgPush v rest (of_decide_eq_true hwf)
  | decPush buf => exact operandB_leBytes .decPush buf rest (of_decide_eq_true hwf)
  | encPush msg => exact operandB_leBytes .encPush msg rest (of_decide_eq_true hwf)
  | sbSize | sbZero | sbAppend => rfl
  | rgPop | rgFront | rgEmpty | rgFull | rgSize => rfl
  | rpPush | rpPop | rpFront | rpEmpty | rpFull | rpSize => rfl
  | decPop | decPeek | decEmpty | decClear | decErrcnt | decErrcntRst => rfl
  | encEmpty | encClear | encGather => rfl

/-- `op` and then `operands` are the spelling of a command the encoding can spell. -/
structure Spells (W : Nat) (op : Byte) (operands : List Byte) (i : Instr) : Prop where
  opcode : i.opcode = op
  operandBytes : i.operandBytes W = operands
  wf : i.wf W = true

theorem Spells.wf_and_eq_encode {W : Nat} {op : Byte} {operands : List Byte} {i : Instr} (h : Spells W op operands i)
    (rest : List Byte) : i.wf W = true ∧ op :: (operands ++ rest) = encode W i ++ rest :=
  ⟨h.wf, by rw [encode, h.opcode, h.operandBytes, List.cons_append]⟩

/-- What the decoder makes of a byte `op` and the bytes after it: it reads the operand of some format, or `op` is no
command's opcode. -/
inductive DecodeRow (W : Nat) (op : Byte) (bs : List Byte) : Prop where
  | plain (i : Instr) (hi : Spells W op [] i) (hd : decode W (op :: bs) = .ok (i, bs))
  | byte (mk : Byte → Instr) (hi : ∀ b, Spells W op [b] (mk b)) (hd : decode W (op :: bs) = operandY mk bs)
  | argument (mk : U32 → Instr) (hi : ∀ n : U32, Spells W op (leBytes 4 n.toNat) (mk n))
      (hd : decode W (op :: bs) = operandA mk bs)
  | buffer (mk : List Byte → Instr)
      (hi : ∀ buf : List Byte, buf.length < 2 ^ 32 → Spells W op (leBytes 4 buf.length ++ buf) (mk buf))
      (hd : decode W (op :: bs) = operandB mk bs)
  | value (mk : Nat → Instr) (hi : ∀ v, v < 2 ^ W → Spells W op (leBytes (valueBytes W) v) (mk v))
      (hd : decode W (op :: bs) = operandV W mk bs)
  | reserved (hop : ∀ i : Instr, i.opcode ≠ op) (hd : decode W (op :: bs) = .error (.reserved op bs))

/-- The row of a command's opcode in the opcode map. -/
theorem decodeRow_opcode (W : Nat) (i : Instr) (bs : List Byte) : DecodeRow W i.opcode bs := by
  cases i with
  | sbAppend => exact .byte .sbAppend (fun _ => ⟨rfl, rfl, rfl⟩) rfl
  | sbAlloc => exact .argument .sbAlloc (fun _ => ⟨rfl, rfl, rfl⟩) rfl
  | encFill => exact .argument .encFill (fun _ => ⟨rfl, rfl, rfl⟩) rfl
  | encMove => exact .argument .encMove (fun _ => ⟨rfl, rfl, rfl⟩) rfl
  | rgPush => exact .value .rgPush (fun _ hv => ⟨rfl, rfl, decide_eq_true hv⟩) rfl
  | decPush => exact .buffer .decPush (fun _ hb => ⟨rfl, rfl, decide_eq_true hb⟩) rfl
  | encPush => exact .buffer .encPush (fun _ hb => ⟨rfl, rfl, decide_eq_true hb⟩) rfl
  | sbSize | sbZero => exact .plain _ ⟨rfl, rfl, rfl⟩ rfl
  | rgPop | rgFront | rgEmpty | rgFull | rgSize => exact .plain _ ⟨rfl, rfl, rfl⟩ rfl
  | rpPush | rpPop | rpFront | rpEmpty | rpFull | rpSize => exact .plain _ ⟨rfl, rfl, rfl⟩ rfl
  | decPop | decPeek | decEmpty | decClear | decErrcnt | decErrcntRst => exact .plain _ ⟨rfl, rfl, rfl⟩ rfl
  | encEmpty | encClear | encGather => exact .plain _ ⟨rfl, rfl, rfl⟩ rfl

/-- Every row of the decoder but the last is that of some command's opcode (30_encoding R112). -/
theorem decode_reserved (W : Nat) {op : Byte} (bs : List Byte) (hop : ∀ i : Instr, i.opcode ≠ op) :
    decode W (op :: bs) = .error (.reserved op bs) := by
  have row (i : Instr) {P : Prop} (h : op.toNat = i.opcode.toNat) : P :=
    absurd (BitVec.eq_of_toNat_eq h.symm) (hop i)
  simp only [decode]
  split
  exacts [
    row .sbSize ‹_›, row .sbZero ‹_›, row (.sbAppend 0) ‹_›, row (.sbAlloc 0) ‹_›,
    row (.rgPush 0) ‹_›, row .rgPop ‹_›, row .rgFront ‹_›, row .rgEmpty ‹_›, row .rgFull ‹_›, row .rgSize ‹_›,
    row .rpPush ‹_›, row .rpPop ‹_›, row .rpFront ‹_›, row .rpEmpty ‹_›, row .rpFull ‹_›, row .rpSize ‹_›,
    row (.decPush []) ‹_›, row .decPop ‹_›, row .decPeek ‹_›, row .decEmpty ‹_›, row .decClear ‹_›,
    row .decErrcnt ‹_›, row .decErrcntRst ‹_›,
    row (.encPush []) ‹_›, row .encEmpty ‹_›, row (.encFill 0) ‹_›, row (.encMove 0) ‹_›, row .encClear ‹_›,
    row .encGather ‹_›,
    rfl]

theorem decode_row (W : Nat) (op : Byte) (bs : List Byte) : DecodeRow W op bs := by
  by_cases h : ∃ i : Instr, i.opcode = op
  · obtain ⟨i, rfl⟩ := h
    exact decodeRow_opcode W i bs
  · have hop : ∀ i : Instr, i.opcode ≠ op := not_exists.1 h
    exact .reserved hop (decode_reserved W bs hop)

/-- Settles O2: by the row of the first byte, whose operand is written back by the lemma of its format. -/
theorem decodedBytesSpellCommand : Obligations.DecodedBytesSpellCommand := by
  rintro W (_ | ⟨op, bs⟩) rest i h
  · cases h
  · cases decode_row W op bs with
    | plain j hi hd =>
      cases hd.symm.trans h
      exact hi.wf_and_eq_encode bs
    | byte mk hi hd =>
      obtain ⟨b, rfl, rfl⟩ := operandY_inv (hd.symm.trans h)
      exact (hi b).wf_and_eq_encode rest
    | argument mk hi hd =>
      obtain ⟨n, rfl, rfl⟩ := operandA_inv (hd.symm.trans h)
      exact (hi n).wf_and_eq_encode rest
    | buffer mk hi hd =>
      obtain ⟨buf, rfl, hlen, rfl⟩ := operandB_inv (hd.symm.trans h)
      exact (hi buf hlen).wf_and_eq_encode rest
    | value mk hi hd =>
      obtain ⟨v, rfl, hv, rfl⟩ := operandV_inv (hd.symm.trans h)
      exact (hi v hv).wf_and_eq_encode rest
    | reserved hop hd => cases hd.symm.trans h

/-- Settles O4: each by evaluating the decoder on its bytes. -/
theorem spelledCommandsDecode : Obligations.SpelledCommandsDecode := ⟨rfl, rfl, rfl, rfl, rfl, rfl⟩

/-! ### The field assemblies (30_encoding R92) -/

theorem le16_map_toNat (v : U16) : (le16 v).map BitVec.toNat = [v.toNat % 256, v.toNat / 256] := by
  have hv := v.isLt
  simp only [le16, List.map_cons, List.map_nil, BitVec.extractLsb'_toNat, Nat.shiftRight_eq_div_pow, List.cons.injEq,
    and_true]
  omega

theorem be24_map_toNat (v : U24) :
    (be24 v).map BitVec.toNat = [v.toNat / 65536, v.toNat / 256 % 256, v.toNat % 256] := by
  have hv := v.isLt
  simp only [be24, List.map_cons, List.map_nil, BitVec.extractLsb'_toNat, Nat.shiftRight_eq_div_pow, List.cons.injEq,
    and_true, true_and, Nat.reducePow]
  omega

/-- A number shifted clear of the bits of another is joined to it by addition. -/
theorem shiftLeft_or_toNat {w k : Nat} (hi lo : BitVec w) (hlo : lo.toNat < 2 ^ k) (hhi : hi.toNat * 2 ^ k < 2 ^ w) :
    (hi <<< k ||| lo).toNat = 2 ^ k * hi.toNat + lo.toNat := by
  rw [BitVec.toNat_or, BitVec.toNat_shiftLeft, Nat.shiftLeft_eq, Nat.mod_eq_of_lt hhi, Nat.mul_comm,
    Nat.two_pow_add_eq_or_of_lt hlo]

theorem unLe16_toNat (a b : Byte) : (unLe16 a b).toNat = a.toNat + 256 * b.toNat := by
  have ha : (a.setWidth 16).toNat = a.toNat := BitVec.toNat_setWidth_of_le (by decide)
  have hb : (b.setWidth 16).toNat = b.toNat := BitVec.toNat_setWidth_of_le (by decide)
  have := a.isLt
  have := b.isLt
  rw [unLe16, BitVec.or_comm, shiftLeft_or_toNat _ _ (by omega) (by omega), ha, hb]
  omega

theorem unBe24_toNat (a b c : Byte) : (unBe24 a b c).toNat = 65536 * a.toNat + 256 * b.toNat + c.toNat := by
  have ha : (a.setWidth 24).toNat = a.toNat := BitVec.toNat_setWidth_of_le (by decide)
  have hb : (b.setWidth 24).toNat = b.toNat := BitVec.toNat_setWidth_of_le (by decide)
  have hc : (c.setWidth 24).toNat = c.toNat := BitVec.toNat_setWidth_of_le (by decide)
  have := a.isLt
  have := b.isLt
  have := c.isLt
  have hlow : (b.setWidth 24 <<< 8 ||| c.setWidth 24).toNat = 256 * b.toNat + c.toNat := by
    rw [shiftLeft_or_toNat _ _ (by omega) (by omega), hb, hc]
    rfl
  rw [unBe24, BitVec.or_assoc, shiftLeft_or_toNat _ _ (by omega) (by omega), ha, hlow]
  omega

/-- Settles O3: each assembly and listing as numbers, whence the inverses. -/
theorem fieldAssembly : Obligations.FieldAssembly := by
  refine ⟨le16_map_toNat, be24_map_toNat, unLe16_toNat, unBe24_toNat, fun v a b h => ?_, fun v a b c h => ?_⟩
  · have hv := le16_map_toNat v
    simp only [h, List.map_cons, List.map_nil, List.cons.injEq, and_true] at hv
    apply BitVec.eq_of_toNat_eq
    rw [unLe16_toNat]
    omega
  · have hv := be24_map_toNat v
    simp only [h, List.map_cons, List.map_nil, List.cons.injEq, and_true] at hv
    apply BitVec.eq_of_toNat_eq
    rw [unBe24_toNat]
    omega

/-! ### The markers of a Simple8 frame (30_encoding R95, R97) -/

/-- The escape of a control byte keeps its low seven bits. -/
theorem sameLow7_flip (b : Byte) : sameLow7 (b ^^^ 0x80#8) b = true := by
  have hbits : (b ^^^ 0x80#8) &&& 0x7F#8 = b &&& 0x7F#8 := by
    ext i hi
    simp only [BitVec.getElem_and, BitVec.getElem_xor]
    interval_cases i <;> simp
  simp [sameLow7, hbits]

theorem flip_ne_self (b : Byte) : b ^^^ 0x80#8 ≠ b := by
  intro h
  simp at h

theorem isControl_iff {st : Straps} {b : Byte} :
    isControl st b = true ↔ b = st.s8Stx ∨ b = st.s8Etx ∨ b = st.s8Ntx := by
  simp [isControl, or_assoc]

section
variable {st : Straps} {m : Byte} (hst : controlBytesDistinct st = true)
include hst

/-- Control bytes that agree in their low seven bits are the same (00_scope R10). -/
theorem control_eq_of_sameLow7 {b c : Byte} (hb : isControl st b = true) (hc : isControl st c = true)
    (h : sameLow7 b c = true) : b = c := by
  obtain ⟨hse, hsn, hen⟩ := (controlBytesDistinct_iff st).1 hst
  have hlow : b &&& 0x7F#8 = c &&& 0x7F#8 := by simpa [sameLow7] using h
  rw [isControl_iff] at hb hc
  grind

/-- What `b` is sent as holds no control byte but `NTX`: an escaped control byte is none any more. -/
theorem not_mem_escByte (hm : isControl st m = true) (hntx : m ≠ st.s8Ntx) (b : Byte) : m ∉ escByte st b := by
  unfold escByte
  split
  · next hb =>
    have hflip : m ≠ b ^^^ 0x80#8 := by
      intro h
      have hmb : m = b := control_eq_of_sameLow7 hst hm hb (h ▸ sameLow7_flip b)
      exact flip_ne_self b (h.symm.trans hmb)
    simp [hntx, hflip]
  · next hb =>
    have hne : m ≠ b := fun h => hb (h ▸ hm)
    simpa using hne

/-- As `not_mem_escByte`, for all that a frame has between its first byte and its last. -/
theorem not_mem_escaped (hm : isControl st m = true) (hntx : m ≠ st.s8Ntx) (p : List Byte) :
    m ∉ p.flatMap (escByte st) ++ (if st.s8CrcEn then escByte st (crc8 st st.s8Stx p) else []) := by
  have hp : m ∉ p.flatMap (escByte st) := by
    rw [List.mem_flatMap]
    rintro ⟨b, -, hb⟩
    exact not_mem_escByte hst hm hntx b hb
  have hcrc := not_mem_escByte hst hm hntx (crc8 st st.s8Stx p)
  cases st.s8CrcEn <;> simp [hp, hcrc]

end

/-- Settles O45: the bytes between are escaped, and `STX` and `ETX` are control bytes other than `NTX`. -/
theorem s8FrameMarkers : Obligations.S8FrameMarkers := by
  intro st p hst
  obtain ⟨-, hsn, hen⟩ := (controlBytesDistinct_iff st).1 hst
  refine ⟨_, by rw [frameS8, List.singleton_append, List.cons_append], ?_, ?_⟩
  · exact not_mem_escaped hst (isControl_iff.2 (.inl rfl)) (fun h => hsn (h ▸ rfl)) p
  · exact not_mem_escaped hst (isControl_iff.2 (.inr (.inl rfl))) (fun h => hen (h ▸ rfl)) p

/-! ### Commands that are not run (30_encoding R112, R113) -/

/-- Every command enters by `accept`, with its kind of instance and its ports in the opcode map (30_encoding R109). -/
theorem exec_eq_accept (i : Instr) (s : State) : ∃ k ps o, exec i s = accept k ps s o ∧
    ∀ j q, acceptedOn i j q = true ↔ j = k ∧ q ∈ ps := by
  have onP (k : Kind) (j : Kind) (q : PortId) : (j == k && q == .p) = true ↔ j = k ∧ q ∈ [PortId.p] := by simp
  have onC (k : Kind) (j : Kind) (q : PortId) : (j == k && q == .c) = true ↔ j = k ∧ q ∈ [PortId.c] := by simp
  have onBoth (k : Kind) (j : Kind) (q : PortId) : (j == k) = true ↔ j = k ∧ q ∈ [PortId.p, PortId.c] := by
    cases q <;> simp
  cases i with
  | sbSize | sbZero | sbAppend | sbAlloc | rgPush | rpPush | decPush | encPush => exact ⟨_, _, _, rfl, onP _⟩
  | rgPop | rgFront | rpPop | rpFront | decPop | decPeek | decClear | encFill | encMove | encClear | encGather =>
    exact ⟨_, _, _, rfl, onC _⟩
  | rgEmpty | rgFull | rgSize | rpEmpty | rpFull | rpSize | decEmpty | decErrcnt | decErrcntRst | encEmpty =>
    exact ⟨_, _, _, rfl, onBoth _⟩

theorem exec_unconfigured (i : Instr) {s : State} (hc : (s.base s.sel.kind).configured = false) :
    exec i s = .next (s.answer (bare .notConfigured)) := by
  obtain ⟨k, ps, o, he, -⟩ := exec_eq_accept i s
  rw [he, accept, if_pos hc]

theorem exec_notAccepted {i : Instr} {s : State} (hc : (s.base s.sel.kind).configured = true)
    (hi : acceptedOn i s.sel.kind s.sel.port = false) : exec i s = .next (s.answer (bare .illegal)) := by
  obtain ⟨k, ps, o, he, hk⟩ := exec_eq_accept i s
  have hnot : ¬(s.sel.kind = k ∧ s.sel.port ∈ ps) := fun h => by simp [(hk _ _).2 h] at hi
  rw [he, accept, if_neg (by simp [hc]), if_pos (not_and_or.1 hnot)]

section
variable {s : State} {k : Kind} {q : PortId} {quantum : Option Nat} {rest : List Input} {bytes : List Byte}

@[simp] theorem taken_sel : (taken s k q quantum rest bytes).sel = { kind := k, port := q, quantum := quantum } :=
  setBase_sel _ _ _

@[simp] theorem taken_configured :
    ((taken s k q quantum rest bytes).base k).configured = (s.base k).configured := by
  cases k <;> exact setBasePort_configured _ _ _

/-- A turn of an idle port whose bytes begin with no command takes these bytes and rejects them (30_encoding R112). -/
theorem step_rejects (hin : s.inputs = .serve k q quantum :: rest) (hidle : PortIdle s k q)
    (hbytes : (∃ op, decode (s.base k).straps.elemW (s.port k q).rx = .error (.reserved op bytes)) ∨
      decode (s.base k).straps.elemW (s.port k q).rx = .error (.overwide bytes)) :
    step s = .next (rejectCommand (taken s k q quantum rest bytes)) := by
  have hres := (resume_eq_none_iff (beginTurn s k q quantum rest)).2 ((portIdle_beginTurn ..).2 hidle)
  rw [step_serve hin, ← setServedRx_beginTurn]
  rcases hbytes with ⟨op, hd⟩ | hd
  · exact turn_reserved hres hd
  · exact turn_overwide hres hd

end

/-- Settles O6: a command is refused on its entry, and other bytes are rejected with the same answer. -/
theorem unconfiguredRefuses : Obligations.UnconfiguredRefuses := by
  refine ⟨fun i s hc => exec_unconfigured i hc, fun s k q quantum rest bytes hin hidle hc hbytes => ?_⟩
  rcases hbytes with ⟨i, hd⟩ | hbytes
  · rw [stepRunsDecodedCommand.1 s k q quantum rest i bytes hin hidle hd]
    exact exec_unconfigured i (by simp [hc])
  · rw [step_rejects hin hidle hbytes]
    simp [rejectCommand, hc, bare]

/-- A value of the right length with a bit above `ELEM_W` (30_encoding R112). -/
theorem operandV_overwide {W : Nat} (mk : Nat → Instr) {v : List Byte} (rest : List Byte)
    (hlen : v.length = valueBytes W) (hwide : 2 ^ W ≤ leNat v) :
    operandV W mk (v ++ rest) = .error (.overwide rest) := by
  simp [operandV, ← hlen, hwide]

/-- Settles O7: the reserved row, an over-wide value, the entry of a command, and the turns that reject. -/
theorem illegalCommandsRefused : Obligations.IllegalCommandsRefused := by
  refine ⟨fun W op rest hop => decode_reserved W rest hop,
    fun W v rest hlen hwide => operandV_overwide .rgPush rest hlen hwide,
    fun i s hc hi => exec_notAccepted hc hi, fun s k q quantum rest bytes hin hidle hc hbytes => ?_⟩
  rcases hbytes with ⟨i, hd, hi⟩ | hbytes
  · rw [stepRunsDecodedCommand.1 s k q quantum rest i bytes hin hidle hd]
    exact exec_notAccepted (by simp [hc]) (by simp [hi])
  · rw [step_rejects hin hidle hbytes]
    simp [rejectCommand, hc, bare]

/-! ### Answers (30_encoding R116, R118) -/

theorem basePort_setBasePort_ne (b : Base) {q q' : PortId} (x : Port) (h : q' ≠ q) :
    basePort (setBasePort b q x) q' = basePort b q' := by
  cases q with
  | p => cases q' with
    | p => exact absurd rfl h
    | c => rfl
  | c => cases q' with
    | p => rfl
    | c => exact absurd rfl h

/-- A port put in place leaves every other port as it was. -/
theorem port_setPort_ne (s : State) {k k' : Kind} {q q' : PortId} (x : Port) (h : k' ≠ k ∨ q' ≠ q) :
    (s.setPort k q x).port k' q' = s.port k' q' := by
  by_cases hk : k' = k
  · subst hk
    simp [State.setPort, State.port, basePort_setBasePort_ne _ x (h.resolve_left (· rfl))]
  · rw [State.port, State.setPort, base_setBase_ne _ _ hk, State.port]

/-- A base put in place leaves the rest of every instance as it was. -/
theorem setBase_frame (s : State) (k : Kind) (b : Base) :
    (s.setBase k b).rg = { s.rg with base := (s.setBase k b).rg.base } ∧
    (s.setBase k b).pool = { s.pool with base := (s.setBase k b).pool.base } ∧
    (s.setBase k b).dec = { s.dec with base := (s.setBase k b).dec.base } ∧
    (s.setBase k b).enc = { s.enc with base := (s.setBase k b).enc.base } := by
  cases k <;> exact ⟨rfl, rfl, rfl, rfl⟩

/-- Settles O8: an answer is a port put in place; the two tables are evaluated. -/
theorem answerTouchesOnlyServedPort : Obligations.AnswerTouchesOnlyServedPort := by
  refine ⟨fun s r => ?_, rfl, rfl⟩
  obtain ⟨b, -, -, -, hb⟩ := answer_cases s r
  have hframe := setBase_frame s s.sel.kind b
  rw [← hb] at hframe
  obtain ⟨hrg, hpool, hdec, henc⟩ := hframe
  exact ⟨answer_served_port s r, fun k q h => port_setPort_ne s _ h,
    fun k => ⟨answer_straps s r k, answer_ring s r k, answer_configured s r k⟩, hrg, hpool, hdec, henc,
    answer_sel s r, answer_inputs s r, answer_freeIdx s r⟩

end Sys2Proof.Machine
end

section
/-! PROOF. The statements of 40_slot_buffer. First each command of the standalone pool on its current slot; then that no
pool command depends on the Slot Buffer variant or on a capacity. -/
namespace Sys2Proof.Machine

/-! ### What the operations on a slot answer (40_slot_buffer R135, R136) -/

theorem slotAppend_full {kind : SlotKind} {sl : Slot} (b : Byte) (h : sl.size = sl.max) :
    slotAppend kind sl b = none := if_pos h

/-- The byte goes to offset `size`; every other offset reads as before. -/
theorem slotAppend_byteAt {kind : SlotKind} {sl sl' : Slot} {b : Byte} (h : slotAppend kind sl b = some sl') :
    byteAt sl' sl.size = b ∧ ∀ off, off ≠ sl.size → byteAt sl' off = byteAt sl off := by
  have hne := (slotAppend_some h).1
  rw [slotAppend, if_neg hne, Option.some.injEq] at h
  subst h
  exact ⟨by simp [byteAt], fun off hoff => by simp [byteAt, find_write_other _ _ hoff]⟩

theorem slotAlloc_tooLarge {kind : SlotKind} {fill n : Nat} {sl : Slot} (h : sl.max < n) :
    slotAlloc kind fill sl n = none := if_pos h

theorem slotAlloc_isSome {kind : SlotKind} {fill n : Nat} {sl : Slot} (h : n ≤ sl.max) :
    ∃ sl', slotAlloc kind fill sl n = some sl' := ⟨_, if_neg (Nat.not_lt.2 h)⟩

/-! ### The commands on port `P` of a pool, by what the current slot answers -/

section
variable {i : PoolInst} {sl : Slot}

theorem poolSize_cur (hsl : i.slots[i.base.ring.writePos]? = some sl) :
    poolSize i = .ok (i, okay (fieldU32 sl.size)) := by
  rw [poolSize, slotAt_ok.2 hsl]

theorem poolZero_cur (hsl : i.slots[i.base.ring.writePos]? = some sl) :
    poolZero i = .ok (setPoolCur i (slotZero sl), okay []) := by
  rw [poolZero, slotAt_ok.2 hsl]

/-- How `SB_APPEND` and `SB_ALLOC` end: with the new current slot, or with `ST_TOO_LARGE` (40_slot_buffer R135, R136). -/
def endGrow (i : PoolInst) : Option Slot → Except Fault (PoolInst × Response)
  | none => .ok (i, bare .tooLarge)
  | some sl => .ok (setPoolCur i sl, okay [])

theorem poolAppend_eq (i : PoolInst) (b : Byte) : poolAppend i b =
    (slotAt i.slots i.base.ring.writePos).bind fun sl => endGrow i (slotAppend i.base.straps.slotKind sl b) := by
  unfold poolAppend
  rcases slotAt i.slots i.base.ring.writePos with f | sl
  · rfl
  · simp only [Except.bind]
    cases slotAppend i.base.straps.slotKind sl b <;> rfl

theorem poolAlloc_eq (fill : Nat) (i : PoolInst) (n : Nat) : poolAlloc fill i n =
    (slotAt i.slots i.base.ring.writePos).bind fun sl => endGrow i (slotAlloc i.base.straps.slotKind fill sl n) := by
  unfold poolAlloc
  rcases slotAt i.slots i.base.ring.writePos with f | sl
  · rfl
  · simp only [Except.bind]
    cases slotAlloc i.base.straps.slotKind fill sl n <;> rfl

theorem poolAppend_cur (b : Byte) (hsl : i.slots[i.base.ring.writePos]? = some sl) :
    poolAppend i b = endGrow i (slotAppend i.base.straps.slotKind sl b) := by
  rw [poolAppend_eq, slotAt_ok.2 hsl, Except.bind]

theorem poolAlloc_cur (fill n : Nat) (hsl : i.slots[i.base.ring.writePos]? = some sl) :
    poolAlloc fill i n = endGrow i (slotAlloc i.base.straps.slotKind fill sl n) := by
  rw [poolAlloc_eq, slotAt_ok.2 hsl, Except.bind]

end

section
variable {s : State}

theorem exec_sbSize (h : Serves s .pool .p) : exec .sbSize s = finishPool s (poolSize s.pool) :=
  accept_run _ h List.mem_cons_self

theorem exec_sbZero (h : Serves s .pool .p) : exec .sbZero s = finishPool s (poolZero s.pool) :=
  accept_run _ h List.mem_cons_self

theorem exec_sbAppend (b : Byte) (h : Serves s .pool .p) :
    exec (.sbAppend b) s = finishPool s (poolAppend s.pool b) := accept_run _ h List.mem_cons_self

theorem exec_sbAlloc (n : U32) (h : Serves s .pool .p) : exec (.sbAlloc n) s =
    finishPool (countAlloc s (poolAlloc s.freeIdx s.pool n.toNat)) (poolAlloc s.freeIdx s.pool n.toNat) :=
  accept_run _ h List.mem_cons_self

end

/-- Settles O18: both commands answer from the current slot. -/
theorem sbSizeZero : Obligations.SbSizeZero := by
  intro s sl hs hsl
  rw [exec_sbSize hs, exec_sbZero hs, poolSize_cur hsl, poolZero_cur hsl]
  exact ⟨rfl, rfl⟩

/-- Settles O19: the slot is full and answers nothing, or holds the byte at its end. -/
theorem sbAppend : Obligations.SbAppend := by
  intro s b sl hs hsl
  rw [exec_sbAppend b hs, poolAppend_cur b hsl]
  refine ⟨fun hfull => ?_, fun hroom => ?_⟩
  · rw [slotAppend_full b hfull]; rfl
  · obtain ⟨sl', happ⟩ := slotAppend_isSome (kind := s.pool.base.straps.slotKind) (b := b) hroom
    obtain ⟨-, hsize, hmax, hcontent, -, hcap⟩ := slotAppend_some happ
    obtain ⟨hbyte, hother⟩ := slotAppend_byteAt happ
    rw [happ]
    exact ⟨sl', rfl, hmax, hsize, hcap, hbyte, hother, hcontent⟩

/-- Settles O20: more than `max` is refused, or the slot holds the free values of this allocation. -/
theorem sbAlloc : Obligations.SbAlloc := by
  intro s n sl hs hsl
  rw [exec_sbAlloc n hs, poolAlloc_cur s.freeIdx n.toNat hsl]
  refine ⟨fun hlarge => ?_, fun hfits => ?_⟩
  · rw [slotAlloc_tooLarge hlarge]; rfl
  · obtain ⟨sl', halloc⟩ :=
      slotAlloc_isSome (kind := s.pool.base.straps.slotKind) (fill := s.freeIdx) hfits
    obtain ⟨-, hsize, hmax, -, -, hcap⟩ := slotAlloc_some halloc
    rw [halloc]
    exact ⟨sl', rfl, hmax, hsize, hcap, slotAlloc_byteAt halloc⟩

/-! ### A slot and a pool without their capacities (40_slot_buffer R139)

`forgetCap` of a state is `forgetPool` of its pool. An operation is `CapBlind` when forgetting first makes no
difference to its answer, nor to the pool it leaves once that is forgotten too. -/

/-- A Slot Buffer without its `cap`. -/
def forgetSlotCap (sl : Slot) : Slot := { sl with cap := 0 }

/-- A pool without its variant and its capacities. -/
def forgetPool (i : PoolInst) : PoolInst where
  base := { i.base with straps := { i.base.straps with slotKind := .fixed } }
  slots := i.slots.map forgetSlotCap

/-- The answer of an operation, and the pool it leaves without variant and capacities. -/
def forgetResult : Except Fault (PoolInst × Response) → Except Fault (PoolInst × Response)
  | .error f => .error f
  | .ok (i, r) => .ok (forgetPool i, r)

/-- An operation of a pool depends on neither the variant nor a capacity, but in the capacities it leaves. -/
def CapBlind (op : PoolInst → Except Fault (PoolInst × Response)) : Prop :=
  ∀ i, forgetResult (op (forgetPool i)) = forgetResult (op i)

theorem forgetCap_eq (s : State) : forgetCap s = { s with pool := forgetPool s.pool } := rfl

@[simp] theorem forgetPool_ring (i : PoolInst) : (forgetPool i).base.ring = i.base.ring := rfl

@[simp] theorem forgetPool_forgetPool (i : PoolInst) : forgetPool (forgetPool i) = forgetPool i := by
  have hslot : forgetSlotCap ∘ forgetSlotCap = forgetSlotCap := rfl
  simp [forgetPool, hslot]

@[simp] theorem forgetResult_forgetResult (x : Except Fault (PoolInst × Response)) :
    forgetResult (forgetResult x) = forgetResult x := by
  rcases x with f | ⟨i, r⟩
  · rfl
  · simp only [forgetResult, forgetPool_forgetPool]

/-- A slot of the forgotten pool is the slot forgotten, or missing alike. -/
theorem slotAt_forgetPool (i : PoolInst) (k : Nat) :
    slotAt (forgetPool i).slots k = (slotAt i.slots k).map forgetSlotCap := by
  simp only [slotAt, forgetPool, List.getElem?_map]
  cases i.slots[k]? <;> rfl

theorem setPoolCur_forgetPool (i : PoolInst) (sl : Slot) :
    setPoolCur (forgetPool i) (forgetSlotCap sl) = forgetPool (setPoolCur i sl) := by
  simp [forgetPool, setPoolCur, List.map_set]

/-- Current slots that differ in `cap` alone make pools that differ in capacities alone. -/
theorem forgetPool_setPoolCur (i : PoolInst) {sl sl' : Slot} (h : forgetSlotCap sl' = forgetSlotCap sl) :
    forgetPool (setPoolCur (forgetPool i) sl') = forgetPool (setPoolCur i sl) := by
  rw [← setPoolCur_forgetPool, h, forgetPool_forgetPool, setPoolCur_forgetPool]

/-! ### The operations of a pool -/

/-- An operation that brings in no capacity commutes with forgetting them. -/
theorem CapBlind.of_commutes {op : PoolInst → Except Fault (PoolInst × Response)}
    (h : ∀ i, op (forgetPool i) = forgetResult (op i)) : CapBlind op := by
  intro i; rw [h, forgetResult_forgetResult]

theorem poolPush_capBlind : CapBlind poolPush := .of_commutes fun i => by
  simp only [poolPush, apply_ite forgetResult]; rfl

theorem poolPop_capBlind : CapBlind poolPop := .of_commutes fun i => by
  simp only [poolPop, apply_ite forgetResult]; rfl

theorem poolFront_capBlind : CapBlind poolFront := .of_commutes fun i => by
  by_cases h : isEmpty i.base = true
  · rw [poolFront, poolFront, if_pos h, if_pos (show isEmpty (forgetPool i).base = true from h)]; rfl
  · rw [poolFront, poolFront, if_neg h, if_neg (show ¬isEmpty (forgetPool i).base = true from h), forgetPool_ring,
      slotAt_forgetPool]
    cases slotAt i.slots i.base.ring.readPos <;> rfl

theorem poolSize_capBlind : CapBlind poolSize := .of_commutes fun i => by
  simp only [poolSize, forgetPool_ring, slotAt_forgetPool]
  cases slotAt i.slots i.base.ring.writePos <;> rfl

theorem poolZero_capBlind : CapBlind poolZero := .of_commutes fun i => by
  simp only [poolZero, forgetPool_ring, slotAt_forgetPool]
  rcases slotAt i.slots i.base.ring.writePos with f | sl
  · rfl
  · exact congrArg (fun j => Except.ok (j, okay [])) (setPoolCur_forgetPool i (slotZero sl))

/-- `SB_APPEND` looks at `cap` and the variant for the new `cap` only (40_slot_buffer R135). -/
theorem slotAppend_forget (kind kind' : SlotKind) (sl : Slot) (b : Byte) :
    (slotAppend kind (forgetSlotCap sl) b).map forgetSlotCap = (slotAppend kind' sl b).map forgetSlotCap := by
  by_cases h : sl.size = sl.max
  · rw [slotAppend_full b h, slotAppend_full b (sl := forgetSlotCap sl) h]
  · simp only [slotAppend, if_neg h, if_neg (show ¬(forgetSlotCap sl).size = (forgetSlotCap sl).max from h)]; rfl

/-- `SB_ALLOC` looks at `cap` and the variant for the new `cap` only (40_slot_buffer R136). -/
theorem slotAlloc_forget (kind kind' : SlotKind) (fill n : Nat) (sl : Slot) :
    (slotAlloc kind fill (forgetSlotCap sl) n).map forgetSlotCap = (slotAlloc kind' fill sl n).map forgetSlotCap := by
  by_cases h : sl.max < n
  · rw [slotAlloc_tooLarge h, slotAlloc_tooLarge (sl := forgetSlotCap sl) h]
  · simp only [slotAlloc, if_neg h, if_neg (show ¬(forgetSlotCap sl).max < n from h)]; rfl

theorem endGrow_forget (i : PoolInst) {x y : Option Slot} (h : x.map forgetSlotCap = y.map forgetSlotCap) :
    forgetResult (endGrow (forgetPool i) x) = forgetResult (endGrow i y) := by
  cases x with
  | none =>
    cases y with
    | none => exact congrArg (fun j => Except.ok (j, bare .tooLarge)) (forgetPool_forgetPool i)
    | some sl => cases h
  | some sl' =>
    cases y with
    | none => cases h
    | some sl => exact congrArg (fun j => Except.ok (j, okay [])) (forgetPool_setPoolCur i (Option.some.inj h))

/-- An operation that ends in `endGrow` is blind to the capacities where the slot's own operation is. -/
theorem CapBlind.of_endGrow {op : PoolInst → Except Fault (PoolInst × Response)}
    {grow : SlotKind → Slot → Option Slot}
    (hop : ∀ i, op i =
      (slotAt i.slots i.base.ring.writePos).bind fun sl => endGrow i (grow i.base.straps.slotKind sl))
    (hgrow : ∀ kind kind' sl, (grow kind (forgetSlotCap sl)).map forgetSlotCap = (grow kind' sl).map forgetSlotCap) :
    CapBlind op := by
  intro i
  rw [hop, hop, forgetPool_ring, slotAt_forgetPool]
  rcases slotAt i.slots i.base.ring.writePos with f | sl
  · rfl
  · exact endGrow_forget i (hgrow _ _ sl)

theorem poolAppend_capBlind (b : Byte) : CapBlind (poolAppend · b) :=
  .of_endGrow (grow := (slotAppend · · b)) (poolAppend_eq · b) fun kind kind' sl => slotAppend_forget kind kind' sl b

theorem poolAlloc_capBlind (fill n : Nat) : CapBlind (poolAlloc fill · n) :=
  .of_endGrow (grow := (slotAlloc · fill · n)) (poolAlloc_eq fill · n) fun kind kind' =>
    slotAlloc_forget kind kind' fill n

/-- Pools that differ in variant and capacities alone are answered alike. -/
theorem CapBlind.congr {op : PoolInst → Except Fault (PoolInst × Response)} (hop : CapBlind op) {i j : PoolInst}
    (h : forgetPool i = forgetPool j) : forgetResult (op i) = forgetResult (op j) := by
  rw [← hop i, h, hop j]

/-! ### The commands of a pool -/

/-- Outcomes that differ in variant and capacities of the pool alone. -/
def AgreeButCap (o o' : Host.Outcome State Fault Refusal) : Prop :=
  (∃ s t, o = .next s ∧ o' = .next t ∧ forgetCap s = forgetCap t) ∨ ∃ f, o = .fault f ∧ o' = .fault f

@[simp] theorem forgetCap_configured (s : State) (k : Kind) :
    ((forgetCap s).base k).configured = (s.base k).configured := by cases k <;> rfl

theorem forgetCap_setPort (s : State) (k : Kind) (q : PortId) (x : Port) :
    (forgetCap s).setPort k q x = forgetCap (s.setPort k q x) := by
  cases k with
  | pool => cases q <;> rfl
  | rg | dec | enc => rfl

theorem forgetCap_port (s : State) (k : Kind) (q : PortId) : (forgetCap s).port k q = s.port k q := by
  cases k with
  | pool => cases q <;> rfl
  | rg | dec | enc => rfl

/-- An answer neither reads nor writes a capacity. -/
theorem forgetCap_answer (s : State) (r : Response) : forgetCap (s.answer r) = (forgetCap s).answer r := by
  have hsel : (forgetCap s).sel = s.sel := rfl
  rw [State.answer, State.answer, hsel, forgetCap_port, forgetCap_setPort]

theorem countAlloc_forgetResult (s : State) (x : Except Fault (PoolInst × Response)) :
    countAlloc s (forgetResult x) = countAlloc s x := by
  rcases x with f | ⟨i, ⟨status, fields⟩⟩
  · rfl
  · cases status <;> rfl

theorem forgetCap_countAlloc (s : State) (x : Except Fault (PoolInst × Response)) :
    forgetCap (countAlloc s x) = countAlloc (forgetCap s) x := by
  unfold countAlloc; split <;> rfl

section
variable {s t : State}

theorem forgetPool_eq_of_forgetCap_eq (h : forgetCap s = forgetCap t) : forgetPool s.pool = forgetPool t.pool := by
  rw [forgetCap_eq, forgetCap_eq] at h
  exact congrArg State.pool h

theorem AgreeButCap.answer (h : forgetCap s = forgetCap t) (r : Response) :
    AgreeButCap (.next (s.answer r)) (.next (t.answer r)) :=
  .inl ⟨_, _, rfl, rfl, by rw [forgetCap_answer, h, forgetCap_answer]⟩

/-- The entry of a command looks at the turn and at `configured`, which are not forgotten (60_exceptions R378). -/
theorem AgreeButCap.accept (h : forgetCap s = forgetCap t) (k : Kind) (ps : List PortId)
    {o o' : Host.Outcome State Fault Refusal} (ho : AgreeButCap o o') :
    AgreeButCap (Machine.accept k ps s o) (Machine.accept k ps t o') := by
  have hsel : s.sel = t.sel := (congrArg State.sel h :)
  have hconf : (s.base t.sel.kind).configured = (t.base t.sel.kind).configured := by
    rw [← forgetCap_configured s, h, forgetCap_configured]
  unfold Machine.accept
  rw [hsel, hconf]
  split
  · exact .answer h _
  · split
    · exact .answer h _
    · exact ho

theorem AgreeButCap.finishPool (h : forgetCap s = forgetCap t) {x y : Except Fault (PoolInst × Response)}
    (hxy : forgetResult x = forgetResult y) : AgreeButCap (finishPool s x) (finishPool t y) := by
  rcases x with f | ⟨i, r⟩
  · rcases y with g | ⟨j, r'⟩
    · cases hxy; exact .inr ⟨f, rfl, rfl⟩
    · cases hxy
  · rcases y with g | ⟨j, r'⟩
    · cases hxy
    · obtain ⟨hpool, rfl⟩ := Prod.mk.inj (Except.ok.inj hxy)
      have hst : forgetCap { s with pool := i } = forgetCap { t with pool := j } :=
        calc forgetCap { s with pool := i }
            = { forgetCap s with pool := forgetPool i } := rfl
          _ = { forgetCap t with pool := forgetPool j } := by rw [h, hpool]
      exact .answer hst r

/-- A command that ends with the answer of a blind operation. -/
theorem AgreeButCap.poolOp (h : forgetCap s = forgetCap t) (ps : List PortId)
    {op : PoolInst → Except Fault (PoolInst × Response)} (hop : CapBlind op) :
    AgreeButCap (Machine.accept .pool ps s (Machine.finishPool s (op s.pool)))
      (Machine.accept .pool ps t (Machine.finishPool t (op t.pool))) :=
  .accept h _ ps (.finishPool h (hop.congr (forgetPool_eq_of_forgetCap_eq h)))

/-- A command that answers from the cursors and the slot count. -/
theorem AgreeButCap.query (h : forgetCap s = forgetCap t) (ps : List PortId) {r : Base → Response}
    (hr : ∀ i : PoolInst, r (forgetPool i).base = r i.base) :
    AgreeButCap (Machine.accept .pool ps s (.next (s.answer (r s.pool.base))))
      (Machine.accept .pool ps t (.next (t.answer (r t.pool.base)))) := by
  have hres : r s.pool.base = r t.pool.base := by rw [← hr s.pool, forgetPool_eq_of_forgetCap_eq h, hr]
  rw [hres]
  exact .accept h _ ps (.answer h _)

/-- `SB_ALLOC` also counts the allocations made, which no capacity decides. -/
theorem AgreeButCap.sbAlloc (h : forgetCap s = forgetCap t) (n : U32) :
    AgreeButCap (exec (.sbAlloc n) s) (exec (.sbAlloc n) t) := by
  have hfill : s.freeIdx = t.freeIdx := (congrArg State.freeIdx h :)
  have hres : forgetResult (poolAlloc s.freeIdx s.pool n.toNat) = forgetResult (poolAlloc t.freeIdx t.pool n.toNat) := by
    rw [hfill]
    exact (poolAlloc_capBlind t.freeIdx n.toNat).congr (forgetPool_eq_of_forgetCap_eq h)
  have hcount : forgetCap (countAlloc s (poolAlloc s.freeIdx s.pool n.toNat)) =
      forgetCap (countAlloc t (poolAlloc t.freeIdx t.pool n.toNat)) := by
    rw [forgetCap_countAlloc, forgetCap_countAlloc, h, ← countAlloc_forgetResult, hres, countAlloc_forgetResult]
  exact .accept h _ _ (.finishPool hcount hres)

/-- No command of a pool tells the variants apart (40_slot_buffer R139). -/
theorem exec_agreeButCap {i : Instr} (hi : (commandHome i).1 = .pool) (h : forgetCap s = forgetCap t) :
    AgreeButCap (exec i s) (exec i t) := by
  cases i with
  | sbSize => exact .poolOp h _ poolSize_capBlind
  | sbZero => exact .poolOp h _ poolZero_capBlind
  | sbAppend b => exact .poolOp h _ (poolAppend_capBlind b)
  | sbAlloc n => exact .sbAlloc h n
  | rpPush => exact .poolOp h _ poolPush_capBlind
  | rpPop => exact .poolOp h _ poolPop_capBlind
  | rpFront => exact .poolOp h _ poolFront_capBlind
  | rpEmpty => exact .query h _ (r := fun b => okay (fieldBool (isEmpty b))) fun _ => rfl
  | rpFull => exact .query h _ (r := fun b => okay (fieldBool (isFull b))) fun _ => rfl
  | rpSize => exact .query h _ (r := fun b => okay (fieldU32 (queueSize b))) fun _ => rfl
  | rgPush | rgPop | rgFront | rgEmpty | rgFull | rgSize => cases hi
  | decPush | decPop | decPeek | decEmpty | decClear | decErrcnt | decErrcntRst => cases hi
  | encPush | encEmpty | encFill | encMove | encClear | encGather => cases hi

end

theorem runAll_cons_next {i : Instr} {is : List Instr} {s t : State} (h : exec i s = .next t) :
    runAll (i :: is) s = runAll is t := by rw [runAll, h]

theorem runAll_cons_fault {i : Instr} {is : List Instr} {s : State} {f : Fault} (h : exec i s = .fault f) :
    runAll (i :: is) s = .fault f := by rw [runAll, h]

/-- Settles O21, by induction on the commands: each leaves the two machines alike but for the capacities. -/
theorem slotVariantsAgree : Obligations.SlotVariantsAgree := by
  intro is
  induction is with
  | nil => exact fun s t _ h => .inl ⟨s, t, rfl, rfl, h⟩
  | cons i is ih =>
    intro s t his h
    rcases exec_agreeButCap (his i List.mem_cons_self) h with ⟨s', t', hs, ht, h'⟩ | ⟨f, hs, ht⟩
    · rw [runAll_cons_next hs, runAll_cons_next ht]
      exact ih s' t' (fun j hj => his j (List.mem_cons_of_mem _ hj)) h'
    · exact .inr ⟨f, runAll_cons_fault hs, runAll_cons_fault ht⟩

end Sys2Proof.Machine
end

section
/-! PROOF. The statements of 41_ring: the cursor arithmetic, the queries, each command of the general ring and of the
pool ring, and what runs of them do to the queue. -/
namespace Sys2Proof.Machine

/-! ### The arithmetic of the cursors (41_ring R153) -/

theorem ringNext_eq_succ_or_zero {n c : Nat} (h : c < n) : ringNext n c = if c < n - 1 then c + 1 else 0 := by
  rw [ringNext_eq h]
  split <;> split <;> omega

theorem ringSize_eq_mod {n r w : Nat} (hr : r < n) (hw : w < n) : ringSize n r w = (w + (n - r)) % n := by
  unfold ringSize
  split
  · rw [show w + (n - r) = w - r + n by omega, Nat.add_mod_right, Nat.mod_eq_of_lt (by omega)]
  · rw [Nat.mod_eq_of_lt (by omega), Nat.add_sub_assoc hr.le]

/-- Settles O9: empty is size 0 and full is size `N - 1`, so no ring of two slots or more is both. -/
theorem ringArithmetic : Obligations.RingArithmetic := by
  intro n r w hn hr hw
  have hempty := ringSize_eq_zero (w := w) hr
  have hfull := ringFull_iff hr hw
  have hlt := ringSize_lt hr hw
  refine ⟨ringNext_eq_succ_or_zero hw, rfl, rfl, ringSize_eq_mod hr hw, by omega, ringEmpty_iff,
    ringEmpty_iff.trans hempty.symm, beq_iff_eq, hfull.trans (by omega), ?_⟩
  rintro ⟨he, hf⟩
  have hzero := hempty.2 (ringEmpty_iff.1 he)
  have hlast := hfull.1 hf
  omega

/-! ### The queries (41_ring R160 to R162, R167 to R169) -/

theorem mem_bothPorts (q : PortId) : q ∈ [PortId.p, PortId.c] := by cases q <;> simp

theorem fieldBool_isEmpty (b : Base) :
    fieldBool (isEmpty b) = [if b.ring.readPos = b.ring.writePos then 1#8 else 0#8] := by
  simp only [fieldBool, ringIsEmpty_iff]

theorem fieldBool_isFull (b : Base) :
    fieldBool (isFull b) = [if ringNext b.straps.n b.ring.writePos = b.ring.readPos then 1#8 else 0#8] := by
  simp only [fieldBool, ringIsFull_iff]

/-- A query on either port of an instance of its kind answers. -/
theorem accept_query {s : State} {k : Kind} {q : PortId} (h : Serves s k q) (fields : List Byte) :
    accept k [.p, .c] s (.next (s.answer (okay fields))) = .next (s.answer { status := .ok, fields := fields }) :=
  accept_run _ h (mem_bothPorts q)

/-- Settles O11: every query is accepted on both ports and sends the value of the cursors. -/
theorem ringQueries : Obligations.RingQueries := by
  simp only [Obligations.RingQueries, ← fieldBool_isEmpty, ← fieldBool_isFull]
  exact ⟨fun s q h => ⟨accept_query h _, accept_query h _, accept_query h _⟩,
    fun s q h => ⟨accept_query h _, accept_query h _, accept_query h _⟩,
    fun s q h => accept_query h _, fun s q h => accept_query h _⟩

/-! ### The commands of a general ring (41_ring R156, R158, R159), by what the ring answers -/

section
variable {i : RgInst} {v : Nat}

theorem rgPush_overwide (hv : 2 ^ i.base.straps.elemW ≤ v) : rgPush i v = .ok (i, bare .illegal) := if_pos hv

theorem rgPush_full (hv : v < 2 ^ i.base.straps.elemW) (hf : isFull i.base = true) :
    rgPush i v = .ok (i, bare .ringFull) := by
  rw [rgPush, if_neg (Nat.not_le.2 hv), if_pos hf]

theorem rgPush_room (hv : v < 2 ^ i.base.straps.elemW) (hf : isFull i.base = false)
    (hw : i.base.ring.writePos < i.slots.length) : rgPush i v =
      .ok ({ base := published i.base, slots := i.slots.set i.base.ring.writePos (some v) }, okay []) := by
  simp [rgPush, Nat.not_le.2 hv, hf, slotAt_lt hw]

theorem rgPop_empty (he : isEmpty i.base = true) : rgPop i = .ok (i, bare .none) := if_pos he

theorem rgFront_empty (he : isEmpty i.base = true) : rgFront i = .ok (i, bare .none) := if_pos he

theorem rgPop_live (he : isEmpty i.base = false) (hv : i.slots[i.base.ring.readPos]? = some (some v)) : rgPop i =
    .ok ({ base := released i.base, slots := i.slots.set i.base.ring.readPos none },
      okay (fieldValue i.base.straps.elemW v)) := by
  simp [rgPop, he, slotAt_ok.2 hv]

theorem rgFront_live (he : isEmpty i.base = false) (hv : i.slots[i.base.ring.readPos]? = some (some v)) :
    rgFront i = .ok (i, okay (fieldValue i.base.straps.elemW v)) := by
  simp [rgFront, he, slotAt_ok.2 hv]

end

section
variable {s : State}

theorem exec_rgPush (v : Nat) (h : Serves s .rg .p) : exec (.rgPush v) s = finishRg s (rgPush s.rg v) :=
  accept_run _ h List.mem_cons_self

theorem exec_rgPop (h : Serves s .rg .c) : exec .rgPop s = finishRg s (rgPop s.rg) :=
  accept_run _ h List.mem_cons_self

theorem exec_rgFront (h : Serves s .rg .c) : exec .rgFront s = finishRg s (rgFront s.rg) :=
  accept_run _ h List.mem_cons_self

theorem exec_rpPush (h : Serves s .pool .p) : exec .rpPush s = finishPool s (poolPush s.pool) :=
  accept_run _ h List.mem_cons_self

theorem exec_rpPop (h : Serves s .pool .c) : exec .rpPop s = finishPool s (poolPop s.pool) :=
  accept_run _ h List.mem_cons_self

theorem exec_rpFront (h : Serves s .pool .c) : exec .rpFront s = finishPool s (poolFront s.pool) :=
  accept_run _ h List.mem_cons_self

end

/-- A full general ring answers `ST_RING_FULL` and keeps its state (41_ring R172). -/
theorem exec_rgPush_full {s : State} {v : Nat} (hs : Serves s .rg .p) (hv : v < 2 ^ s.rg.base.straps.elemW)
    (hf : isFull s.rg.base = true) : exec (.rgPush v) s = .next (s.answer (bare .ringFull)) := by
  rw [exec_rgPush v hs, rgPush_full hv hf]; rfl

/-- Settles O12: over-wide, full, or stored in the slot at `write_pos`. -/
theorem rgPush_outcomes : Obligations.RgPush := by
  intro s v h hw
  refine ⟨fun hv => ?_, fun hv hf => exec_rgPush_full h hv (ringIsFull_iff.2 hf), fun hv hf => ?_⟩
  · rw [exec_rgPush v h, rgPush_overwide hv]; rfl
  · rw [exec_rgPush v h, rgPush_room hv (ringIsFull_false.2 hf) hw]; rfl

/-- Settles O13: both commands answer nothing of an empty ring, and the element at `read_pos` of any other. -/
theorem rgPopFront : Obligations.RgPopFront := by
  intro s h
  rw [exec_rgPop h, exec_rgFront h]
  refine ⟨fun he => ?_, fun v he hv => ?_⟩
  · rw [rgPop_empty (ringIsEmpty_iff.2 he), rgFront_empty (ringIsEmpty_iff.2 he)]
    exact ⟨rfl, rfl⟩
  · rw [rgPop_live (ringIsEmpty_false.2 he) hv, rgFront_live (ringIsEmpty_false.2 he) hv]
    exact ⟨rfl, rfl⟩

/-! ### The ring commands of a pool (41_ring R164 to R166), by what the ring answers -/

section
variable {i : PoolInst}

theorem poolPush_full (hf : isFull i.base = true) : poolPush i = .ok (i, bare .ringFull) := if_pos hf

theorem poolPush_room (hf : isFull i.base = false) :
    poolPush i = .ok ({ i with base := published i.base }, okay []) := if_neg (by simp [hf])

theorem poolPop_empty (he : isEmpty i.base = true) : poolPop i = .ok (i, bare .none) := if_pos he

theorem poolPop_queued (he : isEmpty i.base = false) :
    poolPop i = .ok ({ i with base := released i.base }, okay []) := if_neg (by simp [he])

theorem poolFront_empty (he : isEmpty i.base = true) : poolFront i = .ok (i, bare .none) := if_pos he

theorem poolFront_queued {sl : Slot} (he : isEmpty i.base = false) (hsl : i.slots[i.base.ring.readPos]? = some sl) :
    poolFront i = .ok (i, okay (fieldBytes (content sl))) := by
  simp [poolFront, he, slotAt_ok.2 hsl]

end

/-- The content of a slot as a response field: its size and its bytes from the first on. -/
theorem fieldBytes_content (sl : Slot) :
    fieldBytes (content sl) = leBytes 4 sl.size ++ (List.range sl.size).map (byteAt sl) := by
  simp [fieldBytes, fieldU32, content, readRun]

/-- A full pool answers `ST_RING_FULL` and keeps its state (41_ring R172). -/
theorem exec_rpPush_full {s : State} (hs : Serves s .pool .p) (hf : isFull s.pool.base = true) :
    exec .rpPush s = .next (s.answer (bare .ringFull)) := by
  rw [exec_rpPush hs, poolPush_full hf]; rfl

/-- Settles O16: full, or the cursor is published and no slot touched. -/
theorem rpPush : Obligations.RpPush := by
  intro s h
  refine ⟨fun hf => exec_rpPush_full h (ringIsFull_iff.2 hf), fun hf => ?_⟩
  rw [exec_rpPush h, poolPush_room (ringIsFull_false.2 hf)]
  rfl

/-- Settles O17: both commands answer nothing of an empty ring; of any other, one releases and the other reads. -/
theorem rpPopFront : Obligations.RpPopFront := by
  intro s h
  rw [exec_rpPop h, exec_rpFront h]
  refine ⟨fun he => ?_, fun he => ⟨?_, fun sl hsl => ?_⟩⟩
  · rw [poolPop_empty (ringIsEmpty_iff.2 he), poolFront_empty (ringIsEmpty_iff.2 he)]
    exact ⟨rfl, rfl⟩
  · rw [poolPop_queued (ringIsEmpty_false.2 he)]; rfl
  · rw [poolFront_queued (ringIsEmpty_false.2 he) hsl, fieldBytes_content]; rfl

/-! ### The queue of a general ring (41_ring R171, R173) -/

/-- The queue reads the straps, the cursors and the slots. -/
theorem rgQueue_congr {i j : RgInst} (hst : j.base.straps = i.base.straps) (hring : j.base.ring = i.base.ring)
    (hsl : j.slots = i.slots) : rgQueue j = rgQueue i := by
  rw [rgQueue, rgQueue, hring, hsl, queuedIdx_congr _ hst hring]

/-- A slot that is not consumer-owned does not show in the queue. -/
theorem map_slots_set {slots : List (Option Nat)} {is : List Nat} {j : Nat} (e : Option Nat) (h : j ∉ is) :
    is.map (fun k => ((slots.set j e)[k]?).join) = is.map fun k => (slots[k]?).join := by
  refine List.map_congr_left fun k hk => ?_
  have hne : j ≠ k := fun hjk => h (hjk ▸ hk)
  rw [List.getElem?_set_ne hne]

section
variable {i : RgInst} {v : Nat}

theorem rgQueue_pushed (hr : RingOk i.base) (hl : i.slots.length = i.base.straps.n) (hf : isFull i.base = false) :
    rgQueue { base := published i.base, slots := i.slots.set i.base.ring.writePos (some v) } =
      rgQueue i ++ [some v] := by
  obtain ⟨hread, hwrite, -⟩ := hr
  simp only [rgQueue, published_writePos, queuedIdx_published hread hwrite hf, List.map_append, List.map_singleton]
  rw [map_slots_set _ (writePos_not_queued hread hwrite), List.getElem?_set_self (hl ▸ hwrite), Option.join_some]

theorem rgQueue_popped (hr : RingOk i.base) (he : isEmpty i.base = false)
    (hv : i.slots[i.base.ring.readPos]? = some (some v)) :
    rgQueue i = some v :: rgQueue { base := released i.base, slots := i.slots.set i.base.ring.readPos none } := by
  obtain ⟨hread, hwrite, -⟩ := hr
  have hne := ringIsEmpty_false.1 he
  simp only [rgQueue, released_writePos, queuedIdx_released hread hwrite hne, List.map_cons, hv, Option.join_some]
  rw [map_slots_set _ (readPos_not_queued_released hread hwrite hne)]

theorem rgQueue_empty (he : isEmpty i.base = true) : rgQueue i = [] := by
  simp [rgQueue, queuedIdx, ringIsEmpty_iff.1 he]

theorem RgOk.ring (h : RgOk i) (hc : i.base.configured = true) :
    RingOk i.base ∧ i.slots.length = i.base.straps.n := by
  obtain ⟨-, hrun, -⟩ := h
  obtain ⟨hr, hl, -⟩ := hrun hc
  exact ⟨hr, hl⟩

end

/-! ### What an answer leaves of the rings -/

theorem samePorted_answer (s : State) (r : Response) (k : Kind) : SamePorted (s.base k) ((s.answer r).base k) :=
  ⟨answer_straps s r k, answer_configured s r k, answer_ring s r k⟩

theorem answer_rg (s : State) (r : Response) : (s.answer r).rg = { s.rg with base := (s.answer r).base .rg } := by
  obtain ⟨-, -, -, hrg, -⟩ := answerTouchesOnlyServedPort.1 s r
  exact hrg

theorem answer_pool (s : State) (r : Response) :
    (s.answer r).pool = { s.pool with base := (s.answer r).base .pool } := by
  obtain ⟨-, -, -, -, hpool, -⟩ := answerTouchesOnlyServedPort.1 s r
  exact hpool

theorem RgOk.answer {s : State} (h : RgOk s.rg) (r : Response) : RgOk (s.answer r).rg := by
  rw [answer_rg]
  exact h.ported (samePorted_answer s r .rg)

theorem rgQueue_answer (s : State) (r : Response) : rgQueue (s.answer r).rg = rgQueue s.rg := by
  obtain ⟨hst, -, hring⟩ := samePorted_answer s r .rg
  rw [answer_rg]
  exact rgQueue_congr hst hring rfl

@[simp] theorem answer_pool_slots (s : State) (r : Response) : (s.answer r).pool.slots = s.pool.slots := by
  rw [answer_pool]

/-- What a port has sent once it has answered, when the command itself sent nothing. -/
theorem Serves.answer_tx {s s' : State} {k : Kind} {q : PortId} (h : Serves s k q) (hsel : s'.sel = s.sel)
    (hport : s'.port k q = s.port k q) (r : Response) :
    ((s'.answer r).port k q).tx = (s.port k q).tx ++ responseBytes r := by
  obtain ⟨-, hk, hq⟩ := h
  have htx := answer_served_tx s' r
  rwa [hsel, hk, hq, hport] at htx

/-! ### One push, and runs of pushes (41_ring R172) -/

/-- `t` is `s` after `m` pushes on port `P`, each of them answered `ST_OK`, as far as every ring shows it. -/
structure PushedBy (k : Kind) (m : Nat) (s t : State) : Prop where
  serves : Serves t k .p
  ring : RingOk (t.base k)
  straps : (t.base k).straps = (s.base k).straps
  size : queueSize (t.base k) = queueSize (s.base k) + m
  sent : (t.port k .p).tx = (s.port k .p).tx ++ List.replicate m 0#8

section
variable {k : Kind} {m m' : Nat} {s t u : State}

theorem PushedBy.refl (h : Serves s k .p) (hr : RingOk (s.base k)) : PushedBy k 0 s s := ⟨h, hr, rfl, rfl, by simp⟩

theorem PushedBy.trans (h : PushedBy k m s t) (h' : PushedBy k m' t u) : PushedBy k (m + m') s u where
  serves := h'.serves
  ring := h'.ring
  straps := h'.straps.trans h.straps
  size := by rw [h'.size, h.size, Nat.add_assoc]
  sent := by rw [h'.sent, h.sent, List.append_assoc, List.replicate_append_replicate]

theorem queueSize_empty {b : Base} (he : isEmpty b = true) : queueSize b = 0 := by
  rw [queueSize, ringIsEmpty_iff.1 he, ringSize_self]

/-- A ring is full when `N - 1` slots are queued (41_ring R153). -/
theorem RingOk.isFull_iff {b : Base} (h : RingOk b) : isFull b = true ↔ queueSize b + 1 = b.straps.n :=
  ringFull_iff h.1 h.2.1

/-- A ring with room for another slot is not full. -/
theorem RingOk.not_full {b : Base} (h : RingOk b) (hroom : queueSize b + 1 < b.straps.n) : isFull b = false := by
  rw [← Bool.not_eq_true, h.isFull_iff]
  omega

/-- An empty ring is full after `N - 1` pushes. -/
theorem PushedBy.full (h : PushedBy k m s t) (he : isEmpty (s.base k) = true) (hm : m + 1 = (s.base k).straps.n) :
    isFull (t.base k) = true := by
  rw [h.ring.isFull_iff, h.size, h.straps, queueSize_empty he, ← hm, Nat.zero_add]

/-- A publish of the served ring which is then answered `ST_OK` is one push. -/
theorem PushedBy.published (h : Serves s k .p) (hr : RingOk (s.base k)) (hf : isFull (s.base k) = false)
    (hsel : t.sel = s.sel) (hbase : t.base k = published (s.base k)) : PushedBy k 1 s (t.answer (okay [])) := by
  obtain ⟨hst, hcfg, hring⟩ := samePorted_answer t (okay []) k
  rw [hbase] at hst hcfg hring
  refine ⟨?_, (hr.published hf).congr hst hring, hst, ?_, ?_⟩
  · obtain ⟨hc, hk, hq⟩ := h
    exact ⟨hcfg.trans hc, by rw [answer_sel, hsel, hk], by rw [answer_sel, hsel, hq]⟩
  · rw [queueSize, hst, hring]
    exact ringSize_next_write hr.1 hr.2.1 hf
  · exact h.answer_tx hsel (by rw [State.port, hbase]; rfl) _

end

section
variable {s : State}

/-- A general ring with room takes a push: the value joins the queue, and the invariant stays. -/
theorem exec_rgPush_room {v : Nat} (h : RgOk s.rg) (hs : Serves s .rg .p) (hv : v < 2 ^ s.rg.base.straps.elemW)
    (hf : isFull s.rg.base = false) :
    ∃ t, exec (.rgPush v) s = .next t ∧ PushedBy .rg 1 s t ∧ RgOk t.rg ∧
      rgQueue t.rg = rgQueue s.rg ++ [some v] := by
  obtain ⟨hc, -, -⟩ := id hs
  obtain ⟨hr, hl⟩ := h.ring hc
  rw [exec_rgPush v hs, rgPush_room hv hf (hl ▸ hr.2.1)]
  exact ⟨_, rfl, .published hs hr hf rfl rfl, RgOk.answer (h.push hc hf hv) _,
    (rgQueue_answer _ _).trans (rgQueue_pushed hr hl hf)⟩

/-- A general ring that is not empty gives the front of its queue. -/
theorem exec_rgPop_queued (h : RgOk s.rg) (hs : Serves s .rg .c) (he : isEmpty s.rg.base = false) :
    ∃ v t, exec .rgPop s = .next t ∧ rgQueue s.rg = some v :: rgQueue t.rg ∧
      (t.port .rg .c).tx = (s.port .rg .c).tx ++ 0#8 :: leBytes (valueBytes s.rg.base.straps.elemW) v := by
  obtain ⟨hc, -, -⟩ := id hs
  obtain ⟨hr, -⟩ := h.ring hc
  obtain ⟨v, hv, -⟩ := h.front hc he
  rw [exec_rgPop hs, rgPop_live he hv]
  refine ⟨v, _, rfl, ?_, hs.answer_tx ?_ ?_ (okay (fieldValue s.rg.base.straps.elemW v))⟩
  · rw [rgQueue_answer]
    exact rgQueue_popped hr he hv
  · rfl
  · rfl

/-- A pool with room takes a push, and keeps every slot. -/
theorem exec_rpPush_room (hr : RingOk s.pool.base) (hs : Serves s .pool .p) (hf : isFull s.pool.base = false) :
    ∃ t, exec .rpPush s = .next t ∧ PushedBy .pool 1 s t ∧ t.pool.slots = s.pool.slots := by
  rw [exec_rpPush hs, poolPush_room hf]
  exact ⟨_, rfl, .published hs hr hf rfl rfl, answer_pool_slots _ _⟩

end

/-- Settles O14: a publish adds `write_pos` to the consumer-owned indices, a release takes `read_pos` away. -/
theorem rgFifo : Obligations.RgFifo := by
  refine fun s h => ⟨fun v hs hv hf => ?_, fun hs he => exec_rgPop_queued h hs he⟩
  obtain ⟨t, hexec, -, -, hqueue⟩ := exec_rgPush_room h hs hv hf
  exact ⟨t, hexec, hqueue⟩

/-- A general ring takes as many values as it has room for. -/
theorem runAll_rgPush {s : State} {vs : List Nat} (h : RgOk s.rg) (hs : Serves s .rg .p)
    (hfit : ∀ x ∈ vs, x < 2 ^ s.rg.base.straps.elemW)
    (hroom : queueSize s.rg.base + vs.length < s.rg.base.straps.n) :
    ∃ t, runAll (vs.map .rgPush) s = .next t ∧ PushedBy .rg vs.length s t ∧
      rgQueue t.rg = rgQueue s.rg ++ vs.map some := by
  induction vs generalizing s with
  | nil => exact ⟨s, rfl, .refl hs (h.ring hs.1).1, by simp⟩
  | cons v vs ih =>
    obtain ⟨hv, hvs⟩ := List.forall_mem_cons.1 hfit
    rw [List.length_cons] at hroom
    obtain ⟨t, hexec, hpush, ht, hqt⟩ := exec_rgPush_room h hs hv ((h.ring hs.1).1.not_full (by omega))
    have hst : t.rg.base.straps = s.rg.base.straps := hpush.straps
    have hsize : queueSize t.rg.base = queueSize s.rg.base + 1 := hpush.size
    obtain ⟨u, hrun, hpushes, hqu⟩ := ih ht hpush.serves (by rwa [hst]) (by rw [hst]; omega)
    refine ⟨u, by rw [List.map_cons, runAll_cons_next hexec, hrun], ?_, by simp [hqu, hqt]⟩
    rw [List.length_cons, Nat.add_comm]
    exact hpush.trans hpushes

/-- A pool takes as many pushes as it has room for, and keeps every slot. -/
theorem runAll_rpPush {s : State} {m : Nat} (hr : RingOk s.pool.base) (hs : Serves s .pool .p)
    (hroom : queueSize s.pool.base + m < s.pool.base.straps.n) :
    ∃ t, runAll (List.replicate m .rpPush) s = .next t ∧ PushedBy .pool m s t ∧ t.pool.slots = s.pool.slots := by
  induction m generalizing s with
  | zero => exact ⟨s, rfl, .refl hs hr, rfl⟩
  | succ m ih =>
    obtain ⟨t, hexec, hpush, hst⟩ := exec_rpPush_room hr hs (hr.not_full (by omega))
    have hstraps : t.pool.base.straps = s.pool.base.straps := hpush.straps
    have hsize : queueSize t.pool.base = queueSize s.pool.base + 1 := hpush.size
    obtain ⟨u, hrun, hpushes, hsu⟩ := ih hpush.ring hpush.serves (by rw [hstraps]; omega)
    refine ⟨u, by rw [List.replicate_succ, runAll_cons_next hexec, hrun], ?_, hsu.trans hst⟩
    rw [Nat.add_comm]
    exact hpush.trans hpushes

/-- Settles O15: `N - 1` pushes find room, by induction on the pushes, and leave the ring full. -/
theorem fullEmptyBoundary : Obligations.FullEmptyBoundary := by
  refine ⟨fun s vs v h hs he hn hfit hv => ?_, fun s h hs he => ?_⟩
  · have hzero := queueSize_empty he
    obtain ⟨t, hrun, hpushes, hqueue⟩ := runAll_rgPush h hs hfit (by omega)
    have hvt : v < 2 ^ t.rg.base.straps.elemW := by rwa [show t.rg.base.straps = s.rg.base.straps from hpushes.straps]
    exact ⟨t, hrun, hpushes.sent, by rw [hqueue, rgQueue_empty he, List.nil_append],
      exec_rgPush_full hpushes.serves hvt (hpushes.full he hn)⟩
  · have hr : RingOk s.pool.base := InstOk.ring h hs.1
    have hzero := queueSize_empty he
    have hn : s.pool.base.straps.n - 1 + 1 = s.pool.base.straps.n := Nat.sub_add_cancel (Nat.one_le_of_lt hr.1)
    obtain ⟨t, hrun, hpushes, hslots⟩ := runAll_rpPush (m := s.pool.base.straps.n - 1) hr hs (by omega)
    exact ⟨t, hrun, hpushes.sent, hslots, by rw [← base_pool t, hpushes.size, base_pool, hzero, Nat.zero_add],
      exec_rpPush_full hpushes.serves (hpushes.full he hn)⟩

end Sys2Proof.Machine
end

section
/-! PROOF. The statements of 42_decoder_base: the commands of a decoder by what its ring and its current slot answer,
what an error and a commit leave, what each event adds to the counter and the reports, and that a push may be cut in
two. -/
namespace Sys2Proof.Machine

/-! ### The commands on port `C` and the error counter (42_decoder_base R204 to R209) -/

section
variable {d : DecInst} {sl : Slot}

theorem decPop_empty (he : isEmpty d.base = true) : decPop d = .ok (d, bare .none) := if_pos he

theorem decPeek_empty (he : isEmpty d.base = true) : decPeek d = .ok (d, bare .none) := if_pos he

theorem decFront_slot (hsl : d.slots[d.base.ring.readPos]? = some sl) : decFront d = .ok (content sl) := by
  rw [decFront, slotAt_ok.2 hsl]

theorem decPop_queued (he : isEmpty d.base = false) (hsl : d.slots[d.base.ring.readPos]? = some sl) :
    decPop d = .ok ({ d with base := released d.base }, okay (fieldBytes (content sl))) := by
  simp [decPop, he, decFront_slot hsl]

theorem decPeek_queued (he : isEmpty d.base = false) (hsl : d.slots[d.base.ring.readPos]? = some sl) :
    decPeek d = .ok (d, okay (fieldBytes (content sl))) := by
  simp [decPeek, he, decFront_slot hsl]

/-- A decoder of the invariant publishes no empty frame (42_decoder_base R191). -/
theorem DecOk.front_size_pos (h : DecOk d) (hc : d.base.configured = true) (he : isEmpty d.base = false)
    (hsl : d.slots[d.base.ring.readPos]? = some sl) : 1 ≤ sl.size := by
  obtain ⟨hring, -, -, hfull, -⟩ := h.body hc
  exact hfull _ sl (hring.readPos_committed he) hsl

end

section
variable {s : State}

theorem exec_decPop (h : Serves s .dec .c) : exec .decPop s = finishDec s (decPop s.dec) :=
  accept_run _ h List.mem_cons_self

theorem exec_decPeek (h : Serves s .dec .c) : exec .decPeek s = finishDec s (decPeek s.dec) :=
  accept_run _ h List.mem_cons_self

theorem exec_decClear (h : Serves s .dec .c) : exec .decClear s = runDecClear s s.dec.base.ring.writePos :=
  accept_run _ h List.mem_cons_self

end

/-- Settles O25: both commands answer nothing of an empty ring, and the front slot of any other. -/
theorem decPopPeek : Obligations.DecPopPeek := by
  intro s h
  obtain ⟨hc, -, -⟩ := id h
  rw [exec_decPop h, exec_decPeek h]
  refine ⟨fun he => ?_, fun sl hne hsl => ?_⟩
  · rw [decPop_empty (ringIsEmpty_iff.2 he), decPeek_empty (ringIsEmpty_iff.2 he)]
    exact ⟨rfl, rfl⟩
  · have he := ringIsEmpty_false.2 hne
    rw [decPop_queued he hsl, decPeek_queued he hsl, fieldBytes_content]
    exact ⟨rfl, rfl, fun hok => Nat.one_le_iff_ne_zero.1 (hok.front_size_pos hc he hsl)⟩

/-- Settles O26: both commands are accepted on either port, and send the counter they find. -/
theorem errorCounter : Obligations.ErrorCounter := fun _ q h =>
  ⟨accept_query h _, accept_run _ h (mem_bothPorts q)⟩

/-- Settles O27: the whole turn releases the slots up to the snapshot, which is `write_pos`. -/
theorem decClear : Obligations.DecClear := by
  intro s h hwhole hr hw
  rw [exec_decClear h, runDecClear_whole hwhole hr hw, released_iterate_all hr hw]
  rfl

/-! ### Error entry and commit (42_decoder_base R196 to R200) -/

/-- Seeking sync, register by register: only those of the machine `PROTO` selects change. -/
theorem reseek_eq (d : DecInst) : reseek d = { d with
    s8 := if d.base.straps.proto = .simple8 then
        { d.s8 with inFrame := false, esc := false, holdValid := false } else d.s8
    s16 := if d.base.straps.proto = .simple16 then { d.s16 with st := .sync0 } else d.s16
    pkt := if d.base.straps.proto = .packet then { d.pkt with st := .magic0 } else d.pkt } := by
  unfold reseek
  split <;> simp [*]

theorem commit_full {d : DecInst} (h : isFull d.base = true) :
    commit d = (countError (reseek d) .ringFull 0#32, .ringFull) := if_pos h

theorem commit_room {d : DecInst} (h : isFull d.base = false) :
    commit d = ({ reseek d with base := published d.base }, .committed) := if_neg (by simp [h])

/-- Settles O39: each entry is `reseek` with a count and a report, or with a publish. -/
theorem commitAndErrorEntry : Obligations.CommitAndErrorEntry := by
  rintro d e rfl
  refine ⟨fun c => ?_, fun hfull => ?_, fun hroom => ?_⟩
  · rw [framingError, reseek_eq]; rfl
  · rw [commit_full hfull, reseek_eq]; rfl
  · rw [commit_room hroom, reseek_eq]

/-! ### One count and one report for every error (42_decoder_base R211, 60_exceptions R384) -/

/-- The report an event sends out; `noise` is the length that goes with `E_BAD_SYNC`. -/
def eventReport (noise : U32) : FrameEvent → Option Report
  | .none => none
  | .committed => none
  | .discarded c => some { cause := c, info := if c = .badSync then noise else 0#32 }
  | .ringFull => some { cause := .ringFull, info := 0#32 }

/-- The counter and the reports have grown by the report of the event, if it sends one. -/
def Counted (noise : U32) (d : DecInst) (r : DecInst × FrameEvent) : Prop :=
  match eventReport noise r.2 with
  | none => r.1.errCount = d.errCount ∧ r.1.reports = d.reports
  | some rep => r.1.errCount = satAdd d.errCount 1 ∧ r.1.reports = d.reports ++ [rep]

section
variable {noise : U32} {d e : DecInst}

theorem Counted.none (hc : e.errCount = d.errCount) (hr : e.reports = d.reports) : Counted noise d (e, .none) :=
  ⟨hc, hr⟩

theorem Counted.error {c : Cause} (hne : c ≠ .badSync) (hc : e.errCount = d.errCount) (hr : e.reports = d.reports) :
    Counted noise d (framingError e c) := by
  simp [Counted, eventReport, hne, hc, hr]

theorem Counted.commit (hc : e.errCount = d.errCount) (hr : e.reports = d.reports) :
    Counted noise d (commit e) := by
  rcases commit_cases e with ⟨-, h⟩ | ⟨-, h⟩ <;> simp [Counted, eventReport, h, hc, hr]

end

theorem s8End_counted (noise : U32) (d : DecInst) (cur : Slot) : Counted noise d (s8End d cur) := by
  unfold s8End
  split
  · split
    · exact .error (by decide) rfl rfl
    · split
      · exact .error (by decide) rfl rfl
      · exact .commit rfl rfl
  · split
    · exact .error (by decide) rfl rfl
    · exact .commit rfl rfl

theorem s8Data_counted (noise : U32) (d : DecInst) (cur : Slot) (b : Byte) : Counted noise d (s8Data d cur b) := by
  simp only [s8Data]
  split
  · split
    · split
      · exact .error (by decide) rfl rfl
      · exact .none rfl rfl
    · exact .none rfl rfl
  · split
    · exact .error (by decide) rfl rfl
    · exact .none rfl rfl

theorem feedS8_counted (noise : U32) (d : DecInst) (cur : Slot) (b : Byte) : Counted noise d (feedS8 d cur b) := by
  unfold feedS8
  split
  · split
    · exact ⟨framingError_errCount d _, framingError_reports d _⟩
    · exact .none rfl rfl
  · split
    · exact .none rfl rfl
    · split
      · split
        · exact .error (by decide) rfl rfl
        · exact s8End_counted noise d cur
      · split
        · split
          · exact .error (by decide) rfl rfl
          · exact .none rfl rfl
        · exact s8Data_counted noise d cur b

theorem s16Take_errors (d : DecInst) (cur : Slot) (b : Byte) :
    (s16Take d cur b).errCount = d.errCount ∧ (s16Take d cur b).reports = d.reports := by
  unfold s16Take
  split
  · split <;> exact ⟨rfl, rfl⟩
  · exact ⟨rfl, rfl⟩

/-- Simple16 reports the bytes it has ignored; the error that reports them leaves the machine in the frame. -/
theorem feedS16_counted (d : DecInst) (cur : Slot) (b : Byte) : Counted d.s16.ignored d (feedS16 d cur b) := by
  unfold feedS16
  split
  · unfold s16Sync0; split <;> exact .none rfl rfl
  · unfold s16Sync1
    split
    · split
      · exact ⟨rfl, rfl⟩
      · exact .none rfl rfl
    · split <;> exact .none rfl rfl
  · exact .none rfl rfl
  · simp only [s16LenHi]
    split
    · exact .error (by decide) rfl rfl
    · split
      · exact .error (by decide) rfl rfl
      · exact .none rfl rfl
  · obtain ⟨hc, hr⟩ := s16Take_errors d cur b
    simp only [s16Payload, s16End]
    split
    · split
      · exact .error (by decide) hc hr
      · exact .commit hc hr
    · exact .none hc hr

theorem pktPayload_counted (noise : U32) (d : DecInst) (cur : Slot) (b : Byte) :
    Counted noise d (pktPayload d cur b) := by
  simp only [pktPayload]
  split
  · split
    · exact .error (by decide) rfl rfl
    · split
      · exact .commit rfl rfl
      · exact .none rfl rfl
  · split
    · exact .commit rfl rfl
    · exact .none rfl rfl

theorem feedPkt_counted (noise : U32) (d : DecInst) (cur : Slot) (b : Byte) :
    Counted noise d (feedPkt d cur b) := by
  unfold feedPkt
  split
  · split <;> exact .none rfl rfl
  · unfold pktMagic1
    split
    · exact .none rfl rfl
    · split <;> exact .none rfl rfl
  · exact .none rfl rfl
  · exact .none rfl rfl
  · exact .none rfl rfl
  · simp only [pktLen0]
    split
    · exact .error (by decide) rfl rfl
    · split
      · exact .error (by decide) rfl rfl
      · exact .none rfl rfl
  · exact pktPayload_counted noise d cur b

theorem feedByte_counted (d : DecInst) (cur : Slot) (b : Byte) : Counted d.s16.ignored d (feedByte d cur b) := by
  unfold feedByte
  split
  · exact feedS8_counted _ d cur b
  · exact feedS16_counted d cur b
  · exact feedPkt_counted _ d cur b
  · exact .none rfl rfl

theorem decodeSeq_counted (noise : U32) (d : DecInst) (cur : Slot) (buf : List Byte) :
    Counted noise d (decodeSeq d cur buf) := by
  unfold decodeSeq
  split
  · split
    · exact .error (by decide) rfl rfl
    · split
      · exact .error (by decide) rfl rfl
      · split
        · exact .error (by decide) rfl rfl
        · exact .commit rfl rfl
  · exact .error (by decide) rfl rfl

theorem satAdd_toNat (x : U32) (k : Nat) : (satAdd x k).toNat = min (x.toNat + k) (2 ^ 32 - 1) := by
  rw [satAdd, BitVec.toNat_ofNat]
  exact Nat.mod_eq_of_lt (by omega)

/-- Settles O40: the clauses are the events of `Counted`. -/
theorem errorsCounted : Obligations.ErrorsCounted := by
  refine ⟨fun d cur ev d' hfed => ?_, fun x => satAdd_toNat x 1⟩
  have hcount : Counted d.s16.ignored d (d', ev) := by
    rcases hfed with ⟨b, h⟩ | ⟨buf, h⟩ <;> rw [← h]
    · exact feedByte_counted d cur b
    · exact decodeSeq_counted _ d cur buf
  refine ⟨?_, fun c => ?_⟩
  · rintro (rfl | rfl)
    · exact hcount
    · exact hcount
  · rintro (rfl | ⟨rfl, rfl⟩)
    · exact hcount
    · exact hcount

/-! ### A datagram (44_framing_decode R314, 42_decoder_base R192) -/

/-- Filling a slot keeps the most it can hold. -/
@[simp] theorem slotFill_max (kind : SlotKind) (sl : Slot) (bs : List Byte) : (slotFill kind sl bs).max = sl.max := by
  show ((slotAlloc kind sl.fill sl bs.length).getD sl).max = sl.max
  cases h : slotAlloc kind sl.fill sl bs.length with
  | none => rfl
  | some sl' =>
    obtain ⟨-, -, hmax, -⟩ := slotAlloc_some h
    exact hmax

/-- SeqPacket has no parse state to put back. -/
theorem reseek_seqpacket {d : DecInst} (h : d.base.straps.proto = .seqpacket) : reseek d = d := by simp [reseek, h]

section
variable (d : DecInst) (cur : Slot)

theorem decodeSeq_short {buf : List Byte} (h : buf.length < 3) :
    decodeSeq d cur buf = framingError d .shortHeader := by
  match buf, h with
  | [], _ => rfl
  | [_], _ => rfl
  | [_, _], _ => rfl

/-- The checks of a datagram with a header, on its length field as a number. -/
theorem decodeSeq_header (h2 h1 h0 : Byte) (body : List Byte) : decodeSeq d cur (h2 :: h1 :: h0 :: body) =
    if h2.toNat * 65536 + h1.toNat * 256 + h0.toNat ≠ body.length then framingError d .lenMismatch
    else if h2.toNat * 65536 + h1.toNat * 256 + h0.toNat = 0 then framingError d .emptyFrame
    else if d.base.straps.maxPayload < h2.toNat * 65536 + h1.toNat * 256 + h0.toNat then framingError d .oversize
    else commit (setCur d (slotFill d.base.straps.slotKind cur body)) := by
  simp only [decodeSeq, unBe24_toNat, Nat.mul_comm]

/-- The datagrams that are discarded, and why: the first check that fails (44_framing_decode R314). -/
def DatagramFails (maxPayload : Nat) (buf : List Byte) (c : Cause) : Prop :=
  (buf.length < 3 ∧ c = .shortHeader) ∨
    ∃ (h2 h1 h0 : Byte) (body : List Byte), buf = h2 :: h1 :: h0 :: body ∧
      ((h2.toNat * 65536 + h1.toNat * 256 + h0.toNat ≠ body.length ∧ c = .lenMismatch) ∨
        (h2.toNat * 65536 + h1.toNat * 256 + h0.toNat = body.length ∧ body = [] ∧ c = .emptyFrame) ∨
        (h2.toNat * 65536 + h1.toNat * 256 + h0.toNat = body.length ∧
          maxPayload < body.length ∧ body ≠ [] ∧ c = .oversize))

theorem decodeSeq_fails {buf : List Byte} {c : Cause} (h : DatagramFails d.base.straps.maxPayload buf c) :
    decodeSeq d cur buf = framingError d c := by
  rcases h with ⟨hshort, rfl⟩ | ⟨h2, h1, h0, body, rfl, h⟩
  · exact decodeSeq_short d cur hshort
  · rw [decodeSeq_header]
    rcases h with ⟨hlen, rfl⟩ | ⟨hlen, rfl, rfl⟩ | ⟨hlen, hmax, hbody, rfl⟩
    · exact if_pos hlen
    · rw [hlen, if_neg (by simp), if_pos List.length_nil]
    · rw [hlen, if_neg (by simp), if_neg (by simpa using hbody), if_pos hmax]

theorem decodeSeq_good {h2 h1 h0 : Byte} {body : List Byte}
    (hlen : h2.toNat * 65536 + h1.toNat * 256 + h0.toNat = body.length) (hbody : body ≠ [])
    (hmax : body.length ≤ d.base.straps.maxPayload) : decodeSeq d cur (h2 :: h1 :: h0 :: body) =
      commit (setCur d (slotFill d.base.straps.slotKind cur body)) := by
  rw [decodeSeq_header, hlen, if_neg (by simp), if_neg (by simpa using hbody), if_neg (Nat.not_lt.2 hmax)]

end

/-- The response to a push of one datagram, by its event. -/
def datagramResponse (errFatal : Bool) (consumed : Nat) (ev : FrameEvent) : Response :=
  (eventEnds errFatal consumed ev).getD (okay (pushFields consumed 0#8))

/-- A discarded datagram is answered as fatal, or with `ST_OK`, as the strap says (42_decoder_base R192, R213). -/
theorem datagramResponse_discarded (errFatal : Bool) (consumed : Nat) (c : Cause) :
    datagramResponse errFatal consumed (.discarded c) =
      if errFatal then { status := .framingFatal, fields := pushFields consumed (causeCode c) }
      else okay (pushFields consumed 0#8) := by
  cases errFatal <;> rfl

theorem exec_decPush {s : State} (buf : List Byte) (h : Serves s .dec .p) :
    exec (.decPush buf) s = runPush s { rest := buf, consumed := 0 } := accept_run _ h List.mem_cons_self

/-- A push on SeqPacket is one atomic step: the datagram and its response. -/
theorem exec_decPush_datagram {s : State} {cur : Slot} (buf : List Byte) (h : Serves s .dec .p)
    (hwhole : WholeTurn s) (hproto : s.dec.base.straps.proto = .seqpacket)
    (hcur : s.dec.slots[s.dec.base.ring.writePos]? = some cur) :
    exec (.decPush buf) s = .next (State.answer
      { s with dec := { (decodeSeq s.dec cur buf).1 with pushing := none } }
      (datagramResponse s.dec.base.straps.errFatal buf.length (decodeSeq s.dec cur buf).2)) := by
  have hatom : pushAtom { rest := buf, consumed := 0 } s.dec = .ok ((decodeSeq s.dec cur buf).1,
      .done (datagramResponse s.dec.base.straps.errFatal buf.length (decodeSeq s.dec cur buf).2)) := by
    simp only [pushAtom, hproto, if_true, slotAt_ok.2 hcur, Nat.zero_add, datagramResponse]
  rw [exec_decPush buf h, runPush, turnSteps, show s.sel.quantum = none from hwhole, Option.getD_none]
  simp only [drive, hatom, finishPush]

/-- Settles O23: the first check that fails is the error; a datagram that passes them all is committed. -/
theorem decPushDatagram : Obligations.DecPushDatagram := by
  intro s buf cur h hwhole hproto hcur hroom
  rw [exec_decPush_datagram buf h hwhole hproto hcur]
  refine ⟨fun c hfails => ?_, ?_⟩
  · rw [decodeSeq_fails _ _ hfails, framingError, reseek_seqpacket (d := countError _ _ _) hproto,
      datagramResponse_discarded]
    rfl
  · rintro h2 h1 h0 body rfl hlen hbody hmax
    rw [decodeSeq_good _ _ hlen hbody hmax]
    refine ⟨slotFill s.dec.base.straps.slotKind cur body, slotFill_content (hmax.trans hroom), slotFill_max _ _ _,
      fun hfull => ?_, fun hfree => ?_⟩
    · rw [commit_full (d := setCur _ _) hfull, reseek_seqpacket (d := setCur _ _) hproto]; rfl
    · rw [commit_room (d := setCur _ _) hfree, reseek_seqpacket (d := setCur _ _) hproto]; rfl

/-! ### What a push does not read: port `P` and the operation in progress on it

A second push runs on the decoder as the answer to the first one left it: with more bytes sent on port `P`. The decode
machines look at neither, so they commute with replacing both. -/

/-- A decoder with another port `P`, and another operation in progress there. -/
def DecInst.withPort (x : Port) (op : Option PushOp) (d : DecInst) : DecInst :=
  { d with base := { d.base with p := x }, pushing := op }

/-- What a byte leaves, with another port `P`. -/
def fedWithPort (x : Port) (op : Option PushOp) (r : DecInst × FrameEvent) : DecInst × FrameEvent :=
  (r.1.withPort x op, r.2)

/-- A choice commutes with a function that each of its branches commutes with. -/
theorem ite_eq_map {α β : Type} {c : Prop} [Decidable c] (f : α → β) {a a' : α} {b b' : β} (ha : b = f a)
    (hb : b' = f a') : (if c then b else b') = f (if c then a else a') := by
  rw [apply_ite f, ha, hb]

@[simp] theorem withPort_straps (x : Port) (op : Option PushOp) (d : DecInst) :
    (d.withPort x op).base.straps = d.base.straps := rfl
@[simp] theorem withPort_s8 (x : Port) (op : Option PushOp) (d : DecInst) : (d.withPort x op).s8 = d.s8 := rfl
@[simp] theorem withPort_s16 (x : Port) (op : Option PushOp) (d : DecInst) : (d.withPort x op).s16 = d.s16 := rfl
@[simp] theorem withPort_pkt (x : Port) (op : Option PushOp) (d : DecInst) : (d.withPort x op).pkt = d.pkt := rfl

section
variable {x : Port} {op : Option PushOp} {d e : DecInst}

theorem reseek_withPort (h : e = d.withPort x op) : reseek e = (reseek d).withPort x op := by
  subst h
  rw [reseek_eq, reseek_eq]
  rfl

theorem framingError_withPort {c : Cause} (h : e = d.withPort x op) :
    framingError e c = fedWithPort x op (framingError d c) := by
  subst h
  exact congrArg (·, FrameEvent.discarded c) (reseek_withPort rfl)

theorem commit_withPort (h : e = d.withPort x op) : commit e = fedWithPort x op (commit d) := by
  subst h
  rw [commit, reseek_withPort rfl]
  exact ite_eq_map _ rfl rfl

theorem s8Start_withPort (cur : Slot) (h : e = d.withPort x op) : s8Start e cur = (s8Start d cur).withPort x op := by
  subst h
  rfl

theorem s16End_withPort (h : e = d.withPort x op) : s16End e = fedWithPort x op (s16End d) := by
  subst h
  exact ite_eq_map _ (framingError_withPort rfl) (commit_withPort rfl)

end

section
variable (x : Port) (op : Option PushOp) (d : DecInst) (cur : Slot) (b : Byte)

theorem s8End_withPort : s8End (d.withPort x op) cur = fedWithPort x op (s8End d cur) :=
  ite_eq_map _
    (ite_eq_map _ (framingError_withPort rfl) (ite_eq_map _ (framingError_withPort rfl) (commit_withPort rfl)))
    (ite_eq_map _ (framingError_withPort rfl) (commit_withPort rfl))

theorem s8Data_withPort : s8Data (d.withPort x op) cur b = fedWithPort x op (s8Data d cur b) := by
  refine ite_eq_map _ (ite_eq_map _ ?_ rfl) ?_ <;> rw [withPort_straps, withPort_s8]
  · cases slotAppend d.base.straps.slotKind cur d.s8.hold with
    | none => exact framingError_withPort rfl
    | some cur' => rfl
  · cases slotAppend d.base.straps.slotKind cur (if d.s8.esc then b ^^^ 0x80#8 else b) with
    | none => exact framingError_withPort rfl
    | some cur' => rfl

theorem feedS8_withPort : feedS8 (d.withPort x op) cur b = fedWithPort x op (feedS8 d cur b) := by
  have herror := congrArg Prod.fst (framingError_withPort (c := .stxInFrame) (rfl : d.withPort x op = _))
  exact ite_eq_map _
    (ite_eq_map _ (congrArg (·, FrameEvent.discarded .stxInFrame) (s8Start_withPort cur herror)) rfl)
    (ite_eq_map _ rfl
      (ite_eq_map _ (ite_eq_map _ (framingError_withPort rfl) (s8End_withPort ..))
        (ite_eq_map _ (ite_eq_map _ (framingError_withPort rfl) rfl) (s8Data_withPort ..))))

theorem s16Take_withPort : s16Take (d.withPort x op) cur b = (s16Take d cur b).withPort x op :=
  ite_eq_map _ (ite_eq_map _ rfl rfl) rfl

theorem s16Payload_withPort : s16Payload (d.withPort x op) cur b = fedWithPort x op (s16Payload d cur b) := by
  simp only [s16Payload, s16Take_withPort]
  exact ite_eq_map _ (s16End_withPort rfl) rfl

theorem feedS16_withPort : feedS16 (d.withPort x op) cur b = fedWithPort x op (feedS16 d cur b) := by
  rw [feedS16, feedS16, withPort_s16]
  cases d.s16.st with
  | sync0 => exact ite_eq_map _ rfl rfl
  | sync1 => exact ite_eq_map _ (ite_eq_map _ rfl rfl) (ite_eq_map _ rfl rfl)
  | lenLo => rfl
  | lenHi => exact ite_eq_map _ (framingError_withPort rfl) (ite_eq_map _ (framingError_withPort rfl) rfl)
  | payload => exact s16Payload_withPort ..

theorem pktPayload_withPort : pktPayload (d.withPort x op) cur b = fedWithPort x op (pktPayload d cur b) :=
  ite_eq_map _
    (ite_eq_map _ (framingError_withPort rfl) (ite_eq_map _ (commit_withPort rfl) rfl))
    (ite_eq_map _ (commit_withPort rfl) rfl)

theorem feedPkt_withPort : feedPkt (d.withPort x op) cur b = fedWithPort x op (feedPkt d cur b) := by
  rw [feedPkt, feedPkt, withPort_pkt]
  cases d.pkt.st with
  | magic0 => exact ite_eq_map _ rfl rfl
  | magic1 => exact ite_eq_map _ rfl (ite_eq_map _ rfl rfl)
  | crc => rfl
  | len2 => rfl
  | len1 => rfl
  | len0 => exact ite_eq_map _ (framingError_withPort rfl) (ite_eq_map _ (framingError_withPort rfl) rfl)
  | payload => exact pktPayload_withPort ..

theorem feedByte_withPort : feedByte (d.withPort x op) cur b = fedWithPort x op (feedByte d cur b) := by
  rw [feedByte, feedByte, withPort_straps]
  cases d.base.straps.proto with
  | simple8 => exact feedS8_withPort ..
  | simple16 => exact feedS16_withPort ..
  | packet => exact feedPkt_withPort ..
  | seqpacket => rfl

end
/-! ### The loop of `DEC_PUSH` (42_decoder_base R192, R193) -/

section
variable {d : DecInst}

/-- What no fed byte changes, the loop does not change. -/
theorem pushLoop_keeps {α : Type} (f : DecInst → α) (hf : ∀ d cur b, f (feedByte d cur b).1 = f d) (consumed : Nat)
    (bs : List Byte) (h : Feedable d) : f (pushLoop d consumed bs).1 = f d := by
  induction bs generalizing d consumed with
  | nil => rfl
  | cons b bs ih =>
    obtain ⟨cur, hcur⟩ := h.cur
    rw [pushLoop_cons b bs consumed hcur]
    rcases eventEnds d.base.straps.errFatal (consumed + 1) (feedByte d cur b).2 with _ | r
    · exact (ih _ (h.feed (feedByte_frame d cur b))).trans (hf d cur b)
    · exact hf d cur b

/-- Where the loop over two runs of bytes absorbs them all, it is the loop over the first and then over the second. -/
theorem pushLoop_append {consumed : Nat} {as bs : List Byte} (h : Feedable d)
    (hok : (pushLoop d consumed (as ++ bs)).2.status = .ok) :
    (pushLoop d consumed as).2.status = .ok ∧
      pushLoop d consumed (as ++ bs) = pushLoop (pushLoop d consumed as).1 (consumed + as.length) bs := by
  induction as generalizing d consumed with
  | nil => exact ⟨rfl, rfl⟩
  | cons a as ih =>
    obtain ⟨cur, hcur⟩ := h.cur
    rw [List.cons_append, pushLoop_cons a _ consumed hcur] at hok
    rw [List.cons_append, pushLoop_cons a as consumed hcur, pushLoop_cons a (as ++ bs) consumed hcur]
    rcases hev : eventEnds d.base.straps.errFatal (consumed + 1) (feedByte d cur a).2 with _ | r <;> rw [hev] at hok
    · rw [List.length_cons, Nat.add_comm as.length, ← Nat.add_assoc]
      exact ih (h.feed (feedByte_frame d cur a)) hok
    · exact absurd hok (eventEnds_status hev)

/-- The loop reads neither port `P`, nor the operation in progress there, nor the number of bytes absorbed before. -/
theorem pushLoop_withPort (x : Port) (op : Option PushOp) (k k' : Nat) (bs : List Byte) (h : Feedable d) :
    (pushLoop (d.withPort x op) k' bs).1 = (pushLoop d k bs).1.withPort x op ∧
      (pushLoop (d.withPort x op) k' bs).2.status = (pushLoop d k bs).2.status := by
  induction bs generalizing d k k' with
  | nil => exact ⟨rfl, rfl⟩
  | cons b bs ih =>
    obtain ⟨cur, hcur⟩ := h.cur
    have hnext := h.feed (feedByte_frame d cur b)
    rw [pushLoop_cons b bs k hcur, pushLoop_cons (d := d.withPort x op) b bs k' hcur, feedByte_withPort,
      withPort_straps]
    generalize feedByte d cur b = fed at hnext ⊢
    obtain ⟨d', ev⟩ := fed
    cases ev with
    | none => exact ih _ _ hnext
    | committed => exact ih _ _ hnext
    | ringFull => exact ⟨rfl, rfl⟩
    | discarded c =>
      cases d.base.straps.errFatal with
      | false => exact ih _ _ hnext
      | true => exact ⟨rfl, rfl⟩

/-- A response that ends a push has a status and five bytes. -/
theorem eventEnds_responseBytes_length {errFatal : Bool} {consumed : Nat} {ev : FrameEvent} {r : Response}
    (h : eventEnds errFatal consumed ev = some r) : (responseBytes r).length = 6 := by
  cases ev with
  | none => cases h
  | committed => cases h
  | discarded c => cases errFatal <;> cases h; rfl
  | ringFull => cases h; rfl

theorem pushLoop_responseBytes_length (consumed : Nat) (bs : List Byte) (h : Feedable d) :
    (responseBytes (pushLoop d consumed bs).2).length = 6 := by
  induction bs generalizing d consumed with
  | nil => rfl
  | cons b bs ih =>
    obtain ⟨cur, hcur⟩ := h.cur
    rw [pushLoop_cons b bs consumed hcur]
    rcases hev : eventEnds d.base.straps.errFatal (consumed + 1) (feedByte d cur b).2 with _ | r
    · exact ih _ (h.feed (feedByte_frame d cur b))
    · exact eventEnds_responseBytes_length hev

end

/-! ### Two pushes and one (42_decoder_base R193) -/

/-- A decoder that has answered on port `P`. -/
def DecInst.sends (r : Response) (d : DecInst) : DecInst :=
  d.withPort { d.base.p with tx := d.base.p.tx ++ responseBytes r } d.pushing

/-- The decoder a push leaves that has its whole turn. -/
def DecInst.pushed (bs : List Byte) (d : DecInst) : DecInst := { (pushLoop d 0 bs).1 with pushing := none }

theorem answer_dec {s : State} (hk : s.sel.kind = .dec) (hq : s.sel.port = .p) (d : DecInst) (r : Response) :
    State.answer { s with dec := d } r = { s with dec := d.sends r } := by
  simp only [State.answer, hk, hq]
  rfl

/-- The decoder before an answer can be told from the one after it, and so can the answer, if its length is known. -/
theorem sends_inj {d e : DecInst} {r r' : Response} (hlen : (responseBytes r).length = (responseBytes r').length)
    (h : d.sends r = e.sends r') : d = e ∧ responseBytes r = responseBytes r' := by
  have htx : d.base.p.tx ++ responseBytes r = e.base.p.tx ++ responseBytes r' := congrArg (·.base.p.tx) h
  obtain ⟨htx, hbytes⟩ := List.append_inj' htx hlen
  have hrx : d.base.p.rx = e.base.p.rx := congrArg (·.base.p.rx) h
  have hport : d.base.p = e.base.p := by
    rw [show d.base.p = ⟨d.base.p.rx, d.base.p.tx⟩ from rfl, hrx, htx]
  have hop : d.pushing = e.pushing := congrArg (·.pushing) h
  refine ⟨?_, hbytes⟩
  calc d = (d.sends r).withPort d.base.p d.pushing := rfl
    _ = (e.sends r').withPort e.base.p e.pushing := by rw [h, hport, hop]
    _ = e := rfl

/-- `ST_OK` has a code of its own (30_encoding R118). -/
theorem status_ok_of_responseBytes {r r' : Response} (h : responseBytes r = responseBytes r') (hok : r'.status = .ok) :
    r.status = .ok := by
  have hcode : statusCode r.status = statusCode .ok := by rw [← hok]; exact (List.cons.inj h).1
  revert hcode
  cases r.status <;> decide

theorem exec_decPush_whole {s : State} (bs : List Byte) (hserve : Serves s .dec .p) (hwhole : WholeTurn s)
    (h : Feedable s.dec) :
    exec (.decPush bs) s = .next (State.answer { s with dec := s.dec.pushed bs } (pushLoop s.dec 0 bs).2) :=
  (exec_decPush bs hserve).trans (runPush_whole _ hwhole h)

/-- A push that absorbs all its bytes answers `ST_OK` and their number. -/
theorem exec_decPush_ok {s : State} {bs : List Byte} (hserve : Serves s .dec .p) (hwhole : WholeTurn s)
    (h : Feedable s.dec) (hok : (pushLoop s.dec 0 bs).2.status = .ok) :
    exec (.decPush bs) s = .next (State.answer { s with dec := s.dec.pushed bs }
      { status := .ok, fields := leBytes 4 bs.length ++ [0#8] }) := by
  rw [exec_decPush_whole bs hserve hwhole h, pushLoop_ok h hok, Nat.zero_add]
  rfl

/-- A push on the decoder that another push and its answer left: as one push of all the bytes, but for where on port `P`
the answer stands. -/
theorem pushed_sends_pushed {d : DecInst} {as bs : List Byte} (r : Response) (h : Feedable d)
    (hok : (pushLoop d 0 (as ++ bs)).2.status = .ok) :
    ((d.pushed as).sends r).pushed bs = (d.pushed (as ++ bs)).sends r ∧
      (pushLoop ((d.pushed as).sends r) 0 bs).2.status = .ok := by
  obtain ⟨-, happ⟩ := pushLoop_append h hok
  have hport : ∀ cs, (pushLoop d 0 cs).1.base.p = d.base.p := fun cs =>
    pushLoop_keeps (·.base.p) (fun d cur b => (feedByte_frame d cur b).portsKept.1) 0 cs h
  have hsends : ∀ cs, (d.pushed cs).sends r = (pushLoop d 0 cs).1.withPort
      { d.base.p with tx := d.base.p.tx ++ responseBytes r } none := fun cs => by rw [← hport cs]; rfl
  obtain ⟨hdec, hstatus⟩ := pushLoop_withPort { d.base.p with tx := d.base.p.tx ++ responseBytes r } none
    (0 + as.length) 0 bs (pushLoop_feedable 0 as h)
  rw [hsends, hsends, DecInst.pushed, hdec, hstatus, ← happ]
  exact ⟨rfl, hok⟩

/-- Settles O24: the loop over `a ++ b` is the loop over `a`, then over `b`, and does not see the answer between. -/
theorem burstIndependence : Obligations.BurstIndependence := by
  intro s a b d hserve hwhole hproto hlen hw hone
  obtain ⟨hc, hk, hq⟩ := id hserve
  have hfeed : Feedable s.dec := ⟨hproto, hlen, hw⟩
  obtain ⟨rfl, hok⟩ : s.dec.pushed (a ++ b) = d ∧ (pushLoop s.dec 0 (a ++ b)).2.status = .ok := by
    rw [exec_decPush_whole _ hserve hwhole hfeed, answer_dec hk hq, answer_dec hk hq] at hone
    obtain ⟨hdec, hbytes⟩ := sends_inj (pushLoop_responseBytes_length 0 _ hfeed)
      (congrArg State.dec (Host.Outcome.next.inj hone))
    exact ⟨hdec, status_ok_of_responseBytes hbytes rfl⟩
  obtain ⟨hoka, -⟩ := pushLoop_append hfeed hok
  refine ⟨s.dec.pushed a, exec_decPush_ok hserve hwhole hfeed hoka, ?_⟩
  generalize { status := .ok, fields := leBytes 4 a.length ++ [0#8] : Response } = r
  obtain ⟨hdec, hokb⟩ := pushed_sends_pushed r hfeed hok
  have hcfg : (pushLoop s.dec 0 a).1.base.configured = true :=
    (pushLoop_keeps (·.base.configured) (fun d cur b => (feedByte_frame d cur b).straps.2) 0 a hfeed).trans hc
  rw [answer_dec hk hq, answer_dec hk hq, ← hdec]
  exact exec_decPush_ok (s := { s with dec := (s.dec.pushed a).sends r }) ⟨hcfg, hk, hq⟩ hwhole
    (pushLoop_feedable 0 a hfeed) hokb

end Sys2Proof.Machine
end

section
/-! PROOF. The statements of 43_encoder_base on `ENC_PUSH`, `ENC_FILL`, `ENC_GATHER` and the datagram variants: the
commands of an encoder by what its ring and its slots answer, and its queue as a stream and as descriptors. -/
namespace Sys2Proof.Machine

/-! ### Publishing a frame (43_encoder_base R236, 40_slot_buffer R140) -/

/-- A slot filled in one shot has the capacity its allocation gives it (40_slot_buffer R136). -/
theorem slotFill_cap {kind : SlotKind} {sl : Slot} {bs : List Byte} (h : bs.length ≤ sl.max) :
    (slotFill kind sl bs).cap = if kind = .dynamic then bs.length else sl.cap := by
  show ((slotAlloc kind sl.fill sl bs.length).getD sl).cap = _
  obtain ⟨sl', hsl'⟩ := slotAlloc_isSome (kind := kind) (fill := sl.fill) h
  obtain ⟨-, -, -, -, -, hcap⟩ := slotAlloc_some hsl'
  rw [hsl']
  exact hcap

section
variable {e : EncInst} {msg : List Byte}

theorem encPush_empty (hm : msg = []) : encPush e msg = .ok (e, bare .emptyMessage) :=
  if_pos (List.length_eq_zero_iff.2 hm)

theorem encPush_tooLarge (hm : msg ≠ []) (hmax : e.base.straps.maxPayload < msg.length) :
    encPush e msg = .ok (e, bare .tooLarge) := by
  rw [encPush, if_neg (mt List.length_eq_zero_iff.1 hm), if_pos hmax]

theorem encPush_full (hm : msg ≠ []) (hmax : msg.length ≤ e.base.straps.maxPayload) (hf : isFull e.base = true) :
    encPush e msg = .ok (e, bare .ringFull) := by
  rw [encPush, if_neg (mt List.length_eq_zero_iff.1 hm), if_neg (Nat.not_lt.2 hmax), if_pos hf]

theorem encPush_room {sl : Slot} (hm : msg ≠ []) (hmax : msg.length ≤ e.base.straps.maxPayload)
    (hf : isFull e.base = false) (hsl : e.slots[e.base.ring.writePos]? = some sl) : encPush e msg =
      .ok ({ e with
          base := published e.base
          slots := e.slots.set e.base.ring.writePos
            (slotFill e.base.straps.slotKind sl (frame e.base.straps msg)) }, okay []) := by
  rw [encPush, if_neg (mt List.length_eq_zero_iff.1 hm), if_neg (Nat.not_lt.2 hmax), if_neg (by simp [hf]),
    slotAt_ok.2 hsl]

end

section
variable {s : State}

theorem exec_encPush (msg : List Byte) (h : Serves s .enc .p) :
    exec (.encPush msg) s = finishEnc s (encPush s.enc msg) :=
  accept_run _ h List.mem_cons_self

theorem exec_encFill (maxLen : U32) (h : Serves s .enc .c) :
    exec (.encFill maxLen) s = finishEnc s (encFill s.enc maxLen.toNat) :=
  accept_run _ h List.mem_cons_self

theorem exec_encGather (h : Serves s .enc .c) : exec .encGather s = finishEnc s (encGather s.enc) :=
  accept_run _ h List.mem_cons_self

theorem exec_encMove_datagram (len : U32) (h : Serves s .enc .c) (hd : isDatagram s.enc.base.straps = true) :
    exec (.encMove len) s = finishEnc s (encMoveDatagram s.enc len.toNat) :=
  (accept_run _ h List.mem_cons_self).trans (if_pos hd)

end

/-- Settles O42: the checks in their order; a frame of a message within `MAX_PAYLOAD` fits the slot (R341), so that the
fill leaves exactly its bytes. -/
theorem encPush_outcomes : Obligations.EncPush := by
  intro s msg sl h hsl hslmax
  rw [exec_encPush msg h]
  refine ⟨fun hm => ?_, fun hm hmax => ?_, fun hm hmax hf => ?_, fun hm hmax hf => ?_⟩
  · rw [encPush_empty hm]; rfl
  · rw [encPush_tooLarge hm hmax]; rfl
  · rw [encPush_full hm hmax hf]; rfl
  · obtain ⟨hbound, -⟩ := frame_length_bounds s.enc.base.straps msg (List.length_pos_iff.2 hm) hmax
    have hfits : (frame s.enc.base.straps msg).length ≤ sl.max := hbound.trans hslmax.ge
    rw [encPush_room hm hmax hf hsl]
    exact ⟨_, rfl, slotFill_content hfits, slotFill_size hfits, slotFill_max _ _ _, slotFill_cap hfits⟩

/-! ### The datagram variants (43_encoder_base R242, R246) -/

section
variable {e : EncInst} {n : Nat} {sl : Slot}

theorem encFill_datagram_empty (hd : isDatagram e.base.straps = true) (he : isEmpty e.base = true) :
    encFill e n = .ok (e, okay (fieldBytes [])) := by
  rw [encFill, if_pos hd, if_pos he]

theorem encFill_datagram_queued (hd : isDatagram e.base.straps = true) (he : isEmpty e.base = false)
    (hsl : e.slots[e.base.ring.readPos]? = some sl) : encFill e n =
      if n < sl.size then .ok (e, bare .bufTooSmall) else .ok (e, okay (fieldBytes (content sl))) := by
  simp only [encFill, hd, he, slotAt_ok.2 hsl, if_true, Bool.false_eq_true, if_false]

theorem encMoveDatagram_empty (he : isEmpty e.base = true) : encMoveDatagram e n = .ok (e, bare .badLen) := if_pos he

theorem encMoveDatagram_queued (he : isEmpty e.base = false) (hsl : e.slots[e.base.ring.readPos]? = some sl) :
    encMoveDatagram e n =
      if n ≠ sl.size then .ok (e, bare .badLen) else .ok ({ e with base := released e.base }, okay []) := by
  simp only [encMoveDatagram, he, slotAt_ok.2 hsl, Bool.false_eq_true, if_false]

/-- An encoder of the invariant queues no empty frame (43_encoder_base R231). -/
theorem EncOk.front_size_ne_zero (h : EncOk e) (hc : e.base.configured = true) (he : isEmpty e.base = false)
    (hsl : e.slots[e.base.ring.readPos]? = some sl) : sl.size ≠ 0 := by
  obtain ⟨hbody, -⟩ := h.body hc
  obtain ⟨front, hfront, hsize, -⟩ := hbody.front he
  obtain rfl : front = sl := Option.some.inj (hfront.symm.trans hsl)
  omega

end

/-- Settles O48: an empty ring has no frame to take; of any other, the length is compared with that of the front slot. -/
theorem encDatagram : Obligations.EncDatagram := by
  intro s n h hproto
  obtain ⟨hc, -, -⟩ := id h
  have hd : isDatagram s.enc.base.straps = true := by simp [isDatagram, hproto]
  rw [exec_encFill n h, exec_encMove_datagram n h hd]
  refine ⟨fun hempty => ?_, fun sl hne hsl => ?_⟩
  · have he := ringIsEmpty_iff.2 hempty
    rw [encFill_datagram_empty hd he, encMoveDatagram_empty he]
    exact ⟨rfl, rfl⟩
  · have he := ringIsEmpty_false.2 hne
    rw [encFill_datagram_queued hd he hsl, encMoveDatagram_queued he hsl]
    refine ⟨fun hlt => ?_, fun hle => ?_, fun hlen => ?_, fun hlen => ?_, fun hok => hok.front_size_ne_zero hc he hsl⟩
    · rw [if_pos hlt]; rfl
    · rw [if_neg (Nat.not_lt.2 hle), fieldBytes_content]; rfl
    · rw [if_pos hlen]; rfl
    · rw [if_neg (not_not.2 hlen)]; rfl

/-! ### The queue as a stream (43_encoder_base R240) -/

section
variable {e : EncInst} {queue : List (Nat × Slot)}

/-- `front_off` does not pass the end of the first queued slot (10_state R39). -/
theorem EncBody.frontOff_le_head (h : EncBody e) (hidx : queue.map Prod.fst = queuedIdx e.base e.base.ring.writePos)
    (hslots : ∀ x ∈ queue, e.slots[x.1]? = some x.2) (x : Nat × Slot) (hx : queue.head? = some x) :
    e.frontOff ≤ x.2.size := by
  obtain ⟨⟨hr, hw, -⟩, -, -, -, hzero, hlt, -⟩ := h
  cases he : isEmpty e.base with
  | true => rw [hzero he]; exact Nat.zero_le _
  | false =>
    have hfst : x.1 = e.base.ring.readPos := by
      have hhead := congrArg List.head? hidx
      rw [queuedIdx_released hr hw (ringIsEmpty_false.1 he), List.head?_map, hx] at hhead
      exact Option.some.inj hhead
    exact (hlt he x.2 (hfst ▸ hslots x (List.mem_of_head? hx))).le

/-- The stream variant of `ENC_FILL` returns the first bytes of the pending stream. -/
theorem encFill_stream (h : EncBody e) (hd : isDatagram e.base.straps = false) (n : Nat) :
    encFill e n = .ok (e, okay (fieldBytes ((pendingStream e).take n))) := by
  obtain ⟨queue, hqueue, hidx, hslots⟩ := h.queue
  have hloop := fillLoop_eq queue e.frontOff n (h.frontOff_le_head hidx hslots)
  rw [← slotQueue_eq hqueue] at hloop
  simp only [encFill, hd, Bool.false_eq_true, if_false, hqueue, hloop, pendingStream]

end

/-- Settles O46: the copy loop reads the pending stream of the queue (`fillLoop_eq`), from `front_off` on. -/
theorem encFillStream : Obligations.EncFillStream := by
  intro s maxLen hok h hproto
  obtain ⟨hc, -, -⟩ := id h
  have hd : isDatagram s.enc.base.straps = false := by simpa [isDatagram] using hproto
  obtain ⟨hbody, -⟩ := hok.body hc
  rw [exec_encFill maxLen h, encFill_stream hbody hd, fieldBytes, fieldU32, List.length_take]
  rfl

/-! ### The queue as descriptors (43_encoder_base R250) -/

/-- The descriptor loop takes the first slots of a queue; the offset applies to the first of them. -/
theorem gatherLoop_eq (queue : List (Nat × Slot)) (off k : Nat) : gatherLoop queue off k =
    (queue.take k).mapIdx fun j x => (x.1, if j = 0 then off else 0, x.2.size - if j = 0 then off else 0) := by
  induction queue generalizing off k with
  | nil => simp [gatherLoop]
  | cons x rest ih =>
    cases k with
    | zero => rfl
    | succ k => simp [gatherLoop, ih, List.mapIdx_cons]

/-- The count byte is the count where it fits, and a free value above (log 10). -/
theorem gatherCountByte_eq (n : Nat) :
    gatherCountByte n = if n ≤ 255 then BitVec.ofNat 8 n else Config.gatherCount n := by
  simp only [gatherCountByte, Nat.lt_succ_iff]

/-- The descriptor of the `j`-th queued slot, with `off` bytes of it acknowledged. -/
def queuedDesc (e : EncInst) (idx off : Nat → Nat) (j : Nat) : Nat × Nat × Nat :=
  (idx j, off j, ((e.slots[idx j]?).map Slot.size).getD 0 - off j)

/-- `ENC_GATHER` gives the descriptors of the oldest queued slots, by their place in the queue. -/
theorem encGather_queued {e : EncInst} {idx off : Nat → Nat} (h : EncBody e)
    (hidx : ∀ j, idx j = (e.base.ring.readPos + j) % e.base.straps.n)
    (hoff : ∀ j, off j = if j = 0 then e.frontOff else 0) : encGather e =
      .ok (e, okay (gatherFields
        ((List.range (min e.base.straps.gatherK (queueSize e.base))).map (queuedDesc e idx off)))) := by
  obtain ⟨queue, hqueue, hfst, hslots⟩ := h.queue
  have hlen : queue.length = queueSize e.base := by
    rw [← List.length_map (f := Prod.fst), hfst, queuedIdx_length, queueSize]
  have hdescs : gatherLoop queue e.frontOff e.base.straps.gatherK =
      (List.range (min e.base.straps.gatherK (queueSize e.base))).map (queuedDesc e idx off) := by
    rw [gatherLoop_eq]
    refine List.ext_getElem (by simp [hlen]) fun j hj _ => ?_
    have hjq : j < queue.length := by
      rw [List.length_mapIdx, List.length_take] at hj
      omega
    have hplace : (queue[j]).1 = idx j := by
      rw [← List.getElem_map Prod.fst (h := by simpa using hjq), hidx]
      simp [hfst, queuedIdx]
    have hslot := hslots queue[j] (List.getElem_mem hjq)
    rw [hplace] at hslot
    simp [queuedDesc, hplace, hslot, hoff]
  simp only [encGather, hqueue, hdescs]

/-- Settles O50: the descriptors of the queued slots, each in its response fields. -/
theorem encGather_descriptors : Obligations.EncGather := by
  rintro s m idx off hok h rfl hidx hoff
  obtain ⟨hc, -, -⟩ := id h
  obtain ⟨hbody, -⟩ := hok.body hc
  rw [exec_encGather h, encGather_queued hbody hidx hoff, gatherFields, gatherCountByte_eq, List.length_map,
    List.length_range, List.flatMap_map]
  rfl

end Sys2Proof.Machine
end

section
/-! PROOF. The statements of 44_framing_decode. First one equation per state and byte of each decode machine, from which
the statements on single bytes follow. Then runs of bytes that end no push: the malformed Simple8 sequence, and the
frame of a message in each protocol. -/
namespace Sys2Proof.Machine

/-! ### The hook of each protocol (42_decoder_base R194) -/

section
variable {d : DecInst}

theorem feedByte_simple8 (cur : Slot) (b : Byte) (h : d.base.straps.proto = .simple8) :
    feedByte d cur b = feedS8 d cur b := by rw [feedByte, h]

theorem feedByte_simple16 (cur : Slot) (b : Byte) (h : d.base.straps.proto = .simple16) :
    feedByte d cur b = feedS16 d cur b := by rw [feedByte, h]

theorem feedByte_packet (cur : Slot) (b : Byte) (h : d.base.straps.proto = .packet) :
    feedByte d cur b = feedPkt d cur b := by rw [feedByte, h]

end

/-! ### Simple8 (44_framing_decode section 2) -/

theorem framingError_simple8 {d : DecInst} (c : Cause) (h : d.base.straps.proto = .simple8) :
    framingError d c =
      ({ d with
          s8 := { d.s8 with inFrame := false, esc := false, holdValid := false }
          errCount := satAdd d.errCount 1
          reports := d.reports ++ [{ cause := c, info := 0#32 }] }, .discarded c) := by
  simp [framingError, countError, reseek, h]

/-- The control bytes are pairwise different (00_scope R10). -/
theorem control_ne {st : Straps} (h : controlBytesDistinct st = true) :
    st.s8Etx ≠ st.s8Stx ∧ st.s8Ntx ≠ st.s8Stx ∧ st.s8Ntx ≠ st.s8Etx := by
  obtain ⟨hse, hsn, hen⟩ := (controlBytesDistinct_iff st).1 h
  exact ⟨fun e => hse (by rw [e]), fun e => hsn (by rw [e]), fun e => hen (by rw [e])⟩

section
variable {d : DecInst} (cur : Slot) {b : Byte}

theorem feedS8_noise (hb : b ≠ d.base.straps.s8Stx) (hidle : d.s8.inFrame = false) : feedS8 d cur b = (d, .none) := by
  rw [feedS8, if_neg hb, if_pos hidle]

theorem feedS8_stx_idle (hidle : d.s8.inFrame = false) :
    feedS8 d cur d.base.straps.s8Stx = (s8Start d cur, .none) := by
  rw [feedS8, if_pos rfl, if_neg (by simp [hidle])]

theorem feedS8_stx_inFrame (hin : d.s8.inFrame = true) :
    feedS8 d cur d.base.straps.s8Stx =
      (s8Start (framingError d .stxInFrame).1 cur, .discarded .stxInFrame) := by
  rw [feedS8, if_pos rfl, if_pos hin]

theorem feedS8_etx (hst : controlBytesDistinct d.base.straps = true) (hin : d.s8.inFrame = true) :
    feedS8 d cur d.base.straps.s8Etx = if d.s8.esc then framingError d .etxAfterNtx else s8End d cur := by
  obtain ⟨hes, -, -⟩ := control_ne hst
  rw [feedS8, if_neg hes, if_neg (by simp [hin]), if_pos rfl]

theorem feedS8_ntx (hst : controlBytesDistinct d.base.straps = true) (hin : d.s8.inFrame = true) :
    feedS8 d cur d.base.straps.s8Ntx =
      if d.s8.esc then framingError d .ntxAfterNtx else ({ d with s8 := { d.s8 with esc := true } }, .none) := by
  obtain ⟨-, hns, hne⟩ := control_ne hst
  rw [feedS8, if_neg hns, if_neg (by simp [hin]), if_neg hne, if_pos rfl]

theorem feedS8_data (hin : d.s8.inFrame = true) (hb : isControl d.base.straps b = false) :
    feedS8 d cur b = s8Data d cur b := by
  obtain ⟨hs, he, hn⟩ : b ≠ d.base.straps.s8Stx ∧ b ≠ d.base.straps.s8Etx ∧ b ≠ d.base.straps.s8Ntx := by
    simpa [isControl_iff, not_or] using mt isControl_iff.2 (by simp [hb])
  rw [feedS8, if_neg hs, if_neg (by simp [hin]), if_neg he, if_neg hn]

end

/-- The byte a data byte stands for: after `NTX` it is unescaped (30_encoding R95). -/
def unescaped (esc : Bool) (b : Byte) : Byte := if esc then b ^^^ 0x80#8 else b

section
variable {d : DecInst} {cur cur' : Slot} {b x : Byte} (hx : x = unescaped d.s8.esc b)
include hx

theorem s8Data_append (hcrc : d.base.straps.s8CrcEn = false)
    (ha : slotAppend d.base.straps.slotKind cur x = some cur') :
    s8Data d cur b = (setCur { d with s8 := { d.s8 with esc := false } } cur', .none) := by
  subst hx
  simp only [unescaped] at ha
  simp [s8Data, hcrc, ha]

theorem s8Data_hold (hcrc : d.base.straps.s8CrcEn = true) (hheld : d.s8.holdValid = false) :
    s8Data d cur b = ({ d with s8 := { d.s8 with esc := false, hold := x, holdValid := true } }, .none) := by
  subst hx
  simp [s8Data, hcrc, hheld, unescaped]

theorem s8Data_appendHeld (hcrc : d.base.straps.s8CrcEn = true) (hheld : d.s8.holdValid = true)
    (ha : slotAppend d.base.straps.slotKind cur d.s8.hold = some cur') :
    s8Data d cur b =
      (setCur { d with s8 := { d.s8 with
          esc := false, hold := x, holdValid := true, crc := crc8Step d.base.straps d.s8.crc d.s8.hold } } cur',
        .none) := by
  subst hx
  simp [s8Data, hcrc, hheld, ha, unescaped]

end

/-- The append a data byte makes fails on a full slot, whichever byte is appended. -/
theorem s8Data_oversize {d : DecInst} {cur : Slot} (b : Byte)
    (hheld : d.base.straps.s8CrcEn = true → d.s8.holdValid = true) (hfull : cur.size = cur.max) :
    s8Data d cur b = framingError { d with s8 := { d.s8 with esc := false } } .oversize := by
  cases hcrc : d.base.straps.s8CrcEn with
  | false => simp [s8Data, hcrc, slotAppend_full _ hfull]
  | true => simp [s8Data, hcrc, hheld hcrc, slotAppend_full _ hfull]

section
variable {d : DecInst} {cur : Slot}

theorem s8End_empty (h : cur.size = 0 ∨ d.base.straps.s8CrcEn = true ∧ d.s8.holdValid = false) :
    s8End d cur = framingError d .emptyFrame := by
  rcases h with h | ⟨hcrc, hheld⟩
  · simp [s8End, h]
  · simp [s8End, hcrc, hheld]

theorem s8End_badCrc (hsize : cur.size ≠ 0) (hcrc : d.base.straps.s8CrcEn = true) (hheld : d.s8.holdValid = true)
    (hne : d.s8.hold ≠ d.s8.crc) : s8End d cur = framingError d .badCrc := by
  simp [s8End, hsize, hcrc, hheld, hne]

theorem s8End_commit (hsize : cur.size ≠ 0)
    (hcrc : d.base.straps.s8CrcEn = true → d.s8.holdValid = true ∧ d.s8.hold = d.s8.crc) :
    s8End d cur = commit d := by
  cases hen : d.base.straps.s8CrcEn with
  | false => simp [s8End, hsize, hen]
  | true =>
    obtain ⟨hheld, heq⟩ := hcrc hen
    simp [s8End, hsize, hen, hheld, heq]

end

/-- Settles O29: by the state and the byte. -/
theorem s8NoiseAndStart : Obligations.S8NoiseAndStart := by
  intro d cur b hproto
  rw [feedByte_simple8 cur b hproto]
  refine ⟨feedS8_noise cur, ?_, ?_⟩
  · rintro rfl hidle
    exact feedS8_stx_idle cur hidle
  · rintro rfl hin
    rw [feedS8_stx_inFrame cur hin, framingError_simple8 _ hproto]
    rfl

/-- Settles O30: the rows of `ETX` and `NTX` in a frame. -/
theorem s8Escapes : Obligations.S8Escapes := by
  intro d cur hproto hst hin
  simp only [feedByte_simple8 cur _ hproto, feedS8_etx cur hst hin, feedS8_ntx cur hst hin]
  refine ⟨fun hesc => ?_, fun hesc => ?_, fun hesc => ?_⟩
  · rw [if_pos hesc, framingError_simple8 _ hproto]
  · rw [if_pos hesc, framingError_simple8 _ hproto]
  · rw [if_neg (by simp [hesc])]

/-- Settles O31: by what the byte does to the slot: an append of it, none, an append of the byte held, or one that
fails. -/
theorem s8Data_outcomes : Obligations.S8Data := by
  intro d cur b x hproto hin hstx hetx hntx hx
  have hdata : isControl d.base.straps b = false := by
    simpa [hstx, hetx, hntx] using (isControl_iff (st := d.base.straps) (b := b)).not
  rw [feedByte_simple8 cur b hproto, feedS8_data cur hin hdata]
  refine ⟨fun hcrc hroom => ?_, fun hcrc hheld => s8Data_hold hx hcrc hheld, fun hcrc hheld hroom => ?_,
    fun hheld hfull => ?_⟩
  · obtain ⟨cur', ha⟩ := slotAppend_isSome (kind := d.base.straps.slotKind) (b := x) hroom
    exact ⟨cur', ha, s8Data_append hx hcrc ha⟩
  · obtain ⟨cur', ha⟩ := slotAppend_isSome (kind := d.base.straps.slotKind) (b := d.s8.hold) hroom
    exact ⟨cur', ha, s8Data_appendHeld hx hcrc hheld ha⟩
  · exact (s8Data_oversize b hheld hfull).trans (framingError_simple8 _ hproto)

/-- Settles O32: the checks of the end of a frame, in order. -/
theorem s8End_outcomes : Obligations.S8End := by
  intro d cur hproto hst hin hesc
  have hend : feedByte d cur d.base.straps.s8Etx = s8End d cur := by
    rw [feedByte_simple8 cur _ hproto, feedS8_etx cur hst hin, if_neg (by simp [hesc])]
  rw [hend]
  exact ⟨s8End_empty, s8End_badCrc, s8End_commit⟩

/-! ### Simple16 (44_framing_decode section 3) -/

section
variable {d : DecInst} (cur : Slot) (b : Byte)

theorem feedS16_sync0 (h : d.s16.st = .sync0) : feedS16 d cur b = s16Sync0 d b := by rw [feedS16, h]

theorem feedS16_sync1 (h : d.s16.st = .sync1) : feedS16 d cur b = s16Sync1 d b := by rw [feedS16, h]

theorem feedS16_lenLo (h : d.s16.st = .lenLo) : feedS16 d cur b = s16LenLo d b := by rw [feedS16, h]

theorem feedS16_lenHi (h : d.s16.st = .lenHi) : feedS16 d cur b = s16LenHi d cur b := by rw [feedS16, h]

theorem feedS16_payload (h : d.s16.st = .payload) : feedS16 d cur b = s16Payload d cur b := by rw [feedS16, h]

end

section
variable {d : DecInst} {cur cur' : Slot} {b : Byte} {len crc : U16}

theorem s16LenHi_empty (hlen : len = d.s16.len ||| (b.setWidth 16 <<< 8)) (h : len = 0#16) :
    s16LenHi d cur b = framingError { d with s16 := { d.s16 with len := len } } .emptyFrame := by
  subst hlen
  exact if_pos h

theorem s16LenHi_oversize (hlen : len = d.s16.len ||| (b.setWidth 16 <<< 8)) (hpos : len ≠ 0#16)
    (h : d.base.straps.maxPayload < len.toNat) :
    s16LenHi d cur b = framingError { d with s16 := { d.s16 with len := len } } .oversize := by
  subst hlen
  rw [s16LenHi, if_neg hpos, if_pos h]

theorem s16LenHi_start (hlen : len = d.s16.len ||| (b.setWidth 16 <<< 8)) (hpos : len ≠ 0#16)
    (h : len.toNat ≤ d.base.straps.maxPayload) :
    s16LenHi d cur b =
      (setCur { d with s16 := { d.s16 with
          len := len
          remaining := len.toNat + s16CrcBytes d.base.straps
          crc := crc16 d.base.straps (s16CrcStart d.base.straps) (le16 len)
          crcRx := 0#16
          st := .payload } } (slotZero cur), .none) := by
  subst hlen
  rw [s16LenHi, if_neg hpos, if_neg (Nat.not_lt.2 h)]

/-- A payload byte (44_framing_decode R292). -/
theorem s16Take_payload (hcrc : d.base.straps.s16CrcEn = true → 2 < d.s16.remaining)
    (ha : slotAppend d.base.straps.slotKind cur b = some cur') :
    s16Take d cur b = setCur { d with s16 := { d.s16 with crc := crc16Step d.base.straps d.s16.crc b } } cur' := by
  have hdata : ¬(d.base.straps.s16CrcEn = true ∧ d.s16.remaining ≤ 2) := fun h => Nat.not_le.2 (hcrc h.1) h.2
  rw [s16Take, if_neg hdata, ha, Option.getD_some]

theorem s16Take_crcLow (hcrc : d.base.straps.s16CrcEn = true) (hrem : d.s16.remaining = 2) :
    s16Take d cur b = { d with s16 := { d.s16 with crcRx := b.setWidth 16 } } := by
  simp [s16Take, hcrc, hrem]

theorem s16Take_crcHigh (hcrc : d.base.straps.s16CrcEn = true) (hrem : d.s16.remaining = 1) :
    s16Take d cur b = { d with s16 := { d.s16 with crcRx := d.s16.crcRx ||| (b.setWidth 16 <<< 8) } } := by
  simp [s16Take, hcrc, hrem]

/-- A payload byte with more to come. -/
theorem s16Payload_more (hcrc : d.base.straps.s16CrcEn = true → 2 < d.s16.remaining) (hrem : 1 < d.s16.remaining)
    (ha : slotAppend d.base.straps.slotKind cur b = some cur') :
    s16Payload d cur b =
      (setCur { d with s16 := { d.s16 with
          crc := crc16Step d.base.straps d.s16.crc b, remaining := d.s16.remaining - 1 } } cur', .none) := by
  rw [s16Payload, s16Take_payload hcrc ha, if_neg (by omega)]
  rfl

/-- The last payload byte, where no CRC follows. -/
theorem s16Payload_last (hcrc : d.base.straps.s16CrcEn = false) (hrem : d.s16.remaining = 1)
    (ha : slotAppend d.base.straps.slotKind cur b = some cur') :
    s16Payload d cur b = commit (setCur { d with s16 := { d.s16 with
      crc := crc16Step d.base.straps d.s16.crc b, remaining := d.s16.remaining - 1 } } cur') := by
  rw [s16Payload, s16Take_payload (by simp [hcrc]) ha, if_pos (by omega), s16End, if_neg (by simp [hcrc])]
  rfl

theorem s16Payload_crcLow (hcrc : d.base.straps.s16CrcEn = true) (hrem : d.s16.remaining = 2) :
    s16Payload d cur b = ({ d with s16 := { d.s16 with crcRx := b.setWidth 16, remaining := 1 } }, .none) := by
  simp [s16Payload, s16Take_crcLow hcrc hrem, hrem]

/-- The last byte of a frame with a CRC (44_framing_decode R293). -/
theorem s16Payload_crcHigh (hcrc : d.base.straps.s16CrcEn = true) (hrem : d.s16.remaining = 1)
    (hrx : crc = d.s16.crcRx ||| (b.setWidth 16 <<< 8)) :
    s16Payload d cur b =
      if crc ≠ d.s16.crc then framingError { d with s16 := { d.s16 with crcRx := crc, remaining := 0 } } .badCrc
      else commit { d with s16 := { d.s16 with crcRx := crc, remaining := 0 } } := by
  subst hrx
  simp [s16Payload, s16Take_crcHigh hcrc hrem, hrem, s16End, hcrc]

end

/-- Settles O34: the two sync states, with their test for the byte looked for first. -/
theorem s16Sync : Obligations.S16Sync := by
  intro d cur b hproto
  rw [feedByte_simple16 cur b hproto]
  refine ⟨fun hst hb => ?_, fun hst hb => ?_, fun hst hb hz => ?_, fun hst hb hz => ?_, fun hst h1 h0 => ?_,
    fun hst h1 h0 => ?_⟩
  · rw [feedS16_sync0 cur b hst, s16Sync0, if_pos hb]
  · rw [feedS16_sync0 cur b hst, s16Sync0, if_neg hb]
  · rw [feedS16_sync1 cur b hst, s16Sync1, if_pos hb, if_neg (not_not.2 hz)]
  · rw [feedS16_sync1 cur b hst, s16Sync1, if_pos hb, if_pos hz]
    rfl
  · rw [feedS16_sync1 cur b hst, s16Sync1, if_neg h1, if_pos h0]
  · rw [feedS16_sync1 cur b hst, s16Sync1, if_neg h1, if_neg h0]

/-- Settles O35: the low byte is kept; at the high byte the length is checked, zero first. -/
theorem s16Header : Obligations.S16Header := by
  intro d cur b hproto
  rw [feedByte_simple16 cur b hproto]
  refine ⟨fun hst => feedS16_lenLo cur b hst, fun len hst hlen => ?_⟩
  rw [feedS16_lenHi cur b hst]
  exact ⟨s16LenHi_empty hlen, fun hmax hpos => s16LenHi_oversize hlen hpos hmax, s16LenHi_start hlen⟩

/-- Settles O36: by what the byte is taken as. -/
theorem s16Payload_outcomes : Obligations.S16Payload := by
  intro d cur b hproto hst
  rw [feedByte_simple16 cur b hproto, feedS16_payload cur b hst]
  refine ⟨?_, s16Payload_crcLow, fun crc hcrc hrem hrx => ?_⟩
  · rintro d' cur' - hcrc ha rfl
    exact ⟨fun hrem => s16Payload_more hcrc hrem ha, fun hrem hoff => s16Payload_last hoff hrem ha⟩
  · rw [s16Payload_crcHigh hcrc hrem hrx]
    exact ⟨fun hne => if_pos hne, fun heq => if_neg (not_not.2 heq)⟩

/-! ### Packet (44_framing_decode section 4) -/

theorem with_pktState {d : DecInst} {st : PktState} (h : d.pkt.st = st) :
    { d with pkt := { d.pkt with st := st } } = d := by
  subst h
  rfl

section
variable {d : DecInst} (cur : Slot) (b : Byte)

theorem feedPkt_magic0 (h : d.pkt.st = .magic0) : feedPkt d cur b =
    ({ d with pkt := { d.pkt with st := if b = d.base.straps.pktMagic0 then .magic1 else .magic0 } }, .none) := by
  by_cases hb : b = d.base.straps.pktMagic0
  · simp only [feedPkt, h, if_pos hb]
  · simp only [feedPkt, h, if_neg hb, with_pktState h]

theorem feedPkt_magic1 (h : d.pkt.st = .magic1) : feedPkt d cur b =
    ({ d with pkt := { d.pkt with st :=
        if b = d.base.straps.pktMagic1 then .crc
        else if b = d.base.straps.pktMagic0 then .magic1 else .magic0 } }, .none) := by
  by_cases h1 : b = d.base.straps.pktMagic1
  · simp only [feedPkt, h, pktMagic1, if_pos h1]
  · by_cases h0 : b = d.base.straps.pktMagic0
    · simp only [feedPkt, h, pktMagic1, if_neg h1, if_pos h0, with_pktState h]
    · simp only [feedPkt, h, pktMagic1, if_neg h1, if_neg h0]

theorem feedPkt_crc (h : d.pkt.st = .crc) :
    feedPkt d cur b = ({ d with pkt := { d.pkt with crcRx := b, st := .len2 } }, .none) := by rw [feedPkt, h]

theorem feedPkt_len2 (h : d.pkt.st = .len2) :
    feedPkt d cur b = ({ d with pkt := { d.pkt with len := b.setWidth 24 <<< 16, st := .len1 } }, .none) := by
  rw [feedPkt, h]

theorem feedPkt_len1 (h : d.pkt.st = .len1) : feedPkt d cur b =
    ({ d with pkt := { d.pkt with len := d.pkt.len ||| (b.setWidth 24 <<< 8), st := .len0 } }, .none) := by
  rw [feedPkt, h]

theorem feedPkt_len0 (h : d.pkt.st = .len0) : feedPkt d cur b = pktLen0 d cur b := by rw [feedPkt, h]

theorem feedPkt_payload (h : d.pkt.st = .payload) : feedPkt d cur b = pktPayload d cur b := by rw [feedPkt, h]

end

section
variable {d : DecInst} {cur cur' : Slot} {b : Byte} {len : U24}

theorem pktLen0_empty (hlen : len = d.pkt.len ||| b.setWidth 24) (h : len = 0#24) :
    pktLen0 d cur b = framingError { d with pkt := { d.pkt with len := len } } .emptyFrame := by
  subst hlen
  exact if_pos h

theorem pktLen0_oversize (hlen : len = d.pkt.len ||| b.setWidth 24) (hpos : len ≠ 0#24)
    (h : d.base.straps.maxPayload < len.toNat) :
    pktLen0 d cur b = framingError { d with pkt := { d.pkt with len := len } } .oversize := by
  subst hlen
  rw [pktLen0, if_neg hpos, if_pos h]

theorem pktLen0_start (hlen : len = d.pkt.len ||| b.setWidth 24) (hpos : len ≠ 0#24)
    (h : len.toNat ≤ d.base.straps.maxPayload) :
    pktLen0 d cur b =
      (setCur { d with pkt := { d.pkt with
          len := len, remaining := len, crc := Config.pktCrcSeed, cnt := 0, st := .payload } } (slotZero cur),
        .none) := by
  subst hlen
  rw [pktLen0, if_neg hpos, if_neg (Nat.not_lt.2 h)]

end

/-- What a payload byte does to the decoder whatever it is checked for: one byte less to come, and `cur'` the slot with
it (44_framing_decode R307). -/
def pktStored (d : DecInst) (cur' : Slot) : DecInst :=
  setCur { d with pkt := { d.pkt with remaining := d.pkt.remaining - 1#24 } } cur'

/-- And what a byte inside the CRC window does besides (44_framing_decode R308). -/
def pktChecked (d : DecInst) (cur' : Slot) (b : Byte) : DecInst :=
  { pktStored d cur' with pkt := { (pktStored d cur').pkt with
      crc := crc8Step d.base.straps d.pkt.crc b, cnt := d.pkt.cnt + 1 } }

/-- The frame ends with the byte that leaves none to come. -/
theorem sub_one_eq_zero_iff (x : U24) : x - 1#24 = 0#24 ↔ x = 1#24 := sub_eq_zero

section
variable {d : DecInst} {cur cur' : Slot} {b : Byte} (ha : slotAppend d.base.straps.slotKind cur b = some cur')
include ha

theorem pktPayload_badCrc (hend : d.pkt.cnt + 1 = min Config.pktCrcWindow d.pkt.len.toNat)
    (hne : crc8Step d.base.straps d.pkt.crc b ≠ d.pkt.crcRx) :
    pktPayload d cur b = framingError (pktChecked d cur' b) .badCrc := by
  have hin : d.pkt.cnt < min Config.pktCrcWindow d.pkt.len.toNat := by omega
  simp only [pktPayload, ha, Option.getD_some, if_pos hin, if_pos (And.intro hend hne)]
  rfl

theorem pktPayload_inWindow (hin : d.pkt.cnt < min Config.pktCrcWindow d.pkt.len.toNat)
    (hcrc : d.pkt.cnt + 1 = min Config.pktCrcWindow d.pkt.len.toNat →
      crc8Step d.base.straps d.pkt.crc b = d.pkt.crcRx) :
    pktPayload d cur b =
      if d.pkt.remaining = 1#24 then commit (pktChecked d cur' b) else (pktChecked d cur' b, .none) := by
  have hgood : ¬(d.pkt.cnt + 1 = min Config.pktCrcWindow d.pkt.len.toNat ∧
      crc8Step d.base.straps d.pkt.crc b ≠ d.pkt.crcRx) := fun h => h.2 (hcrc h.1)
  simp only [pktPayload, ha, Option.getD_some, if_pos hin, if_neg hgood, sub_one_eq_zero_iff]
  rfl

theorem pktPayload_pastWindow (hpast : min Config.pktCrcWindow d.pkt.len.toNat ≤ d.pkt.cnt) :
    pktPayload d cur b =
      if d.pkt.remaining = 1#24 then commit (pktStored d cur') else (pktStored d cur', .none) := by
  simp only [pktPayload, ha, Option.getD_some, if_neg (Nat.not_lt.2 hpast), sub_one_eq_zero_iff]
  rfl

end

/-- Settles O37: one equation per header state. -/
theorem pktHeader : Obligations.PktHeader := by
  intro d cur b hproto
  rw [feedByte_packet cur b hproto]
  refine ⟨feedPkt_magic0 cur b, feedPkt_magic1 cur b, feedPkt_crc cur b, feedPkt_len2 cur b, feedPkt_len1 cur b,
    fun len hst hlen => ?_⟩
  rw [feedPkt_len0 cur b hst]
  exact ⟨pktLen0_empty hlen, fun hmax hpos => pktLen0_oversize hlen hpos hmax, pktLen0_start hlen⟩

/-- Settles O38: by where the byte lies to the CRC window. -/
theorem pktPayload_outcomes : Obligations.PktPayload := by
  rintro d d1 d2 cur cur' b hproto hst ha rfl rfl
  rw [feedByte_packet cur b hproto, feedPkt_payload cur b hst]
  exact ⟨fun _ => pktPayload_badCrc ha, pktPayload_inWindow ha, pktPayload_pastWindow ha⟩


/-! ### Runs of bytes that end no push (42_decoder_base R192) -/

/-- Fed the bytes one by one, the first decoder becomes the second, and no event ends the push
(42_decoder_base R192). -/
inductive Feeds : DecInst → List Byte → DecInst → Prop where
  | nil (d : DecInst) : Feeds d [] d
  | cons {d d' e : DecInst} {cur : Slot} {b : Byte} {bs : List Byte} {ev : FrameEvent}
      (hcur : d.slots[d.base.ring.writePos]? = some cur) (hfeed : feedByte d cur b = (d', ev))
      (hev : ∀ k, eventEnds d.base.straps.errFatal k ev = none) (hrest : Feeds d' bs e) : Feeds d (b :: bs) e

section
variable {d e f : DecInst}

theorem Feeds.append {as bs : List Byte} (h1 : Feeds d as e) (h2 : Feeds e bs f) : Feeds d (as ++ bs) f := by
  induction h1 with
  | nil => exact h2
  | cons hcur hfeed hev _ ih => exact .cons hcur hfeed hev (ih h2)

/-- A byte that brings no event. -/
theorem Feeds.quiet {cur : Slot} {b : Byte} (hcur : d.slots[d.base.ring.writePos]? = some cur)
    (hfeed : feedByte d cur b = (e, .none)) : Feeds d [b] e :=
  .cons hcur hfeed (fun _ => rfl) (.nil e)

theorem Feeds.commits {cur : Slot} {b : Byte} (hcur : d.slots[d.base.ring.writePos]? = some cur)
    (hfeed : feedByte d cur b = (e, .committed)) : Feeds d [b] e :=
  .cons hcur hfeed (fun _ => rfl) (.nil e)

/-- An error where errors are not fatal (42_decoder_base R213). -/
theorem Feeds.discards {cur : Slot} {b : Byte} {c : Cause} (hcur : d.slots[d.base.ring.writePos]? = some cur)
    (hfatal : d.base.straps.errFatal = false) (hfeed : feedByte d cur b = (e, .discarded c)) : Feeds d [b] e :=
  .cons hcur hfeed (fun k => by simp [eventEnds, hfatal]) (.nil e)

theorem length_lt_of_concat_isPrefix {q p : List Byte} {b : Byte} (h : q ++ [b] <+: p) : q.length < p.length := by
  have hle := h.length_le
  rwa [List.length_append, List.length_singleton] at hle

/-- Bytes sent in place of those of `p`, each as the run `spell` gives it, are fed where each run takes the relation `R`
from what was read before to one byte more. -/
theorem Feeds.flatMap {R : List Byte → DecInst → Prop} {spell : Byte → List Byte} {p : List Byte}
    (hstep : ∀ q b e, q ++ [b] <+: p → R q e → ∃ e', Feeds e (spell b) e' ∧ R (q ++ [b]) e') (h : R [] d) :
    ∃ e, Feeds d (p.flatMap spell) e ∧ R p e := by
  have hprefix : ∀ q, q <+: p → ∃ e, Feeds d (q.flatMap spell) e ∧ R q e := by
    intro q
    induction q using List.reverseRecOn with
    | nil => exact fun _ => ⟨d, .nil d, h⟩
    | append_singleton q b ih =>
      intro hq
      obtain ⟨e, hfeeds, hR⟩ := ih ((List.prefix_append q [b]).trans hq)
      obtain ⟨e', hfeeds', hR'⟩ := hstep q b e hq hR
      exact ⟨e', by simpa using hfeeds.append hfeeds', hR'⟩
  exact hprefix p (List.prefix_refl p)

/-- As `Feeds.flatMap`, for bytes sent as they are. -/
theorem Feeds.bytes {R : List Byte → DecInst → Prop} {p : List Byte}
    (hstep : ∀ q b e, q ++ [b] <+: p → R q e → ∃ e', Feeds e [b] e' ∧ R (q ++ [b]) e') (h : R [] d) :
    ∃ e, Feeds d p e ∧ R p e := by
  simpa using Feeds.flatMap (spell := fun b => [b]) hstep h

/-- The atomic steps of a push that no event ends: one a byte, and the response. -/
theorem Feeds.drive {bs : List Byte} (h : Feeds d bs e) (hproto : d.base.straps.proto ≠ .seqpacket) (consumed : Nat) :
    drive pushAtom (bs.length + 1) { rest := bs, consumed := consumed } d =
      .ok (e, .done (okay (pushFields (consumed + bs.length) 0#8))) := by
  induction h generalizing consumed with
  | nil d => simp [Machine.drive, pushAtom, hproto]
  | @cons d d' e cur b bs ev hcur hfeed hev _ ih =>
    have hatom : pushAtom { rest := b :: bs, consumed := consumed } d =
        .ok (d', .more { rest := bs, consumed := consumed + 1 }) := by
      simp only [pushAtom, hproto, if_false, slotAt_ok.2 hcur, hfeed, hev]
    have hproto' : d'.base.straps.proto ≠ .seqpacket := by
      obtain ⟨hst, -⟩ := (feedByte_frame d cur b).straps
      rw [hfeed] at hst
      rwa [hst]
    rw [List.length_cons, Machine.drive, hatom, Nat.add_comm bs.length, ← Nat.add_assoc]
    simpa [Nat.add_comm 1] using ih hproto' (consumed + 1)

end

/-- A push of bytes that end no push answers `ST_OK` and their number. -/
theorem exec_decPush_feeds {s : State} {bs : List Byte} {e : DecInst} (hserve : Serves s .dec .p)
    (hwhole : WholeTurn s) (hproto : s.dec.base.straps.proto ≠ .seqpacket) (h : Feeds s.dec bs e) :
    exec (.decPush bs) s = .next (State.answer { s with dec := { e with pushing := none } }
      { status := .ok, fields := leBytes 4 bs.length ++ [0#8] }) := by
  rw [exec_decPush bs hserve, runPush, turnSteps, show s.sel.quantum = none from hwhole, Option.getD_none,
    h.drive hproto, Nat.zero_add]
  rfl

/-! ### The malformed Simple8 sequence (44_framing_decode R284) -/

theorem satAdd_zero (x : U32) : satAdd x 0 = x :=
  BitVec.eq_of_toNat_eq (by rw [satAdd_toNat]; omega)

theorem satAdd_satAdd (x : U32) (j k : Nat) : satAdd (satAdd x j) k = satAdd x (j + k) :=
  BitVec.eq_of_toNat_eq (by simp only [satAdd_toNat]; omega)

/-- `e` is `d` after the errors `cs`, each counted and reported, and with nothing committed. -/
structure Erred (d : DecInst) (cs : List Cause) (e : DecInst) : Prop where
  base : e.base = d.base
  slots : e.slots.length = d.slots.length
  errCount : e.errCount = satAdd d.errCount cs.length
  reports : e.reports = d.reports ++ cs.map fun c => { cause := c, info := 0#32 }

section
variable {d e e' : DecInst} {cs : List Cause}

theorem Erred.refl (d : DecInst) : Erred d [] d := ⟨rfl, rfl, (satAdd_zero _).symm, by simp⟩

theorem Erred.cur (h : Erred d cs e) (hslot : d.base.ring.writePos < d.slots.length) :
    ∃ cur, e.slots[e.base.ring.writePos]? = some cur := by
  rw [← h.base, ← h.slots] at hslot
  exact ⟨_, List.getElem?_eq_getElem hslot⟩

theorem Erred.congr (h : Erred d cs e) (hbase : e'.base = e.base) (hslots : e'.slots.length = e.slots.length)
    (herr : e'.errCount = e.errCount) (hrep : e'.reports = e.reports) : Erred d cs e' :=
  ⟨hbase.trans h.base, hslots.trans h.slots, herr.trans h.errCount, hrep.trans h.reports⟩

theorem Erred.error (h : Erred d cs e) (c : Cause) : Erred d (cs ++ [c]) (framingError e c).1 where
  base := (framingError_base e c).trans h.base
  slots := by rw [framingError_slots, h.slots]
  errCount := by rw [framingError_errCount, h.errCount, satAdd_satAdd, List.length_append, List.length_singleton]
  reports := by rw [framingError_reports, h.reports, List.map_append, List.append_assoc, List.map_singleton]

theorem Erred.start (h : Erred d cs e) (cur : Slot) : Erred d cs (s8Start e cur) :=
  h.congr rfl List.length_set rfl rfl

end

/-- Right after a frame start or in its data, with no `NTX` read that is still to be used. -/
def S8InData (d : DecInst) : Prop := d.s8.inFrame = true ∧ d.s8.esc = false

/-- Idle, with no flag set (10_state R35). -/
def S8Idle (d : DecInst) : Prop := d.s8.inFrame = false ∧ d.s8.esc = false ∧ d.s8.holdValid = false

theorem framingError_s8Idle {d : DecInst} (c : Cause) (h : d.base.straps.proto = .simple8) :
    S8Idle (framingError d c).1 := by
  rw [framingError_simple8 c h]
  exact ⟨rfl, rfl, rfl⟩

/-- `NTX` has been read, which escapes the byte after it (44_framing_decode R279). -/
def s8Prefixed (d : DecInst) : DecInst := { d with s8 := { d.s8 with esc := true } }

theorem feedByte_prefix {d : DecInst} (cur : Slot) (hproto : d.base.straps.proto = .simple8)
    (hst : controlBytesDistinct d.base.straps = true) (hin : S8InData d) :
    feedByte d cur d.base.straps.s8Ntx = (s8Prefixed d, .none) := by
  obtain ⟨hframe, hesc⟩ := hin
  rw [feedByte_simple8 cur _ hproto, feedS8_ntx cur hst hframe, if_neg (by simp [hesc])]
  rfl

theorem s8Start_inData (d : DecInst) (cur : Slot) : S8InData (s8Start d cur) := ⟨rfl, rfl⟩

section
variable {d e : DecInst} {cs : List Cause} (hproto : d.base.straps.proto = .simple8)
  (hfatal : d.base.straps.errFatal = false) (hslot : d.base.ring.writePos < d.slots.length) (h : Erred d cs e)
include hproto hslot h

/-- `STX` outside a frame. -/
theorem Erred.feeds_stx_idle (hidle : e.s8.inFrame = false) :
    ∃ e', Feeds e [d.base.straps.s8Stx] e' ∧ Erred d cs e' ∧ S8InData e' := by
  obtain ⟨cur, hcur⟩ := h.cur hslot
  rw [← h.base] at hproto ⊢
  exact ⟨_, .quiet hcur ((feedByte_simple8 cur _ hproto).trans (feedS8_stx_idle cur hidle)), h.start cur,
    s8Start_inData e cur⟩

include hfatal

/-- `STX` inside a frame is an error and starts a frame. -/
theorem Erred.feeds_stx_inFrame (hin : S8InData e) :
    ∃ e', Feeds e [d.base.straps.s8Stx] e' ∧ Erred d (cs ++ [.stxInFrame]) e' ∧ S8InData e' := by
  obtain ⟨cur, hcur⟩ := h.cur hslot
  obtain ⟨hframe, -⟩ := hin
  rw [← h.base] at hproto hfatal ⊢
  exact ⟨_, .discards hcur hfatal ((feedByte_simple8 cur _ hproto).trans (feedS8_stx_inFrame cur hframe)),
    (h.error _).start cur, s8Start_inData _ cur⟩

/-- `NTX` and a byte that may not follow it. -/
theorem Erred.feeds_badEscape {b : Byte} {c : Cause} (hst : controlBytesDistinct d.base.straps = true)
    (hin : S8InData e)
    (hb : b = d.base.straps.s8Ntx ∧ c = .ntxAfterNtx ∨ b = d.base.straps.s8Etx ∧ c = .etxAfterNtx) :
    ∃ e', Feeds e [d.base.straps.s8Ntx, b] e' ∧ Erred d (cs ++ [c]) e' ∧
      S8Idle e' := by
  obtain ⟨cur, hcur⟩ := h.cur hslot
  obtain ⟨hframe, -⟩ := id hin
  rw [← h.base] at hproto hfatal hst hb ⊢
  have hbad : feedByte (s8Prefixed e) cur b = framingError (s8Prefixed e) c := by
    rw [feedByte_simple8 (d := s8Prefixed e) cur b hproto]
    rcases hb with ⟨rfl, rfl⟩ | ⟨rfl, rfl⟩
    · exact (feedS8_ntx (d := s8Prefixed e) cur hst hframe).trans (if_pos rfl)
    · exact (feedS8_etx (d := s8Prefixed e) cur hst hframe).trans (if_pos rfl)
  have hprefixed : Erred d cs (s8Prefixed e) := h.congr rfl rfl rfl rfl
  exact ⟨_, (Feeds.quiet hcur (feedByte_prefix cur hproto hst hin)).append (.discards hcur hfatal hbad),
    hprefixed.error c, framingError_s8Idle c hproto⟩

end

/-- Settles O33: a frame start, a second one that is an error, two bad escapes with a frame start between. -/
theorem s8WorkedCheck : Obligations.S8WorkedCheck := by
  intro s hserve hwhole hproto hst hfatal hidle hslot
  obtain ⟨d1, f1, h1, hin1⟩ := (Erred.refl s.dec).feeds_stx_idle hproto hslot hidle
  obtain ⟨d2, f2, h2, hin2⟩ := h1.feeds_stx_inFrame hproto hfatal hslot hin1
  obtain ⟨d3, f3, h3, hframe3, -⟩ := h2.feeds_badEscape hproto hfatal hslot hst hin2 (.inl ⟨rfl, rfl⟩)
  obtain ⟨d4, f4, h4, hin4⟩ := h3.feeds_stx_idle hproto hslot hframe3
  obtain ⟨d5, f5, h5, hidle5⟩ := h4.feeds_badEscape hproto hfatal hslot hst hin4 (.inr ⟨rfl, rfl⟩)
  obtain ⟨hframe, hesc, hheld⟩ := hidle5
  have hfeeds := f1.append (f2.append (f3.append (f4.append f5)))
  exact ⟨{ d5 with pushing := none }, exec_decPush_feeds hserve hwhole (by simp [hproto]) hfeeds, h5.errCount,
    h5.reports, hframe, hesc, hheld, h5.base⟩


/-! ### Reading a frame: what all protocols have in common (44_framing_decode R270) -/

/-- `e` is `d` in the middle of a frame: only its parse registers and its current slot, now `cur`, differ. -/
structure Reading (d : DecInst) (cur : Slot) (e : DecInst) : Prop where
  base : e.base = d.base
  slots : e.slots = d.slots.set d.base.ring.writePos cur
  slot : d.base.ring.writePos < d.slots.length
  max : cur.max = d.base.straps.maxPayload
  errCount : e.errCount = d.errCount
  reports : e.reports = d.reports

/-- The message `p` is delivered: published at the end of the queue with no error counted or reported, and the machine
is ready for the next frame (44_framing_decode R316). -/
structure Delivered (d : DecInst) (p : List Byte) (e : DecInst) : Prop where
  base : e.base = published d.base
  queue : slotQueue e.base e.slots = slotQueue d.base d.slots ++ [p]
  errCount : e.errCount = d.errCount
  reports : e.reports = d.reports
  seeking : SeekingSync e
  noise : d.base.straps.proto = .simple16 → e.s16.ignored = 0#32

section
variable {d e e' : DecInst} {cur cur' : Slot}

theorem Reading.refl (hcur : d.slots[d.base.ring.writePos]? = some cur)
    (hmax : cur.max = d.base.straps.maxPayload) : Reading d cur d := by
  obtain ⟨hslot, rfl⟩ := List.getElem?_eq_some_iff.1 hcur
  exact ⟨rfl, (List.set_getElem_self hslot).symm, hslot, hmax, rfl, rfl⟩

theorem Reading.current (h : Reading d cur e) : e.slots[e.base.ring.writePos]? = some cur := by
  rw [h.base, h.slots, List.getElem?_set_self h.slot]

/-- A change of the parse registers alone. -/
theorem Reading.regs (h : Reading d cur e) (hbase : e'.base = e.base) (hslots : e'.slots = e.slots)
    (herr : e'.errCount = e.errCount) (hrep : e'.reports = e.reports) : Reading d cur e' :=
  ⟨hbase.trans h.base, hslots.trans h.slots, h.slot, h.max, herr.trans h.errCount, hrep.trans h.reports⟩

/-- A change of the parse registers and of the current slot. -/
theorem Reading.setCur (h : Reading d cur e) (hmax : cur'.max = cur.max) (hbase : e'.base = e.base)
    (hslots : e'.slots = e.slots) (herr : e'.errCount = e.errCount) (hrep : e'.reports = e.reports) :
    Reading d cur' (setCur e' cur') where
  base := hbase.trans h.base
  slots := by rw [setCur_slots, hbase, hslots, h.base, h.slots, List.set_set]
  slot := h.slot
  max := hmax.trans h.max
  errCount := herr.trans h.errCount
  reports := hrep.trans h.reports

theorem Reading.append (h : Reading d cur e) (b : Byte) (hroom : cur.size < d.base.straps.maxPayload) :
    ∃ cur', slotAppend e.base.straps.slotKind cur b = some cur' ∧ cur'.max = cur.max ∧
      content cur' = content cur ++ [b] := by
  obtain ⟨cur', ha⟩ := slotAppend_isSome (kind := e.base.straps.slotKind) (b := b) (sl := cur) (by
    rw [h.max]; omega)
  obtain ⟨-, -, hmax, hcontent, -, -⟩ := slotAppend_some ha
  exact ⟨cur', ha, hmax, hcontent⟩

/-- A complete frame in a ring that is not full is delivered: the message is the content of the current slot. -/
theorem Reading.commits (h : Reading d cur e) (hd : DecBody d) (hroom : isFull d.base = false)
    (hnoise : d.base.straps.proto = .simple16 → e.s16.ignored = 0#32) :
    ∃ e', commit e = (e', .committed) ∧ Delivered d (content cur) e' := by
  obtain ⟨hring, hlen, -⟩ := hd
  have hseek : Restarted True (commit e).1 := restarted_commit fun _ => by rwa [h.base]
  rw [commit_room (by rwa [h.base])] at hseek ⊢
  refine ⟨_, rfl, ?_, ?_, ?_, ?_, hseek.1, ?_⟩
  · rw [h.base]
  · rw [h.base, reseek_slots, h.slots, slotQueue_published hring hroom hlen]
  · exact (reseek_errCount e).trans h.errCount
  · exact (reseek_reports e).trans h.reports
  · intro hproto
    have hs16 : (reseek e).s16.ignored = e.s16.ignored := by
      rw [reseek_s16_simple16 (by rwa [h.base])]
    exact hs16.trans (hnoise hproto)

end

/-! ### The frame of a message on Simple8 (30_encoding R95, 45_framing_encode R342) -/

/-- The bytes a Simple8 frame carries between its markers, before they are escaped. -/
def s8Carried (st : Straps) (p : List Byte) : List Byte := p ++ if st.s8CrcEn then [crc8 st st.s8Stx p] else []

theorem frameS8_eq (st : Straps) (p : List Byte) :
    frameS8 st p = [st.s8Stx] ++ (s8Carried st p).flatMap (escByte st) ++ [st.s8Etx] := by
  cases h : st.s8CrcEn <;> simp [frameS8, s8Carried, h]

/-- The escape of a control byte is none (00_scope R10). -/
theorem isControl_flip {st : Straps} {b : Byte} (hst : controlBytesDistinct st = true) (hb : isControl st b = true) :
    isControl st (b ^^^ 0x80#8) = false := by
  by_contra h
  exact flip_ne_self b (control_eq_of_sameLow7 hst (by simpa using h) hb (sameLow7_flip b))

theorem unescaped_flip (b : Byte) : unescaped true (b ^^^ 0x80#8) = b := by
  simp [unescaped]

/-- The decoder `d` has read the bytes `q` of a Simple8 frame: with the CRC enabled the last of them is held back from
the slot and from the checksum (44_framing_decode R280). -/
structure S8Reads (d : DecInst) (q : List Byte) (cur : Slot) (e : DecInst) : Prop extends Reading d cur e where
  inFrame : e.s8.inFrame = true
  stored : content cur = if d.base.straps.s8CrcEn then q.dropLast else q
  held : d.base.straps.s8CrcEn = true → (e.s8.holdValid = true ↔ q ≠ []) ∧ (∀ x ∈ q.getLast?, e.s8.hold = x) ∧
    e.s8.crc = crc8 d.base.straps d.base.straps.s8Stx q.dropLast

section
variable {d e : DecInst} {q : List Byte} {cur : Slot}

/-- The frame start (44_framing_decode R273). -/
theorem Reading.s8Start (h : Reading d cur e) : S8Reads d [] (slotZero cur) (s8Start e cur) where
  toReading := h.setCur rfl rfl rfl rfl rfl
  inFrame := rfl
  stored := by simp
  held _ := ⟨by simp [Machine.s8Start], by simp, by simp [Machine.s8Start, h.base, crc8]⟩

/-- `NTX` leaves all that is read as it was. -/
theorem S8Reads.prefixed (h : S8Reads d q cur e) : S8Reads d q cur (s8Prefixed e) :=
  { h with toReading := h.regs rfl rfl rfl rfl }

/-- A data byte is read: it is stored, or held and the one held before stored (44_framing_decode R280). -/
theorem S8Reads.data {b x : Byte} (h : S8Reads d q cur e) (hx : x = unescaped e.s8.esc b)
    (hroom : q.length < d.base.straps.maxPayload + if d.base.straps.s8CrcEn then 1 else 0) :
    ∃ cur' e', s8Data e cur b = (e', .none) ∧ S8Reads d (q ++ [x]) cur' e' ∧ e'.s8.esc = false := by
  have hsize : cur.size = (content cur).length := (content_length cur).symm
  cases hcrc : d.base.straps.s8CrcEn with
  | false =>
    have hq : content cur = q := by simp [h.stored, hcrc]
    obtain ⟨cur', ha, hmax, hcontent⟩ := h.append x (by simpa [hsize, hq, hcrc] using hroom)
    exact ⟨cur', _, s8Data_append hx (by rw [h.base, hcrc]) ha,
      ⟨h.setCur hmax rfl rfl rfl rfl, h.inFrame, by simp [hcontent, hq, hcrc], by simp [hcrc]⟩, rfl⟩
  | true =>
    obtain ⟨hvalid, hlast, hsum⟩ := h.held hcrc
    have hq : content cur = q.dropLast := by simp [h.stored, hcrc]
    rcases List.eq_nil_or_concat q with rfl | ⟨q, y, rfl⟩
    · exact ⟨cur, _, s8Data_hold hx (by rw [h.base, hcrc]) (by simpa using hvalid),
        ⟨h.regs rfl rfl rfl rfl, h.inFrame, by simp [hq, hcrc], fun _ => ⟨by simp, by simp, by simpa using hsum⟩⟩, rfl⟩
    · rw [List.concat_eq_append] at *
      have hhold : e.s8.hold = y := hlast y (by simp)
      obtain ⟨cur', ha, hmax, hcontent⟩ := h.append e.s8.hold (by simpa [hsize, hq, hcrc] using hroom)
      refine ⟨cur', _, s8Data_appendHeld hx (by rw [h.base, hcrc]) (hvalid.2 (by simp)) ha,
        ⟨h.setCur hmax rfl rfl rfl rfl, h.inFrame, by simp [hcontent, hq, hcrc, hhold],
          fun _ => ⟨by simp, by simp, ?_⟩⟩, rfl⟩
      simp [h.base, hhold, hsum, crc8_append]

/-- A byte carried is read as it was before its escape, whether it is a control byte or not. -/
theorem S8Reads.feeds_escByte (hproto : d.base.straps.proto = .simple8)
    (hst : controlBytesDistinct d.base.straps = true) (h : S8Reads d q cur e) (hesc : e.s8.esc = false) (x : Byte)
    (hroom : q.length < d.base.straps.maxPayload + if d.base.straps.s8CrcEn then 1 else 0) :
    ∃ e', Feeds e (escByte d.base.straps x) e' ∧ ∃ cur', S8Reads d (q ++ [x]) cur' e' ∧ e'.s8.esc = false := by
  have hdata {f : DecInst} {b : Byte} (hf : S8Reads d q cur f) (hb : isControl d.base.straps b = false)
      (hx : x = unescaped f.s8.esc b) :
      ∃ e', Feeds f [b] e' ∧ ∃ cur', S8Reads d (q ++ [x]) cur' e' ∧ e'.s8.esc = false := by
    obtain ⟨cur', e', hfeed, hreads⟩ := hf.data hx hroom
    have hfed : feedByte f cur b = (e', .none) := by
      rw [feedByte_simple8 cur b (by rw [hf.base, hproto]), feedS8_data cur hf.inFrame (by rw [hf.base, hb]), hfeed]
    exact ⟨e', .quiet hf.current hfed, cur', hreads⟩
  unfold escByte
  split
  · next hctl =>
    have hntx := feedByte_prefix cur (by rw [h.base, hproto]) (by rw [h.base, hst]) ⟨h.inFrame, hesc⟩
    rw [h.base] at hntx
    obtain ⟨e', hfeeds, hreads⟩ := hdata h.prefixed (isControl_flip hst hctl) (unescaped_flip x).symm
    exact ⟨e', (Feeds.quiet h.current hntx).append hfeeds, hreads⟩
  · next hctl => exact hdata h (by simpa using hctl) (by simp [unescaped, hesc])

theorem S8Reads.feeds_escaped {p : List Byte} (hproto : d.base.straps.proto = .simple8)
    (hst : controlBytesDistinct d.base.straps = true) (h : S8Reads d [] cur e) (hesc : e.s8.esc = false)
    (hlen : p.length ≤ d.base.straps.maxPayload + if d.base.straps.s8CrcEn then 1 else 0) :
    ∃ e', Feeds e (p.flatMap (escByte d.base.straps)) e' ∧ ∃ cur', S8Reads d p cur' e' ∧ e'.s8.esc = false := by
  refine Feeds.flatMap (R := fun q e => ∃ cur, S8Reads d q cur e ∧ e.s8.esc = false) ?_ ⟨cur, h, hesc⟩
  rintro q b f hq ⟨cur', hreads, hready⟩
  exact hreads.feeds_escByte hproto hst hready b ((length_lt_of_concat_isPrefix hq).trans_le hlen)

/-- `ETX` after all the bytes carried: the checks of R282 pass. -/
theorem S8Reads.end_commits {p : List Byte} (h : S8Reads d (s8Carried d.base.straps p) cur e) (hp : 1 ≤ p.length) :
    content cur = p ∧ s8End e cur = commit e := by
  have hcontent : content cur = p := by
    rw [h.stored]
    cases hcrc : d.base.straps.s8CrcEn <;> simp [s8Carried, hcrc]
  refine ⟨hcontent, s8End_commit ?_ fun hcrc => ?_⟩
  · rw [← content_length, hcontent]; omega
  · rw [h.base] at hcrc
    obtain ⟨hvalid, hlast, hsum⟩ := h.held hcrc
    have hcarried : s8Carried d.base.straps p = p ++ [crc8 d.base.straps d.base.straps.s8Stx p] := by
      simp [s8Carried, hcrc]
    rw [hcarried] at hvalid hlast hsum
    exact ⟨hvalid.2 (by simp), by rw [hlast _ List.getLast?_concat, hsum, List.dropLast_concat]⟩

end

theorem feeds_frameS8 {d : DecInst} {p : List Byte} (hd : DecBody d) (hroom : isFull d.base = false)
    (hproto : d.base.straps.proto = .simple8) (hst : controlBytesDistinct d.base.straps = true)
    (hidle : d.s8.inFrame = false) (hp : 1 ≤ p.length) (hmax : p.length ≤ d.base.straps.maxPayload) :
    ∃ e, Feeds d (frameS8 d.base.straps p) e ∧ Delivered d p e := by
  obtain ⟨cur, hcur, hok, -⟩ := hd.cur
  obtain ⟨hcurmax, -⟩ := hok
  have hlen : (s8Carried d.base.straps p).length ≤
      d.base.straps.maxPayload + if d.base.straps.s8CrcEn then 1 else 0 := by
    cases hcrc : d.base.straps.s8CrcEn <;> simp [s8Carried, hcrc] <;> omega
  have hstart : Feeds d [d.base.straps.s8Stx] (s8Start d cur) :=
    .quiet hcur ((feedByte_simple8 cur _ hproto).trans (feedS8_stx_idle cur hidle))
  obtain ⟨e, hcarried, cur', hreads, hesc⟩ :=
    (Reading.refl hcur hcurmax).s8Start.feeds_escaped hproto hst rfl hlen
  obtain ⟨hcontent, hend⟩ := hreads.end_commits hp
  obtain ⟨e', hcommit, hdel⟩ := hreads.commits hd hroom (by simp [hproto])
  have hetx : feedByte e cur' d.base.straps.s8Etx = (e', .committed) := by
    have := feedS8_etx (d := e) cur' (by rw [hreads.base, hst]) hreads.inFrame
    rw [if_neg (by simp [hesc]), hend, hcommit, hreads.base] at this
    rwa [feedByte_simple8 cur' _ (by rw [hreads.base, hproto])]
  rw [hcontent] at hdel
  rw [frameS8_eq]
  exact ⟨e', (hstart.append hcarried).append (.commits hreads.current hetx), hdel⟩


/-! ### The frame of a message on Simple16 (45_framing_encode R345) -/

/-- A field written and read again (30_encoding R92). -/
theorem unLe16_le16 (v : U16) : unLe16 (v.extractLsb' 0 8) (v.extractLsb' 8 8) = v := by
  obtain ⟨-, -, -, -, hinv, -⟩ := fieldAssembly
  exact hinv v _ _ rfl

/-- The decoder `d` has read the payload bytes `q` of the Simple16 frame of `p` (44_framing_decode R292). -/
structure S16Reads (d : DecInst) (p q : List Byte) (cur : Slot) (e : DecInst) : Prop extends Reading d cur e where
  st : e.s16.st = .payload
  remaining : e.s16.remaining + q.length = p.length + s16CrcBytes d.base.straps
  crc : e.s16.crc = crc16 d.base.straps (s16CrcStart d.base.straps) (le16 (BitVec.ofNat 16 p.length) ++ q)
  ignored : e.s16.ignored = 0#32
  stored : content cur = q

/-- The Simple16 registers replaced. -/
def DecInst.withS16 (d : DecInst) (r : S16) : DecInst := { d with s16 := r }

theorem Reading.withS16 {d e : DecInst} {cur : Slot} (h : Reading d cur e) (r : S16) : Reading d cur (e.withS16 r) :=
  h.regs rfl rfl rfl rfl

section
variable {d e : DecInst} {p q : List Byte} {cur : Slot} {b : Byte} (h : Reading d cur e)
  (hproto : d.base.straps.proto = .simple16)
include h hproto

theorem Reading.feedByte_simple16 (b : Byte) : feedByte e cur b = feedS16 e cur b :=
  Machine.feedByte_simple16 cur b (by rw [h.base, hproto])

theorem Reading.feeds_sync0 (hst : e.s16.st = .sync0) :
    Feeds e [d.base.straps.s16Sync0] (e.withS16 { e.s16 with st := .sync1 }) := by
  refine .quiet h.current ?_
  rw [h.feedByte_simple16 hproto, feedS16_sync0 cur _ hst, s16Sync0, if_pos (by rw [h.base])]
  rfl

theorem Reading.feeds_sync1 (hst : e.s16.st = .sync1) (hquiet : e.s16.ignored = 0#32) :
    Feeds e [d.base.straps.s16Sync1] (e.withS16 { e.s16 with st := .lenLo }) := by
  refine .quiet h.current ?_
  rw [h.feedByte_simple16 hproto, feedS16_sync1 cur _ hst, s16Sync1, if_pos (by rw [h.base]), if_neg (not_not.2 hquiet)]
  rfl

theorem Reading.feeds_lenLo (hst : e.s16.st = .lenLo) :
    Feeds e [b] (e.withS16 { e.s16 with len := b.setWidth 16, st := .lenHi }) :=
  .quiet h.current ((h.feedByte_simple16 hproto b).trans (feedS16_lenLo cur b hst))

/-- With the high byte of the length the payload begins. -/
theorem Reading.feeds_lenHi {L : U16} (hst : e.s16.st = .lenHi) (hquiet : e.s16.ignored = 0#32)
    (hL : L = e.s16.len ||| (b.setWidth 16 <<< 8)) (hlen : L = BitVec.ofNat 16 p.length) (hnat : L.toNat = p.length)
    (hp : 1 ≤ p.length) (hmax : p.length ≤ d.base.straps.maxPayload) :
    ∃ e', Feeds e [b] e' ∧ ∃ cur', S16Reads d p [] cur' e' := by
  have hpos : L ≠ 0#16 := by
    intro h0
    rw [h0] at hnat
    simp at hnat
    omega
  have hfeed := (h.feedByte_simple16 hproto b).trans <| (feedS16_lenHi cur b hst).trans <|
    s16LenHi_start hL hpos (by rw [h.base, hnat]; exact hmax)
  refine ⟨_, .quiet h.current hfeed, slotZero cur, h.setCur rfl rfl rfl rfl rfl, rfl, ?_, ?_, hquiet, rfl⟩
  · simp [h.base, hnat]
  · simp [h.base, hlen]

theorem Reading.feeds_crcLow (hst : e.s16.st = .payload) (hcrc : d.base.straps.s16CrcEn = true)
    (hrem : e.s16.remaining = 2) :
    Feeds e [b] (e.withS16 { e.s16 with crcRx := b.setWidth 16, remaining := 1 }) :=
  .quiet h.current <| (h.feedByte_simple16 hproto b).trans <| (feedS16_payload cur b hst).trans <|
    s16Payload_crcLow (by rw [h.base, hcrc]) hrem

/-- The last CRC byte commits the frame where the checksums agree (44_framing_decode R293). -/
theorem Reading.feeds_crcHigh (hst : e.s16.st = .payload) (hd : DecBody d) (hroom : isFull d.base = false)
    (hcrc : d.base.straps.s16CrcEn = true) (hrem : e.s16.remaining = 1)
    (hrx : e.s16.crc = e.s16.crcRx ||| (b.setWidth 16 <<< 8)) (hquiet : e.s16.ignored = 0#32) :
    ∃ e', Feeds e [b] e' ∧ Delivered d (content cur) e' := by
  have hfeed := (h.feedByte_simple16 hproto b).trans <| (feedS16_payload cur b hst).trans <|
    (s16Payload_crcHigh (by rw [h.base, hcrc]) hrem hrx).trans (if_neg (not_not.2 rfl))
  obtain ⟨e', hcommit, hdel⟩ :=
    (h.withS16 { e.s16 with crcRx := e.s16.crc, remaining := 0 }).commits hd hroom fun _ => hquiet
  exact ⟨e', .commits h.current (hfeed.trans hcommit), hdel⟩

end

section
variable {d e : DecInst} {p q : List Byte} {cur : Slot} {b : Byte} (hproto : d.base.straps.proto = .simple16)
include hproto

/-- The four bytes before the payload (44_framing_decode R288 to R291). -/
theorem Reading.feeds_s16Header (h : Reading d cur d) (hst : d.s16.st = .sync0) (hquiet : d.s16.ignored = 0#32)
    (hp : 1 ≤ p.length) (hmax : p.length ≤ d.base.straps.maxPayload) (hlen : p.length < 2 ^ 16) :
    ∃ e, Feeds d ([d.base.straps.s16Sync0, d.base.straps.s16Sync1] ++ le16 (BitVec.ofNat 16 p.length)) e ∧
      ∃ cur', S16Reads d p [] cur' e := by
  have hnat : (BitVec.ofNat 16 p.length).toNat = p.length := by rw [BitVec.toNat_ofNat, Nat.mod_eq_of_lt hlen]
  generalize hL : BitVec.ofNat 16 p.length = L at hnat ⊢
  have hsync := (h.feeds_sync0 hproto hst).append
    ((h.withS16 { d.s16 with st := .sync1 }).feeds_sync1 hproto rfl hquiet)
  have hlow := (h.withS16 { d.s16 with st := .lenLo }).feeds_lenLo (b := L.extractLsb' 0 8) hproto rfl
  obtain ⟨e, hhigh, hreads⟩ :=
    (h.withS16 { d.s16 with len := (L.extractLsb' 0 8).setWidth 16, st := .lenHi }).feeds_lenHi
      (b := L.extractLsb' 8 8) hproto rfl hquiet (unLe16_le16 L).symm hL.symm hnat hp hmax
  exact ⟨e, hsync.append (hlow.append hhigh), hreads⟩

/-- A payload byte is stored and enters the checksum; if it is the last byte of the frame, the frame is committed. -/
theorem S16Reads.payload (h : S16Reads d p q cur e) (hq : q ++ [b] <+: p) (hmax : p.length ≤ d.base.straps.maxPayload) :
    ∃ cur' e', S16Reads d p (q ++ [b]) cur' e' ∧
      feedByte e cur b = if e'.s16.remaining = 0 then commit e' else (e', .none) := by
  have hlt := length_lt_of_concat_isPrefix hq
  have hrem := h.remaining
  obtain ⟨cur', ha, hcurmax, hcontent⟩ := h.append b (by rw [← content_length, h.stored]; omega)
  have hreads : S16Reads d p (q ++ [b]) cur' (setCur { e with s16 := { e.s16 with
      crc := crc16Step e.base.straps e.s16.crc b, remaining := e.s16.remaining - 1 } } cur') := by
    refine ⟨h.setCur hcurmax rfl rfl rfl rfl, h.st, ?_, ?_, h.ignored, by rw [hcontent, h.stored]⟩
    · simp only [setCur_s16, List.length_append, List.length_singleton]
      omega
    · simp only [setCur_s16, h.base, h.crc, ← List.append_assoc, crc16_append]
  refine ⟨cur', _, hreads, ?_⟩
  rw [h.feedByte_simple16 hproto, feedS16_payload cur b h.st]
  by_cases hone : e.s16.remaining = 1
  · have hoff : e.base.straps.s16CrcEn = false := by
      by_contra hon
      rw [h.base, Bool.not_eq_false] at hon
      simp only [s16CrcBytes, hon, if_true] at hrem
      omega
    rw [s16Payload_last hoff hone ha, if_pos (by simp [hone])]
  · have hmore : 1 < e.s16.remaining := by omega
    have hcrc : e.base.straps.s16CrcEn = true → 2 < e.s16.remaining := by
      intro hon
      rw [h.base] at hon
      simp only [s16CrcBytes, hon, if_true] at hrem
      omega
    rw [s16Payload_more hcrc hmore ha, if_neg (by simp only [setCur_s16]; omega)]

/-- Payload bytes with more of the frame to come. -/
theorem S16Reads.feeds_bytes (h : S16Reads d p [] cur e) (hq : q <+: p) (hmax : p.length ≤ d.base.straps.maxPayload)
    (hmore : q.length < p.length + s16CrcBytes d.base.straps) :
    ∃ e', Feeds e q e' ∧ ∃ cur', S16Reads d p q cur' e' := by
  refine Feeds.bytes (R := fun q e => ∃ cur, S16Reads d p q cur e) ?_ ⟨cur, h⟩
  rintro r b f hr ⟨cur, hf⟩
  obtain ⟨cur', f', hf', hfeed⟩ := hf.payload hproto (hr.trans hq) hmax
  have hrem := hf'.remaining
  have hle := hr.length_le
  rw [if_neg (by omega)] at hfeed
  exact ⟨f', .quiet hf.current hfeed, cur', hf'⟩

/-- The two CRC bytes after the payload. -/
theorem S16Reads.feeds_crc (h : S16Reads d p p cur e) (hd : DecBody d) (hroom : isFull d.base = false)
    (hcrc : d.base.straps.s16CrcEn = true) : ∃ e', Feeds e (le16 e.s16.crc) e' ∧ Delivered d p e' := by
  have hrem : e.s16.remaining = 2 := by
    have := h.remaining
    simp only [s16CrcBytes, hcrc, if_true] at this
    omega
  have hlow := h.feeds_crcLow (b := e.s16.crc.extractLsb' 0 8) hproto h.st hcrc hrem
  obtain ⟨e', hhigh, hdel⟩ := (h.withS16 { e.s16 with
    crcRx := (e.s16.crc.extractLsb' 0 8).setWidth 16, remaining := 1 }).feeds_crcHigh hproto h.st hd hroom hcrc rfl
      (unLe16_le16 e.s16.crc).symm h.ignored
  rw [h.stored] at hdel
  exact ⟨e', hlow.append hhigh, hdel⟩

theorem feeds_frameS16 (hd : DecBody d) (hroom : isFull d.base = false) (hst : d.s16.st = .sync0)
    (hquiet : d.s16.ignored = 0#32) (hp : 1 ≤ p.length) (hmax : p.length ≤ d.base.straps.maxPayload)
    (hlen : p.length < 2 ^ 16) : ∃ e, Feeds d (frameS16 d.base.straps p) e ∧ Delivered d p e := by
  obtain ⟨cur, hcur, hok, -⟩ := hd.cur
  obtain ⟨hcurmax, -⟩ := hok
  obtain ⟨e0, hheader, cur0, h0⟩ :=
    (Reading.refl hcur hcurmax).feeds_s16Header hproto hst hquiet hp hmax hlen
  unfold frameS16
  cases hcrc : d.base.straps.s16CrcEn with
  | true =>
    obtain ⟨e1, hbytes, cur1, h1⟩ := h0.feeds_bytes hproto (List.prefix_refl p) hmax (by simp [s16CrcBytes, hcrc])
    obtain ⟨e2, htrailer, hdel⟩ := h1.feeds_crc hproto hd hroom hcrc
    rw [h1.crc] at htrailer
    exact ⟨e2, (hheader.append hbytes).append htrailer, hdel⟩
  | false =>
    obtain rfl | ⟨q, b, rfl⟩ := List.eq_nil_or_concat p
    · simp at hp
    · rw [List.concat_eq_append] at *
      obtain ⟨e1, hbytes, cur1, h1⟩ := h0.feeds_bytes hproto (List.prefix_append q [b]) hmax (by simp; omega)
      obtain ⟨cur2, e2, h2, hfeed⟩ := h1.payload hproto (List.prefix_refl _) hmax
      have hrem := h2.remaining
      simp only [s16CrcBytes, hcrc] at hrem
      rw [if_pos (by simpa using hrem)] at hfeed
      obtain ⟨e3, hcommit, hdel⟩ := h2.commits hd hroom fun _ => h2.ignored
      rw [h2.stored] at hdel
      have hlast := Feeds.commits h1.current (hfeed.trans hcommit)
      exact ⟨e3, by simpa using (hheader.append hbytes).append hlast, hdel⟩

end


/-! ### The frame of a message on Packet (45_framing_encode R348) -/

/-- As `unLe16_le16`. -/
theorem unBe24_be24 (v : U24) : unBe24 (v.extractLsb' 16 8) (v.extractLsb' 8 8) (v.extractLsb' 0 8) = v := by
  obtain ⟨-, -, -, -, -, hinv⟩ := fieldAssembly
  exact hinv v _ _ _ rfl

/-- The decoder `d` has read the payload bytes `q` of the Packet frame of `p` (44_framing_decode R307, R308). -/
structure PktReads (d : DecInst) (p q : List Byte) (cur : Slot) (e : DecInst) : Prop extends Reading d cur e where
  st : e.pkt.st = .payload
  len : e.pkt.len.toNat = p.length
  remaining : e.pkt.remaining.toNat + q.length = p.length
  cnt : e.pkt.cnt = min Config.pktCrcWindow q.length
  crc : e.pkt.crc = crc8 d.base.straps Config.pktCrcSeed (q.take Config.pktCrcWindow)
  crcRx : e.pkt.crcRx = crc8 d.base.straps Config.pktCrcSeed (p.take Config.pktCrcWindow)
  stored : content cur = q

/-- The Packet registers replaced. -/
def DecInst.withPkt (d : DecInst) (r : Pkt) : DecInst := { d with pkt := r }

theorem Reading.withPkt {d e : DecInst} {cur : Slot} (h : Reading d cur e) (r : Pkt) : Reading d cur (e.withPkt r) :=
  h.regs rfl rfl rfl rfl

section
variable {d e : DecInst} {p q : List Byte} {cur : Slot} {b : Byte} (h : Reading d cur e)
  (hproto : d.base.straps.proto = .packet)
include h hproto

theorem Reading.feedByte_packet (b : Byte) : feedByte e cur b = feedPkt e cur b :=
  Machine.feedByte_packet cur b (by rw [h.base, hproto])

theorem Reading.feeds_magic0 (hst : e.pkt.st = .magic0) :
    Feeds e [d.base.straps.pktMagic0] (e.withPkt { e.pkt with st := .magic1 }) := by
  refine .quiet h.current ?_
  rw [h.feedByte_packet hproto, feedPkt_magic0 cur _ hst, if_pos (by rw [h.base])]
  rfl

theorem Reading.feeds_magic1 (hst : e.pkt.st = .magic1) :
    Feeds e [d.base.straps.pktMagic1] (e.withPkt { e.pkt with st := .crc }) := by
  refine .quiet h.current ?_
  rw [h.feedByte_packet hproto, feedPkt_magic1 cur _ hst, if_pos (by rw [h.base])]
  rfl

theorem Reading.feeds_pktCrc (hst : e.pkt.st = .crc) :
    Feeds e [b] (e.withPkt { e.pkt with crcRx := b, st := .len2 }) :=
  .quiet h.current ((h.feedByte_packet hproto b).trans (feedPkt_crc cur b hst))

theorem Reading.feeds_len2 (hst : e.pkt.st = .len2) :
    Feeds e [b] (e.withPkt { e.pkt with len := b.setWidth 24 <<< 16, st := .len1 }) :=
  .quiet h.current ((h.feedByte_packet hproto b).trans (feedPkt_len2 cur b hst))

theorem Reading.feeds_len1 (hst : e.pkt.st = .len1) :
    Feeds e [b] (e.withPkt { e.pkt with len := e.pkt.len ||| (b.setWidth 24 <<< 8), st := .len0 }) :=
  .quiet h.current ((h.feedByte_packet hproto b).trans (feedPkt_len1 cur b hst))

/-- With the low byte of the length the payload begins. -/
theorem Reading.feeds_len0 {L : U24} (hst : e.pkt.st = .len0)
    (hrx : e.pkt.crcRx = crc8 d.base.straps Config.pktCrcSeed (p.take Config.pktCrcWindow))
    (hL : L = e.pkt.len ||| b.setWidth 24) (hnat : L.toNat = p.length) (hp : 1 ≤ p.length)
    (hmax : p.length ≤ d.base.straps.maxPayload) : ∃ e', Feeds e [b] e' ∧ ∃ cur', PktReads d p [] cur' e' := by
  have hpos : L ≠ 0#24 := by
    intro h0
    rw [h0] at hnat
    simp at hnat
    omega
  have hfeed := (h.feedByte_packet hproto b).trans <| (feedPkt_len0 cur b hst).trans <|
    pktLen0_start hL hpos (by rw [h.base, hnat]; exact hmax)
  exact ⟨_, .quiet h.current hfeed, slotZero cur, h.setCur rfl rfl rfl rfl rfl, rfl, hnat, hnat, rfl, rfl, hrx, rfl⟩

end

section
variable {d e : DecInst} {p q : List Byte} {cur : Slot} {b : Byte} (hproto : d.base.straps.proto = .packet)
include hproto

/-- The six bytes before the payload (44_framing_decode R300 to R306). -/
theorem Reading.feeds_pktHeader (h : Reading d cur d) (hst : d.pkt.st = .magic0)
    (hp : 1 ≤ p.length) (hmax : p.length ≤ d.base.straps.maxPayload) (hlen : p.length < 2 ^ 24) :
    ∃ e, Feeds d ([d.base.straps.pktMagic0, d.base.straps.pktMagic1,
        crc8 d.base.straps Config.pktCrcSeed (p.take Config.pktCrcWindow)] ++ be24 (BitVec.ofNat 24 p.length)) e ∧
      ∃ cur', PktReads d p [] cur' e := by
  have hnat : (BitVec.ofNat 24 p.length).toNat = p.length := by rw [BitVec.toNat_ofNat, Nat.mod_eq_of_lt hlen]
  generalize BitVec.ofNat 24 p.length = L at hnat ⊢
  generalize hrx : crc8 d.base.straps Config.pktCrcSeed (p.take Config.pktCrcWindow) = rx
  have hmagic := (h.feeds_magic0 hproto hst).append
    ((h.withPkt { d.pkt with st := .magic1 }).feeds_magic1 hproto rfl)
  have hcrc := (h.withPkt { d.pkt with st := .crc }).feeds_pktCrc (b := rx) hproto rfl
  have hhigh := (h.withPkt { d.pkt with crcRx := rx, st := .len2 }).feeds_len2 (b := L.extractLsb' 16 8) hproto rfl
  have hmid := (h.withPkt { d.pkt with
    crcRx := rx, len := (L.extractLsb' 16 8).setWidth 24 <<< 16, st := .len1 }).feeds_len1
      (b := L.extractLsb' 8 8) hproto rfl
  obtain ⟨e, hlow, hreads⟩ := (h.withPkt { d.pkt with
    crcRx := rx
    len := (L.extractLsb' 16 8).setWidth 24 <<< 16 ||| ((L.extractLsb' 8 8).setWidth 24 <<< 8)
    st := .len0 }).feeds_len0 (b := L.extractLsb' 0 8) hproto rfl hrx.symm (unBe24_be24 L).symm hnat hp hmax
  exact ⟨e, hmagic.append (hcrc.append (hhigh.append (hmid.append hlow))), hreads⟩

/-- A payload byte is stored and, inside the window, enters the checksum; the check at the byte that closes the window
passes; the last byte of the frame commits it. -/
theorem PktReads.payload (h : PktReads d p q cur e) (hq : q ++ [b] <+: p) (hmax : p.length ≤ d.base.straps.maxPayload) :
    ∃ cur' e', PktReads d p (q ++ [b]) cur' e' ∧
      feedByte e cur b = if (q ++ [b]).length = p.length then commit e' else (e', .none) := by
  have hlt := length_lt_of_concat_isPrefix hq
  have hrem := h.remaining
  have hcnt := h.cnt
  have hlen := h.len
  obtain ⟨cur', ha, hcurmax, hcontent⟩ := h.append b (by rw [← content_length, h.stored]; omega)
  have hleft : (e.pkt.remaining - 1#24).toNat + (q ++ [b]).length = p.length := by
    rw [BitVec.toNat_sub_of_le (by simp [BitVec.le_def]; omega), List.length_append, List.length_singleton]
    simp only [BitVec.toNat_ofNat]
    omega
  have hlast : e.pkt.remaining = 1#24 ↔ (q ++ [b]).length = p.length := by
    rw [← BitVec.toNat_inj, List.length_append, List.length_singleton]
    simp only [BitVec.toNat_ofNat]
    omega
  have hstored : Reading d cur' (pktStored e cur') := h.setCur hcurmax rfl rfl rfl rfl
  rw [h.feedByte_packet hproto, feedPkt_payload cur b h.st]
  by_cases hin : q.length < Config.pktCrcWindow
  · have htake : (q ++ [b]).take Config.pktCrcWindow = q ++ [b] :=
      List.take_of_length_le (by rw [List.length_append, List.length_singleton]; omega)
    have hsum : crc8Step e.base.straps e.pkt.crc b =
        crc8 d.base.straps Config.pktCrcSeed ((q ++ [b]).take Config.pktCrcWindow) := by
      rw [htake, crc8_append, h.base, h.crc, List.take_of_length_le (Nat.le_of_lt hin)]
    refine ⟨cur', pktChecked e cur' b, ⟨hstored.regs rfl rfl rfl rfl, h.st, h.len, hleft, ?_, hsum, h.crcRx,
      by rw [hcontent, h.stored]⟩, ?_⟩
    · show e.pkt.cnt + 1 = _
      rw [List.length_append, List.length_singleton]
      omega
    · rw [pktPayload_inWindow ha (by omega) fun hend => ?_]
      · simp only [hlast]
      · have hclosed : q ++ [b] = p.take Config.pktCrcWindow := by
          rw [List.prefix_iff_eq_take.1 hq, List.take_eq_take_iff, List.length_append, List.length_singleton]
          omega
        rw [hsum, htake, hclosed, h.crcRx]
  · refine ⟨cur', pktStored e cur', ⟨hstored, h.st, h.len, hleft, ?_, ?_, h.crcRx,
      by rw [hcontent, h.stored]⟩, ?_⟩
    · show e.pkt.cnt = _
      rw [List.length_append, List.length_singleton]
      omega
    · show e.pkt.crc = _
      rw [h.crc, List.take_append_of_le_length (by omega)]
    · rw [pktPayload_pastWindow ha (by omega)]
      simp only [hlast]

/-- Payload bytes with more of the frame to come. -/
theorem PktReads.feeds_bytes (h : PktReads d p [] cur e) (hq : q <+: p) (hmax : p.length ≤ d.base.straps.maxPayload)
    (hmore : q.length < p.length) : ∃ e', Feeds e q e' ∧ ∃ cur', PktReads d p q cur' e' := by
  refine Feeds.bytes (R := fun q e => ∃ cur, PktReads d p q cur e) ?_ ⟨cur, h⟩
  rintro r b f hr ⟨cur, hf⟩
  obtain ⟨cur', f', hf', hfeed⟩ := hf.payload hproto (hr.trans hq) hmax
  have hle := hr.length_le
  rw [if_neg (by omega)] at hfeed
  exact ⟨f', .quiet hf.current hfeed, cur', hf'⟩

theorem feeds_framePkt (hd : DecBody d) (hroom : isFull d.base = false) (hst : d.pkt.st = .magic0)
    (hp : 1 ≤ p.length) (hmax : p.length ≤ d.base.straps.maxPayload) (hlen : p.length < 2 ^ 24) :
    ∃ e, Feeds d (framePkt d.base.straps p) e ∧ Delivered d p e := by
  obtain ⟨cur, hcur, hok, -⟩ := hd.cur
  obtain ⟨hcurmax, -⟩ := hok
  obtain ⟨e0, hheader, cur0, h0⟩ := (Reading.refl hcur hcurmax).feeds_pktHeader hproto hst hp hmax hlen
  obtain rfl | ⟨q, b, rfl⟩ := List.eq_nil_or_concat p
  · simp at hp
  · rw [List.concat_eq_append] at *
    obtain ⟨e1, hbytes, cur1, h1⟩ := h0.feeds_bytes hproto (List.prefix_append q [b]) hmax (by simp)
    obtain ⟨cur2, e2, h2, hfeed⟩ := h1.payload hproto (List.prefix_refl _) hmax
    rw [if_pos rfl] at hfeed
    obtain ⟨e3, hcommit, hdel⟩ := h2.commits hd hroom (by simp [hproto])
    rw [h2.stored] at hdel
    have hlast := Feeds.commits h1.current (hfeed.trans hcommit)
    exact ⟨e3, by simpa [framePkt] using (hheader.append hbytes).append hlast, hdel⟩

end

/-! ### The frame of a message on SeqPacket (45_framing_encode R350) -/

theorem decodeSeq_frameSeq {d : DecInst} {p : List Byte} {cur : Slot} (hd : DecBody d) (hroom : isFull d.base = false)
    (hproto : d.base.straps.proto = .seqpacket) (hcur : d.slots[d.base.ring.writePos]? = some cur)
    (hp : 1 ≤ p.length) (hmax : p.length ≤ d.base.straps.maxPayload) (hlen : p.length < 2 ^ 24) :
    ∃ e, decodeSeq d cur (frameSeq p) = (e, .committed) ∧ Delivered d p e := by
  obtain ⟨cur', hcur', hok, -⟩ := hd.cur
  obtain rfl : cur' = cur := Option.some.inj (hcur'.symm.trans hcur)
  obtain ⟨hcurmax, -⟩ := hok
  have hfilled : Reading d (slotFill d.base.straps.slotKind cur' p)
      (setCur d (slotFill d.base.straps.slotKind cur' p)) :=
    (Reading.refl hcur hcurmax).setCur (slotFill_max _ _ _) rfl rfl rfl rfl
  obtain ⟨e, hcommit, hdel⟩ := hfilled.commits hd hroom (by simp [hproto])
  rw [slotFill_content (by omega)] at hdel
  have hnat := be24_map_toNat (BitVec.ofNat 24 p.length)
  rw [BitVec.toNat_ofNat, Nat.mod_eq_of_lt hlen] at hnat
  simp only [be24, List.map_cons, List.map_nil, List.cons.injEq, and_true] at hnat
  obtain ⟨h2, h1, h0⟩ := hnat
  refine ⟨e, (decodeSeq_good d cur' ?_ (List.ne_nil_of_length_pos hp) hmax).trans hcommit, hdel⟩
  rw [h2, h1, h0]
  omega

/-! ### The round trip (44_framing_decode R316) -/

/-- Straps that pass the construction checks leave the length of a message inside its field, and the control bytes
distinct (00_scope R9, R10). -/
theorem strapsLegal_bounds {st : Straps} (h : strapsLegal st = true) :
    st.maxPayload ≤ payloadBound st.proto ∧ (st.proto = .simple8 → controlBytesDistinct st = true) := by
  simp only [strapsLegal, Bool.and_eq_true, Bool.or_eq_true, decide_eq_true_eq] at h
  obtain ⟨⟨-, hmax⟩, hctl⟩ := h
  exact ⟨hmax, fun hproto => hctl.resolve_left (not_not.2 hproto)⟩

/-- On the stream protocols the frame of a message is fed to its end, and delivers the message. -/
theorem feeds_frame {d : DecInst} {p : List Byte} (hd : DecBody d) (hlegal : strapsLegal d.base.straps = true)
    (hroom : isFull d.base = false) (hproto : d.base.straps.proto ≠ .seqpacket) (hseek : SeekingSync d)
    (hquiet : d.base.straps.proto = .simple16 → d.s16.ignored = 0#32) (hp : 1 ≤ p.length)
    (hmax : p.length ≤ d.base.straps.maxPayload) :
    ∃ e, Feeds d (frame d.base.straps p) e ∧ Delivered d p e := by
  obtain ⟨hbound, hctl⟩ := strapsLegal_bounds hlegal
  unfold SeekingSync at hseek
  cases h : d.base.straps.proto with
  | simple8 =>
    simp only [frame, h] at hseek ⊢
    exact feeds_frameS8 hd hroom h (hctl h) hseek hp hmax
  | simple16 =>
    simp only [frame, h, payloadBound] at hseek hbound ⊢
    exact feeds_frameS16 h hd hroom hseek (hquiet h) hp hmax (by omega)
  | packet =>
    simp only [frame, h, payloadBound] at hseek hbound ⊢
    exact feeds_framePkt h hd hroom hseek hp hmax (by omega)
  | seqpacket => exact absurd h hproto

/-- Settles O51: a stream protocol is fed the frame byte by byte, SeqPacket takes it as one datagram. -/
theorem roundTrip : Obligations.RoundTrip := by
  intro s p hok hserve hwhole hseek hquiet hroom hp hmax
  obtain ⟨hc, -, -⟩ := id hserve
  have hd : DecBody s.dec := hok.body hc
  have hlegal : strapsLegal s.dec.base.straps = true := by
    obtain ⟨hcfg, -⟩ := hok
    exact hcfg.symm.trans hc
  suffices h : ∃ e, exec (.decPush (frame s.dec.base.straps p)) s = .next (State.answer
      { s with dec := { e with pushing := none } }
      { status := .ok, fields := leBytes 4 (frame s.dec.base.straps p).length ++ [0#8] }) ∧ Delivered s.dec p e by
    obtain ⟨e, hexec, hdel⟩ := h
    exact ⟨{ e with pushing := none }, hexec, hdel.base, hdel.queue, hdel.errCount, hdel.reports, hdel.seeking,
      hdel.noise⟩
  by_cases hproto : s.dec.base.straps.proto = .seqpacket
  · obtain ⟨hbound, -⟩ := strapsLegal_bounds hlegal
    obtain ⟨cur, hcur, -⟩ := hd.cur
    rw [hproto, payloadBound] at hbound
    obtain ⟨e, hdec, hdel⟩ := decodeSeq_frameSeq hd hroom hproto hcur hp hmax (by omega)
    refine ⟨e, ?_, hdel⟩
    simp only [frame, hproto]
    rw [exec_decPush_datagram _ hserve hwhole hproto hcur, hdec]
    rfl
  · obtain ⟨e, hfeeds, hdel⟩ := feeds_frame hd hlegal hroom hproto hseek hquiet hp hmax
    exact ⟨e, exec_decPush_feeds hserve hwhole hproto hfeeds, hdel⟩

end Sys2Proof.Machine
end

section
/-! PROOF. The statements of 45_framing_encode: the framer each protocol selects, and the bytes and the length of its
frame. -/
namespace Sys2Proof.Machine

/-! ### The framer of each protocol (43_encoder_base R236) -/

section
variable {st : Straps} (p : List Byte)

theorem frame_simple8 (h : st.proto = .simple8) : frame st p = frameS8 st p := by rw [frame, h]

theorem frame_simple16 (h : st.proto = .simple16) : frame st p = frameS16 st p := by rw [frame, h]

theorem frame_packet (h : st.proto = .packet) : frame st p = framePkt st p := by rw [frame, h]

theorem frame_seqpacket (h : st.proto = .seqpacket) : frame st p = frameSeq p := by rw [frame, h]

end

/-! ### The bytes of a frame (30_encoding R95, 45_framing_encode R342, R345, R348, R350) -/

/-- The escape as 30_encoding R95 spells it, by the three control bytes. -/
theorem escByte_eq_ite (st : Straps) (b : Byte) : escByte st b =
    if b = st.s8Stx ∨ b = st.s8Etx ∨ b = st.s8Ntx then [st.s8Ntx, b ^^^ 0x80#8] else [b] := by
  simp only [escByte, isControl_iff]

/-- The only escape that meets R95 is the model's. -/
theorem eq_escByte {st : Straps} {esc : Byte → List Byte}
    (h : ∀ b, esc b = if b = st.s8Stx ∨ b = st.s8Etx ∨ b = st.s8Ntx then [st.s8Ntx, b ^^^ 0x80#8] else [b]) :
    esc = escByte st :=
  funext fun b => (h b).trans (escByte_eq_ite st b).symm

/-- Settles O43: each protocol selects its framer, whose CRCs are folds of the step from the protocol's start value. -/
theorem frameBytes : Obligations.FrameBytes := by
  intro st p esc hesc
  obtain rfl := eq_escByte hesc
  refine ⟨fun h => ?_, fun h c hc => ?_, fun h => ?_, fun h => ?_⟩
  · rw [frame_simple8 p h, frameS8, crc8, List.flatMap_def, List.singleton_append]
  · have hcrc : c = crc16 st (s16CrcStart st) (le16 (BitVec.ofNat 16 p.length) ++ p) := hc
    rw [frame_simple16 p h, frameS16, hcrc]
  · rw [frame_packet p h, framePkt, crc8, Config.pktCrcSeed, Config.pktCrcWindow]
  · rw [frame_seqpacket p h, frameSeq]

/-! ### The length of a frame (43_encoder_base R231, 45_framing_encode R341) -/

/-- Settles O44: escaping at most doubles a byte and never drops one, the rest of a frame has a fixed length. -/
theorem frameLengthBound : Obligations.FrameLengthBound := frame_length_bounds

end Sys2Proof.Machine
end

section
/-! PROOF. The statement of 60_exceptions: the notifier counts the queued slots, and the wake output is the level of that
count. -/
namespace Sys2Proof.Machine

/-! ### The notifier of a ring of the invariant (10_state R34) -/

section
variable {b : Base}

theorem RingOk.queueSize_eq_zero (h : RingOk b) : queueSize b = 0 ↔ b.ring.readPos = b.ring.writePos := by
  obtain ⟨hread, -, -⟩ := h
  exact ringSize_eq_zero hread

theorem RingOk.notifyCount_eq (h : RingOk b) (hn : b.straps.hasNotifier = true) :
    b.ring.notifyCount = queueSize b := by
  obtain ⟨-, -, hcount⟩ := h
  rwa [if_pos hn] at hcount

/-- Low without a notifier (60_exceptions R381); with one, high while its count, the size of the queue, is not 0
(R380). -/
theorem RingOk.wake_iff (h : RingOk b) :
    wake b = true ↔ b.straps.hasNotifier = true ∧ b.ring.readPos ≠ b.ring.writePos := by
  rw [wake, Bool.and_eq_true, bne_iff_ne]
  refine and_congr_right fun hn => not_congr ?_
  rw [h.notifyCount_eq hn, h.queueSize_eq_zero]

end

/-! ### Every instance -/

theorem StateOk.ringOk {s : State} (h : StateOk s) {k : Kind} (hc : (s.base k).configured = true) :
    RingOk (s.base k) := by
  obtain ⟨hrg, hpool, hdec, henc⟩ := h
  cases k with
  | rg => exact InstOk.ring hrg hc
  | pool => exact InstOk.ring hpool hc
  | dec => exact InstOk.ring hdec hc
  | enc => exact InstOk.ring henc hc

/-- Settles O58: both parts are facts of the ring of the instance, and its queue has at most `N - 1` slots. -/
theorem wakeTracksQueue : Obligations.WakeTracksQueue := by
  intro s k hok hc
  have hring := hok.ringOk hc
  refine ⟨hring.wake_iff, fun hn => ?_⟩
  have hcount := hring.notifyCount_eq hn
  exact ⟨hcount, hcount.trans_le (hok.queueSize_le k)⟩

end Sys2Proof.Machine
end
